-- ==== Sys2Proof/Word.lean ====
section
/-! DEFINITION. The word types of the block, with the widths of 00_scope.md rule R7 and 30_encoding.md rules R63, R65, R74. -/

namespace Sys2Proof

/-- An 8-bit unsigned value: a channel intensity, a buffer byte, a pin or a brightness (R7, R106). -/
abbrev Byte := BitVec 8

/-- A 24-bit unsigned value: operand A, a pixel index, a strip length, a register number (R7, R63). -/
abbrev Word24 := BitVec 24

/-- A 32-bit unsigned value: operand B and the DATA field of a response (R63, R65). -/
abbrev Word32 := BitVec 32

/-- A command word of the single format CMD64 (R63). -/
abbrev CmdWord := BitVec 64

/-- A symbol word as it is handed to the channel (R74). -/
abbrev SymbolWord := BitVec 32

end Sys2Proof
end

