-- ==== Sys2Proof/Syntax.lean ====
section
/-! DEFINITION. The commands of the block: colours, the raw command word's fields, the nineteen opcodes and the nineteen
commands with their operands (30_encoding.md rules R63, R64, R67). -/

namespace Sys2Proof

/-- A Color: three 8-bit unsigned channels (R106). -/
structure Color where
  r : Byte
  g : Byte
  b : Byte
  deriving DecidableEq, Repr

/-- A ColorW: a Color and a fourth, white channel (R106). -/
structure ColorW where
  r : Byte
  g : Byte
  b : Byte
  w : Byte
  deriving DecidableEq, Repr

/-- The nineteen opcodes of rule R67. -/
inductive Opcode where
  | nop | init | free | refresh | refresha | isbusy | setraw | readpix | readreg
  | setpix | setpixw | fill | fillw | clear | setbrt | setgamma | cvtw | cvtrgb | lutrd
  deriving DecidableEq, Repr

/-- The commands, one constructor for each row of opcode_table.json, with the operands of rule R64. Every operand has the
width of its field, so that every value of this type is a command the block has. -/
inductive Instr where
  /-- NOP (R97). -/
  | nop
  /-- INIT length, order, pin (R98). -/
  | init (length : Word24) (order : Byte) (pin : Byte)
  /-- FREE (R99). -/
  | free
  /-- REFRESH (R100). -/
  | refresh
  /-- REFRESHA (R101). -/
  | refresha
  /-- ISBUSY (R102). -/
  | isbusy
  /-- SETRAW index, raw (R103). -/
  | setraw (index : Word24) (raw : Word24)
  /-- READPIX index (R104). -/
  | readpix (index : Word24)
  /-- READREG regnum (R105). -/
  | readreg (regnum : Word24)
  /-- SETPIX index, rgb (R122). -/
  | setpix (index : Word24) (c : Color)
  /-- SETPIXW index, wrgb (R123). -/
  | setpixw (index : Word24) (c : ColorW)
  /-- FILL rgb (R124). -/
  | fill (c : Color)
  /-- FILLW wrgb (R125). -/
  | fillw (c : ColorW)
  /-- CLEAR (R126). -/
  | clear
  /-- SETBRT bri (R127). -/
  | setbrt (bri : Byte)
  /-- SETGAMMA en (R128). -/
  | setgamma (en : Bool)
  /-- CVTW rgb (R129). -/
  | cvtw (c : Color)
  /-- CVTRGB wrgb (R130). -/
  | cvtrgb (c : ColorW)
  /-- LUTRD c (R131). -/
  | lutrd (c : Byte)
  deriving DecidableEq, Repr

/-- Which opcode a command has (R67). -/
def Instr.opcode : Instr → Opcode
  | .nop => .nop
  | .init _ _ _ => .init
  | .free => .free
  | .refresh => .refresh
  | .refresha => .refresha
  | .isbusy => .isbusy
  | .setraw _ _ => .setraw
  | .readpix _ => .readpix
  | .readreg _ => .readreg
  | .setpix _ _ => .setpix
  | .setpixw _ _ => .setpixw
  | .fill _ => .fill
  | .fillw _ => .fillw
  | .clear => .clear
  | .setbrt _ => .setbrt
  | .setgamma _ => .setgamma
  | .cvtw _ => .cvtw
  | .cvtrgb _ => .cvtrgb
  | .lutrd _ => .lutrd

end Sys2Proof
end

