-- ==== Sys2Proof/WellFormed.lean ====
section
/-! DEFINITION. Which command words are well formed: the opcode map and the column "must be 0" of 30_encoding.md rules R67 to
R70, read field by field. A command of type Instr needs no check of its own, because each operand has the width of its field
(R64): what can be ill formed is a 64-bit word. The decoder is written from the masks of R68 instead; that the two readings
agree on every word is a statement of the model (Obligations.DecoderAcceptsExactlyTheWellFormedWords). -/

namespace Sys2Proof

/-- A word is well formed when its OPC is one of 0x00 to 0x12 (R70) and its row's must-be-0 fields are 0 (R67, R69). -/
def CmdWord.wellFormed (w : CmdWord) : Bool :=
  let a : Word24 := w.extractLsb' 32 24
  let b : Word32 := w.extractLsb' 0 32
  match (w.extractLsb' 56 8 : Byte).toNat with
  | 0x00 => a == 0 && b == 0
  | 0x01 => b.extractLsb' 16 16 == 0
  | 0x02 => a == 0 && b == 0
  | 0x03 => a == 0 && b == 0
  | 0x04 => a == 0 && b == 0
  | 0x05 => a == 0 && b == 0
  | 0x06 => b.extractLsb' 24 8 == 0
  | 0x07 => b == 0
  | 0x08 => b == 0
  | 0x09 => b.extractLsb' 24 8 == 0
  | 0x0A => true
  | 0x0B => a == 0 && b.extractLsb' 24 8 == 0
  | 0x0C => a == 0
  | 0x0D => a == 0 && b == 0
  | 0x0E => a == 0 && b.extractLsb' 8 24 == 0
  | 0x0F => a == 0 && b.extractLsb' 1 31 == 0
  | 0x10 => a == 0 && b.extractLsb' 24 8 == 0
  | 0x11 => a == 0
  | 0x12 => a.extractLsb' 8 16 == 0 && b == 0
  | _ => false

end Sys2Proof
end

