-- ==== Sys2Proof/Decode.lean ====
section
/-! DEFINITION. The decoder and, after it, the encoder of CMD64 (30_encoding.md rules R63 to R71), with the operand packings
RAW24, RGB24 and WRGB32 of 20_memory.md rule R45. -/

namespace Sys2Proof

/-- Why a word is no command; the block answers ILLEGAL_COMMAND to both (R69, R70). -/
inductive DecodeError where
  /-- OPC is 0x13 to 0xFF (R70). -/
  | reservedOpcode (opc : Byte)
  /-- A must-be-0 bit of this opcode's row is 1 (R69). -/
  | mustBeZeroBitSet (op : Opcode)
  deriving DecidableEq, Repr

/-- `cmd.OPC`, bits 63:56 (R63). -/
def fieldOpc (w : CmdWord) : Byte := w.extractLsb' 56 8

/-- `cmd.A`, bits 55:32 (R63). -/
def fieldA (w : CmdWord) : Word24 := w.extractLsb' 32 24

/-- `cmd.B`, bits 31:0 (R63). -/
def fieldB (w : CmdWord) : Word32 := w.extractLsb' 0 32

/-- RGB24: `r` in bits 23:16, `g` in 15:8, `b` in 7:0 (R45, R64). -/
def unpackRgb24 (v : Word24) : Color where
  r := v.extractLsb' 16 8
  g := v.extractLsb' 8 8
  b := v.extractLsb' 0 8

/-- `{r, g, b}` as RGB24 (R45). -/
def packRgb24 (c : Color) : Word24 := c.r ++ c.g ++ c.b

/-- WRGB32: `w` in bits 31:24, `r` in 23:16, `g` in 15:8, `b` in 7:0 (R45, R64). -/
def unpackWrgb32 (v : Word32) : ColorW where
  w := v.extractLsb' 24 8
  r := v.extractLsb' 16 8
  g := v.extractLsb' 8 8
  b := v.extractLsb' 0 8

/-- `{w, r, g, b}` as WRGB32 (R45). -/
def packWrgb32 (c : ColorW) : Word32 := c.w ++ c.r ++ c.g ++ c.b

/-- Every opcode, in the order of rule R67. -/
def allOpcodes : List Opcode :=
  [.nop, .init, .free, .refresh, .refresha, .isbusy, .setraw, .readpix, .readreg] ++
    [.setpix, .setpixw, .fill, .fillw, .clear, .setbrt, .setgamma, .cvtw, .cvtrgb, .lutrd]

/-- The OPC value of each opcode (R67). -/
def opcodeValue : Opcode → Byte
  | .nop => 0x00
  | .init => 0x01
  | .free => 0x02
  | .refresh => 0x03
  | .refresha => 0x04
  | .isbusy => 0x05
  | .setraw => 0x06
  | .readpix => 0x07
  | .readreg => 0x08
  | .setpix => 0x09
  | .setpixw => 0x0A
  | .fill => 0x0B
  | .fillw => 0x0C
  | .clear => 0x0D
  | .setbrt => 0x0E
  | .setgamma => 0x0F
  | .cvtw => 0x10
  | .cvtrgb => 0x11
  | .lutrd => 0x12

/-- The bits of the command word that the column "must be 0" of rule R67 lists, one bit set for each. -/
def mustBeZero : Opcode → CmdWord
  | .nop => 0x00FFFFFFFFFFFFFF
  | .init => 0x00000000FFFF0000
  | .free => 0x00FFFFFFFFFFFFFF
  | .refresh => 0x00FFFFFFFFFFFFFF
  | .refresha => 0x00FFFFFFFFFFFFFF
  | .isbusy => 0x00FFFFFFFFFFFFFF
  | .setraw => 0x00000000FF000000
  | .readpix => 0x00000000FFFFFFFF
  | .readreg => 0x00000000FFFFFFFF
  | .setpix => 0x00000000FF000000
  | .setpixw => 0x0000000000000000
  | .fill => 0x00FFFFFFFF000000
  | .fillw => 0x00FFFFFF00000000
  | .clear => 0x00FFFFFFFFFFFFFF
  | .setbrt => 0x00FFFFFFFFFFFF00
  | .setgamma => 0x00FFFFFFFFFFFFFE
  | .cvtw => 0x00FFFFFFFF000000
  | .cvtrgb => 0x00FFFFFF00000000
  | .lutrd => 0x00FFFF00FFFFFFFF

/-- The opcode whose OPC value this is, if rule R67 gives one; 0x13 to 0xFF are reserved (R70). -/
def opcodeOfValue (c : Byte) : Option Opcode :=
  allOpcodes.find? (fun op => opcodeValue op == c)

/-- The mask of an opcode's row: OPC and every must-be-0 bit (R68). -/
def rowMask (op : Opcode) : CmdWord := 0xFF00000000000000 ||| mustBeZero op

/-- The match of an opcode's row: OPC in bits 63:56 and zeros elsewhere (R68). -/
def rowMatch (op : Opcode) : CmdWord := opcodeValue op ++ (0 : BitVec 56)

/-- The command of an opcode whose must-be-0 bits have been checked, its operands taken from A and B as rule R64 says. -/
def operandsOf (op : Opcode) (a : Word24) (b : Word32) : Instr :=
  match op with
  | .nop => .nop
  | .init => .init a (b.extractLsb' 0 8) (b.extractLsb' 8 8)
  | .free => .free
  | .refresh => .refresh
  | .refresha => .refresha
  | .isbusy => .isbusy
  | .setraw => .setraw a (b.extractLsb' 0 24)
  | .readpix => .readpix a
  | .readreg => .readreg a
  | .setpix => .setpix a (unpackRgb24 (b.extractLsb' 0 24))
  | .setpixw => .setpixw a (unpackWrgb32 b)
  | .fill => .fill (unpackRgb24 (b.extractLsb' 0 24))
  | .fillw => .fillw (unpackWrgb32 b)
  | .clear => .clear
  | .setbrt => .setbrt (b.extractLsb' 0 8)
  | .setgamma => .setgamma (b.getLsbD 0)
  | .cvtw => .cvtw (unpackRgb24 (b.extractLsb' 0 24))
  | .cvtrgb => .cvtrgb (unpackWrgb32 b)
  | .lutrd => .lutrd (a.extractLsb' 0 8)

/-- The decoder (R68): OPC first, then the row's must-be-0 bits; every 64-bit word gives one command or one rejection. -/
def decode (w : CmdWord) : Except DecodeError Instr :=
  match opcodeOfValue (fieldOpc w) with
  | none => .error (.reservedOpcode (fieldOpc w))
  | some op =>
    if w &&& mustBeZero op = 0 then .ok (operandsOf op (fieldA w) (fieldB w))
    else .error (.mustBeZeroBitSet op)

/-- What operand field A of a command holds (R67). -/
def operandA : Instr → Word24
  | .init length _ _ => length
  | .setraw index _ => index
  | .readpix index => index
  | .readreg regnum => regnum
  | .setpix index _ => index
  | .setpixw index _ => index
  | .lutrd c => (0 : BitVec 16) ++ c
  | .nop | .free | .refresh | .refresha | .isbusy | .fill _ | .fillw _ | .clear => 0
  | .setbrt _ | .setgamma _ | .cvtw _ | .cvtrgb _ => 0

/-- What operand field B of a command holds (R67). -/
def operandB : Instr → Word32
  | .init _ order pin => (0 : BitVec 16) ++ pin ++ order
  | .setraw _ raw => (0 : BitVec 8) ++ raw
  | .setpix _ c => (0 : BitVec 8) ++ packRgb24 c
  | .setpixw _ c => packWrgb32 c
  | .fill c => (0 : BitVec 8) ++ packRgb24 c
  | .fillw c => packWrgb32 c
  | .setbrt bri => (0 : BitVec 24) ++ bri
  | .setgamma en => (0 : BitVec 31) ++ BitVec.ofBool en
  | .cvtw c => (0 : BitVec 8) ++ packRgb24 c
  | .cvtrgb c => packWrgb32 c
  | .nop | .free | .refresh | .refresha | .isbusy | .readpix _ | .readreg _ | .clear | .lutrd _ => 0

/-- The command word of a command: `{OPC, A, B}` (R63, R67). -/
def encode (i : Instr) : CmdWord := opcodeValue i.opcode ++ operandA i ++ operandB i

/-- The command the decoder reads from the first `nbits` bits of `w`, bit 0 the least significant bit of the command word.
Every command is one 64-bit word, so a longer one is none (R71). -/
def decodeTableWord (nbits w : Nat) : Option Instr :=
  if nbits ≤ 64 then
    match decode (BitVec.ofNat 64 (w % 2 ^ nbits)) with
    | .ok i => some i
    | .error _ => none
  else none

end Sys2Proof
end

