-- ==== Sys2Proof/Config.lean ====
section
/-! DEFINITION. The implementation parameters of 00_scope.md rule R7. The rule says that a model takes each open one as an
argument: they are one record of plain data that State carries and no step changes, so that every statement about every state
is a statement about every legal choice of them. The fixed ones are constants. -/

namespace Sys2Proof

/-- CONFIG_SHARING (R7, R38): whether the configuration group is held once for each block or once for the whole system. -/
inductive ConfigSharing where
  | perInstance
  | shared
  deriving DecidableEq, Repr

/-- The parameters that rule R7 leaves open, each with the field's meaning there. -/
structure Config where
  /-- `T0L`: low ticks of a logical-0 symbol, 8 or 9 (R77). -/
  t0l : Nat
  /-- `T1L`: low ticks of a logical-1 symbol, 4 or 5 (R77). -/
  t1l : Nat
  /-- `TRST`: low ticks of the reset symbol and of the latch wait, 600 to 32767 (R77, R100). -/
  trst : Nat
  /-- `MAX_PIXELS`: capacity of the pixel buffer in pixels, 1 to 2^24 - 1 (R32). -/
  maxPixels : Nat
  /-- `CH_BUFFER_DEPTH`: passed through to the channel's configure request (R76). -/
  chBufferDepth : Nat
  /-- `REFRESH_TIMEOUT`: `none` is INF, `some n` a positive tick count (R100). -/
  refreshTimeout : Option Nat
  /-- `CONFIG_SHARING` (R38). -/
  sharing : ConfigSharing
  /-- `INFLIGHT_GUARD`: true is ON (R96). -/
  inflightGuard : Bool
  deriving DecidableEq, Repr

namespace Config

/-- `RES_HZ`: the symbol-clock resolution that INIT passes to the channel (R7, R78). -/
def resHz : Nat := 10000000

/-- `T0H`: high ticks of a logical-0 symbol (R77). -/
def t0h : Nat := 4

/-- `T1H`: high ticks of a logical-1 symbol (R77). -/
def t1h : Nat := 8

/-- `LOOP_COUNT`: a transmission is sent once (R7, R84). -/
def loopCount : Nat := 0

/-- The ranges that rule R7 gives the open parameters. -/
abbrev wf (c : Config) : Prop :=
  (c.t0l = 8 ∨ c.t0l = 9) ∧ (c.t1l = 4 ∨ c.t1l = 5) ∧ (600 ≤ c.trst ∧ c.trst ≤ 32767) ∧
    (1 ≤ c.maxPixels ∧ c.maxPixels ≤ 2 ^ 24 - 1) ∧ c.refreshTimeout ≠ some 0

/-- The defaults of rule R7. DESIGN CHOICE (log 1): R7 gives MAX_PIXELS and CH_BUFFER_DEPTH no default; 16 is the value
95_test_vectors.md works with and 1 is chosen here. -/
def default : Config where
  t0l := 8
  t1l := 4
  trst := 600
  maxPixels := 16
  chBufferDepth := 1
  refreshTimeout := none
  sharing := .perInstance
  inflightGuard := false

end Config
end Sys2Proof
end

