-- ==== Sys2Proof/Machine/State.lean ====
section
/-! DEFINITION. The state of one block instance as plain data: every item of the inventory of 10_state.md rule R17, the three
places where a model observes the block (00_scope.md rule R9), and the inputs that reach it from the host, the channel, the
symbol generator's own scheduling, the other instances and the reset input (R8). -/

namespace Sys2Proof.Machine

/-- The status codes of 60_exceptions.md rule R134; codes 0x07 to 0xFF are never produced and have no constructor. -/
inductive Status where
  | ok
  | invalidArgument
  | resourceExhausted
  | transmitRejected
  | timeout
  | busy
  | illegalCommand
  deriving DecidableEq, Repr

/-- One response on the host port: `{STATUS, DATA}` (R65). -/
structure Response where
  status : Status
  data : Word32
  deriving DecidableEq, Repr

/-- The hidden lifecycle variable `LC` (R18). -/
inductive Lifecycle where
  | uninit
  | live
  | freed
  deriving DecidableEq, Repr

/-- The values that ORDER can hold (R21); value 3 is never held and has no constructor. -/
inductive ChannelOrder where
  | rgb
  | grb
  | brg
  deriving DecidableEq, Repr

/-- The values that CHAN can hold (R27); value 3 is never held and has no constructor. -/
inductive ChannelHold where
  | none
  | configured
  | enabled
  deriving DecidableEq, Repr

/-- The requests of the channel port (R76). The timeout is `none` for INF. -/
inductive ChannelRequest where
  | configure (pin : Byte) (resolutionHz : Nat) (bufferDepth : Nat)
  | enable
  | disable
  | release
  | transmit (loopCount : Nat)
  | waitAllDone (timeout : Option Nat)
  deriving DecidableEq, Repr

/-- The answers of the channel port (R76). -/
inductive ChannelAnswer where
  | ok
  | error
  | ack
  | done
  | timeout
  deriving DecidableEq, Repr

/-- What passes on the channel port, as a model observes it (R9). -/
inductive PortEvent where
  | request (r : ChannelRequest)
  | answer (a : ChannelAnswer)
  deriving DecidableEq, Repr

/-- The configuration group: BRIGHTNESS, GAMMA_EN, GAMMA_BUILT (R22, R23, R24, R38). -/
structure ConfigGroup where
  brightness : Byte
  gammaEn : Bool
  gammaBuilt : Bool
  deriving DecidableEq, Repr

/-- What something outside this instance does to the one shared copy of the group in `SHARED` mode (R38, R151, R159):
another instance's SETBRT (or INIT, which writes 255), its SETGAMMA, its pipeline evaluation, or a reset of the system. -/
inductive GroupWrite where
  | brightness (bri : Byte)
  | gammaEnable (en : Bool)
  | gammaUse
  | systemReset
  deriving DecidableEq, Repr

/-- One record of TXQ (R34): the pixel count `L` at submission and the symbol pointer `k`; with it the bytes `V[X, j]` that
the generator has read for this transmission, newest first (R86), and the symbols handed over so far, first one first, which
are this transmission's part of the observed symbol stream (R9). -/
structure Tx where
  len : Word24
  k : Nat
  reads : List (Nat × Byte)
  sent : List SymbolWord
  deriving DecidableEq, Repr

/-- The symbol stream of a transmission that has left TXQ (R9): by its completion event, or cut by FREE or a reset. -/
structure EndedStream where
  len : Word24
  symbols : List SymbolWord
  completed : Bool
  deriving DecidableEq, Repr

/-- Where the command engine stands (R12, R92): idle, or in one command, waiting for the answer of the request it names or in
the latch wait. The operands an unfinished INIT still needs stand in its positions. -/
inductive Engine where
  | idle
  /-- INIT waits on CH_CONFIGURE (R98). -/
  | initConfigure (length : Word24) (order : Byte) (pin : Byte)
  /-- INIT waits on CH_ENABLE (R98). -/
  | initEnable (length : Word24) (order : Byte) (pin : Byte)
  /-- FREE waits on CH_WAIT_ALL_DONE(INF) (R99). -/
  | freeWait
  /-- FREE waits on CH_DISABLE (R99). -/
  | freeDisable
  /-- FREE waits on CH_RELEASE (R99). -/
  | freeRelease
  /-- REFRESHA waits on CH_TRANSMIT (R101). -/
  | asyncTransmit
  /-- A blocking refresh waits on CH_TRANSMIT (R100). -/
  | blockTransmit
  /-- A blocking refresh waits on CH_WAIT_ALL_DONE(REFRESH_TIMEOUT) (R100). -/
  | blockWait
  /-- A blocking refresh is in its latch wait (R100). -/
  | blockLatch
  deriving DecidableEq, Repr

/-- The pixel buffer's bytes that differ from what an unlisted address reads as, by rising address. Every contents of the buffer
is such a list. -/
abbrev Mem := List Host.Cell

/-- What can reach the block beside a command word: the channel's answers and its two asynchronous inputs (R76, R142), an early
read by the symbol generator (R8 agent 3, R86), the passing of ticks (R35), a write of the shared group by something outside
this instance (R38), and the reset input (R151). -/
inductive Event where
  | answer (a : ChannelAnswer)
  | chDone
  | symPull
  /-- The generator reads byte `byte` for the record at position `record` of TXQ before its first symbol is pulled. -/
  | genRead (record : Nat) (byte : Nat)
  /-- `n` ticks of 100 ns pass. -/
  | ticks (n : Nat)
  | groupWrite (w : GroupWrite)
  /-- The reset input. The contents of the buffer after it are unspecified (R32, R153): they are drawn with it. -/
  | reset (contents : Mem)
  deriving DecidableEq, Repr

/-- One input: a command word that the host presents, or an event. -/
inductive Input where
  | command (w : CmdWord)
  | event (e : Event)
  deriving DecidableEq, Repr

/-- The state of one block instance. -/
structure State where
  /-- The implementation parameters (R7); no step changes them. TIMING0, TIMING1 and CAPS are read from them. -/
  cfg : Config
  /-- `LC` (R18); STATE is read from it and INFLIGHT (R19). -/
  lc : Lifecycle
  /-- LENGTH (R20). -/
  length : Word24
  /-- ORDER (R21). -/
  order : ChannelOrder
  /-- BRIGHTNESS, GAMMA_EN and GAMMA_BUILT: this instance's copy, or the one shared copy (R38). -/
  group : ConfigGroup
  /-- INFLIGHT (R25). -/
  inflight : BitVec 16
  /-- PIN (R26). -/
  pin : Byte
  /-- CHAN (R27). -/
  chan : ChannelHold
  /-- BUF_ALLOC (R33). -/
  bufAlloc : Bool
  /-- Buf (R32). -/
  buf : Mem
  /-- TXQ, oldest first (R34). -/
  txq : List Tx
  /-- The latch timer (R35): `none` is idle, `some n` has n more ticks to wait. -/
  latchTimer : Option Nat
  /-- The command engine's position; the command-port busy bit is 1 exactly when it is not idle (R36). -/
  engine : Engine
  /-- Observed: the responses sent, newest first (R9). -/
  responses : List Response
  /-- Observed: the channel port's requests and answers, newest first (R9). -/
  chanTrace : List PortEvent
  /-- Observed: the streams of the transmissions that have left TXQ, newest first (R9). -/
  streams : List EndedStream
  /-- The model's own: the inputs to come, in the order in which they arrive. -/
  inbox : List Input
  deriving DecidableEq, Repr

/-- The faults of the machine. -/
inductive Fault where
  /-- Raised by `withBuffer` (every access to the pixel buffer by a command or by the symbol generator) when a byte is to be
  accessed while BUF_ALLOC = 0 or at an address at or above 3*MAX_PIXELS, where the block has no byte (R32, R41). Safe: the
  model stops where the spec gives the access no meaning. In a state that meets the invariants of R40 it is never raised. -/
  | bufferByteAbsent
  deriving DecidableEq, Repr

/-- The refusals of the machine. The block refuses nothing (R133); all but the first say that an agent OUTSIDE the block took a
step its contract forbids, for which "the model has no step" (R86, R93, R95). They are safe: the run ends there. -/
inductive Refusal where
  /-- Answered by an arm of `exec` that has no meaning yet; no arm does. Safe. -/
  | notModelled (mnemonic : String)
  /-- `serveAnswer`: the channel answers when no request is outstanding (R76, R93). Safe. -/
  | answerWithoutRequest
  /-- `serveAnswer`: an answer the contract does not allow to the outstanding request: one that R76 does not list, DONE with a
  transmission not completed, TIMEOUT with the timeout INF (R93 items 1, 2, 3, 6). Safe. -/
  | answerOutsideContract
  /-- `serveDone`: a CH_DONE with TXQ empty (R95, R142, R93 item 5). Safe. -/
  | doneWithNothingInFlight
  /-- `serveDone`: a CH_DONE before the oldest transmission's RESET symbol was pulled (R93 item 5). Safe. -/
  | doneBeforeResetSymbol
  /-- `servePull`: a SYM_PULL with no record to serve (R86, R142). Safe. -/
  | pullWithNothingToServe
  /-- `serveDone`, `servePull`: an event of the channel after CH_DISABLE (R93 item 7). Safe. -/
  | channelEventWhileDisabled
  /-- `serveGenRead`: the symbol generator has no such byte to read: no such record or byte, or the byte is read already or its
  window has closed (R52, R86). Safe. -/
  | noSuchGeneratorRead
  deriving DecidableEq, Repr

/-- The three outcomes of a step of this machine. -/
abbrev StepResult := Host.Outcome State Fault Refusal

/-- The configuration group at reset (R17, R22, R23, R24). -/
def ConfigGroup.reset : ConfigGroup where
  brightness := 255
  gammaEn := false
  gammaBuilt := false

/-- The state right after a reset with the parameters `cfg` (R17, R151): every item at its reset value, nothing observed yet and
no input to come. The buffer's contents are unspecified there and any value (R32, R153): they are a draw, the argument
`contents`. -/
def State.resetWith (cfg : Config) (contents : Mem) : State where
  cfg := cfg
  lc := .uninit
  length := 0
  order := .grb
  group := .reset
  inflight := 0
  pin := 0
  chan := .none
  bufAlloc := false
  buf := contents
  txq := []
  latchTimer := none
  engine := .idle
  responses := []
  chanTrace := []
  streams := []
  inbox := []

/-- The machine right after reset, with the default parameters (R7, R151, R152). DESIGN CHOICE (log 2): of the draws of the
buffer's contents it has the one that lists no byte. -/
def State.reset : State := State.resetWith Config.default []

end Sys2Proof.Machine
end

