-- ==== Sys2Proof/Machine/Operands.lean ====
section
/-! DEFINITION. The forms in which operands and results cross the host port: the three wire bytes of a pixel and their packing
RAW24 (20_memory.md rules R42, R45), INIT's order operand (R98), and the codes of the response (30_encoding.md rule R65). -/

namespace Sys2Proof.Machine

/-- The three bytes of a pixel in wire order, the byte at the lowest address first (R42). -/
structure WirePixel where
  b0 : Byte
  b1 : Byte
  b2 : Byte
  deriving DecidableEq, Repr

/-- The bytes of a pixel in address order (R42). -/
def wireBytes (p : WirePixel) : List Byte := [p.b0, p.b1, p.b2]

/-- RAW24: byte `3i` in bits 23:16, byte `3i+1` in 15:8, byte `3i+2` in 7:0 (R45). -/
def unpackRaw24 (v : Word24) : WirePixel where
  b0 := v.extractLsb' 16 8
  b1 := v.extractLsb' 8 8
  b2 := v.extractLsb' 0 8

/-- `{Buf[3i], Buf[3i+1], Buf[3i+2]}` (R45). -/
def packRaw24 (p : WirePixel) : Word24 := p.b0 ++ p.b1 ++ p.b2

/-- The channel order that INIT takes from its operand: 0 RGB, 1 GRB, 2 BRG, and every other value GRB (R21, R98). -/
def orderOfOperand (v : Byte) : ChannelOrder :=
  if v = 0 then .rgb else if v = 2 then .brg else .grb

/-- What ORDER reads as (R21). -/
def orderCode : ChannelOrder → BitVec 2
  | .rgb => 0
  | .grb => 1
  | .brg => 2

/-- What CHAN reads as (R27). -/
def chanCode : ChannelHold → BitVec 2
  | .none => 0
  | .configured => 1
  | .enabled => 2

/-- The STATUS field of a response (R134). -/
def statusCode : Status → Byte
  | .ok => 0x00
  | .invalidArgument => 0x01
  | .resourceExhausted => 0x02
  | .transmitRejected => 0x03
  | .timeout => 0x04
  | .busy => 0x05
  | .illegalCommand => 0x06

/-- The 40-bit response `{STATUS, DATA}` (R61, R65). -/
def responseWord (r : Response) : BitVec 40 := statusCode r.status ++ r.data

end Sys2Proof.Machine
end

