-- ==== Sys2Proof/Machine/Colour.lean ====
section
/-! DEFINITION. The pure colour functions and the pipeline of 42_color_pipeline.md sections 1 to 5: RGBW composition, the gamma
LUT, the brightness multiplier, the channel permutation and their fixed order. -/

namespace Sys2Proof.Machine

/-! ### RGBW composition (R108, R109) -/

/-- `min` of two lanes. -/
def minByte (a b : Byte) : Byte := if a.toNat ≤ b.toNat then a else b

/-- `rgbToRgbw`: minimum-channel extraction; the remaining channels are reduced by `w` (R108). -/
def rgbToRgbw (c : Color) : ColorW :=
  let w := minByte c.r (minByte c.g c.b)
  { r := c.r - w, g := c.g - w, b := c.b - w, w := w }

/-- `min(255, a + b)` on the exact sum (R109, R121). -/
def satAdd (a b : Byte) : Byte := BitVec.ofNat 8 (min 255 (a.toNat + b.toNat))

/-- `rgbwToRgb`: additive recombination, each channel saturating on its own (R109). -/
def rgbwToRgb (c : ColorW) : Color where
  r := satAdd c.r c.w
  g := satAdd c.g c.w
  b := satAdd c.b c.w

/-! ### The gamma LUT (R111, R112) -/

/-- Row 0x00 of the table of rule R112. -/
def gammaRow0 : List Nat := [0, 0, 0, 0, 0, 0, 0, 0, 0, 0, 0, 0, 0, 0, 0, 1]

/-- Row 0x10 of the table of rule R112. -/
def gammaRow1 : List Nat := [1, 1, 1, 1, 1, 1, 1, 1, 1, 2, 2, 2, 2, 2, 2, 2]

/-- Row 0x20 of the table of rule R112. -/
def gammaRow2 : List Nat := [3, 3, 3, 3, 3, 4, 4, 4, 4, 5, 5, 5, 5, 6, 6, 6]

/-- Row 0x30 of the table of rule R112. -/
def gammaRow3 : List Nat := [6, 7, 7, 7, 8, 8, 8, 9, 9, 9, 10, 10, 11, 11, 11, 12]

/-- Row 0x40 of the table of rule R112. -/
def gammaRow4 : List Nat := [12, 13, 13, 13, 14, 14, 15, 15, 16, 16, 17, 17, 18, 18, 19, 19]

/-- Row 0x50 of the table of rule R112. -/
def gammaRow5 : List Nat := [20, 20, 21, 22, 22, 23, 23, 24, 25, 25, 26, 26, 27, 28, 28, 29]

/-- Row 0x60 of the table of rule R112. -/
def gammaRow6 : List Nat := [30, 30, 31, 32, 33, 33, 34, 35, 35, 36, 37, 38, 39, 39, 40, 41]

/-- Row 0x70 of the table of rule R112. -/
def gammaRow7 : List Nat := [42, 43, 43, 44, 45, 46, 47, 48, 49, 49, 50, 51, 52, 53, 54, 55]

/-- Row 0x80 of the table of rule R112. -/
def gammaRow8 : List Nat := [56, 57, 58, 59, 60, 61, 62, 63, 64, 65, 66, 67, 68, 69, 70, 71]

/-- Row 0x90 of the table of rule R112. -/
def gammaRow9 : List Nat := [73, 74, 75, 76, 77, 78, 79, 81, 82, 83, 84, 85, 87, 88, 89, 90]

/-- Row 0xa0 of the table of rule R112. -/
def gammaRowA : List Nat := [91, 93, 94, 95, 97, 98, 99, 100, 102, 103, 105, 106, 107, 109, 110, 111]

/-- Row 0xb0 of the table of rule R112. -/
def gammaRowB : List Nat := [113, 114, 116, 117, 119, 120, 121, 123, 124, 126, 127, 129, 130, 132, 133, 135]

/-- Row 0xc0 of the table of rule R112. -/
def gammaRowC : List Nat := [137, 138, 140, 141, 143, 145, 146, 148, 149, 151, 153, 154, 156, 158, 159, 161]

/-- Row 0xd0 of the table of rule R112. -/
def gammaRowD : List Nat := [163, 165, 166, 168, 170, 172, 173, 175, 177, 179, 181, 182, 184, 186, 188, 190]

/-- Row 0xe0 of the table of rule R112. -/
def gammaRowE : List Nat := [192, 194, 196, 197, 199, 201, 203, 205, 207, 209, 211, 213, 215, 217, 219, 221]

/-- Row 0xf0 of the table of rule R112. -/
def gammaRowF : List Nat := [223, 225, 227, 229, 231, 234, 236, 238, 240, 242, 244, 246, 248, 251, 253, 255]

/-- The gamma LUT of rule R112, entry 0 first. -/
def gammaTable : List Nat :=
  gammaRow0 ++ gammaRow1 ++ gammaRow2 ++ gammaRow3 ++ gammaRow4 ++ gammaRow5 ++ gammaRow6 ++ gammaRow7 ++
    (gammaRow8 ++ gammaRow9 ++ gammaRowA ++ gammaRowB ++ gammaRowC ++ gammaRowD ++ gammaRowE ++ gammaRowF)

/-- `LUT[c]` (R112). -/
def gammaLut (c : Byte) : Byte := BitVec.ofNat 8 (gammaTable.getD c.toNat 0)

/-- The gamma step of one lane (R113). -/
def gammaStep (en : Bool) (c : Byte) : Byte := if en then gammaLut c else c

/-! ### The brightness multiplier (R115, R116) -/

/-- The brightness step of one lane: the bypass at 255, else the exact floor division by 255 (R115). -/
def brightStep (bri c : Byte) : Byte :=
  if bri = 255 then c else BitVec.ofNat 8 (c.toNat * bri.toNat / 255)

/-! ### The channel permutation and the pipeline (R117, R118) -/

/-- The lanes in wire order (R117). -/
def permute (o : ChannelOrder) (c : Color) : WirePixel :=
  match o with
  | .rgb => { b0 := c.r, b1 := c.g, b2 := c.b }
  | .grb => { b0 := c.g, b1 := c.r, b2 := c.b }
  | .brg => { b0 := c.b, b1 := c.r, b2 := c.g }

/-- One lane of the pipeline: gamma, then brightness (R118, R119). -/
def laneStep (g : ConfigGroup) (c : Byte) : Byte := brightStep g.brightness (gammaStep g.gammaEn c)

/-- The pipeline `P`: the configuration group is read once and the order is read once (R118). -/
def pipeline (g : ConfigGroup) (o : ChannelOrder) (c : Color) : WirePixel :=
  permute o { r := laneStep g c.r, g := laneStep g c.g, b := laneStep g c.b }

/-- What a pipeline evaluation does to the group: with GAMMA_EN = 1 it sets GAMMA_BUILT (R114). -/
def groupAfterUse (g : ConfigGroup) : ConfigGroup :=
  if g.gammaEn then { g with gammaBuilt := true } else g

/-- What a write of the shared group by something outside this instance does to it (R38, R151, R159). -/
def applyGroupWrite (g : ConfigGroup) : GroupWrite → ConfigGroup
  | .brightness bri => { g with brightness := bri }
  | .gammaEnable en => { g with gammaEn := en }
  | .gammaUse => groupAfterUse g
  | .systemReset => ConfigGroup.reset

end Sys2Proof.Machine
end

