-- ==== Sys2Proof/Machine/Encoder.lean ====
section
/-! DEFINITION. The protocol encoder's pure part: the three symbol words (30_encoding.md rules R74, R75), `encode` and its indexing
(40_protocol_encoder.md rules R79 to R83), and the waveform and the durations that follow from a symbol sequence (R87, R88). -/

namespace Sys2Proof.Machine

/-! ### The symbol words (R74, R75) -/

/-- A symbol word: level `l0` for `d0` ticks, then level `l1` for `d1` ticks (R74). -/
def symbolWord (l0 : Bool) (d0 : Nat) (l1 : Bool) (d1 : Nat) : SymbolWord :=
  BitVec.ofBool l1 ++ BitVec.ofNat 15 d1 ++ BitVec.ofBool l0 ++ BitVec.ofNat 15 d0

/-- DATA0: high for T0H ticks, then low for T0L ticks (R75, R79). -/
def data0 (cfg : Config) : SymbolWord := symbolWord true Config.t0h false cfg.t0l

/-- DATA1: high for T1H ticks, then low for T1L ticks (R75, R79). -/
def data1 (cfg : Config) : SymbolWord := symbolWord true Config.t1h false cfg.t1l

/-- RESET: high for 0 ticks, then low for TRST ticks (R75, R80). -/
def resetSymbol (cfg : Config) : SymbolWord := symbolWord false 0 false cfg.trst

/-- The data symbol of one bit (R79). -/
def dataSymbol (cfg : Config) (bit : Bool) : SymbolWord := if bit then data1 cfg else data0 cfg

/-! ### encode (R81, R82) -/

/-- The eight data symbols of one byte, bit 7 first (R81). -/
def encodeByte (cfg : Config) (v : Byte) : List SymbolWord :=
  (List.range 8).map (fun t => dataSymbol cfg (v.getLsbD (7 - t)))

/-- `encode(bytes)`: the data symbols of the bytes in order, then RESET (R82). -/
def encode (cfg : Config) (bytes : List Byte) : List SymbolWord :=
  bytes.flatMap (encodeByte cfg) ++ [resetSymbol cfg]

/-- The number of symbols of a transmission of `l` pixels, `24*L + 1` (R83). -/
def frameSymbols (l : Word24) : Nat := 24 * l.toNat + 1

/-! ### The wire (R87, R88) -/

/-- The two phases of a symbol, each a level and its duration in ticks (R74). -/
def symbolPhases (s : SymbolWord) : List (Bool × Nat) :=
  [(s.getLsbD 15, (s.extractLsb' 0 15).toNat), (s.getLsbD 31, (s.extractLsb' 16 15).toNat)]

/-- The waveform of a symbol sequence: its phases in order, with no gap between symbols (R87). -/
def waveform (symbols : List SymbolWord) : List (Bool × Nat) := symbols.flatMap symbolPhases

/-- The level `t` ticks after the start of a waveform; the line is idle low after its end (R87). -/
def levelAfter : List (Bool × Nat) → Nat → Bool
  | [], _ => false
  | (level, d) :: rest, t => if t < d then level else levelAfter rest (t - d)

/-- The level of the line at tick `t`, counted from the start of the first symbol; before it and after the last symbol the line
is idle low (R87). -/
def lineLevel (w : List (Bool × Nat)) (t : Int) : Bool := if t < 0 then false else levelAfter w t.toNat

/-- How long a waveform lasts, in ticks (R88). -/
def waveformTicks (w : List (Bool × Nat)) : Nat := (w.map Prod.snd).sum

/-- The number of one-bits in a byte. -/
def oneBits (v : Byte) : Nat := (List.range 8).countP (fun t => v.getLsbD t)

end Sys2Proof.Machine
end

