-- ==== Sys2Proof/Machine/Flags.lean ====
section
/-! DEFINITION. The flags and registers that are read from other state: the command-port busy bit and BUSY (10_state.md rules
R36, R39), STATE (R19), the read-only constants (R28, R29, R30), and READREG's register map (R17, R31). The block has no
condition codes (R39). -/

namespace Sys2Proof.Machine

/-- The command-port busy bit: 1 from the acceptance of a command until its response (R36). -/
def portBusy (s : State) : Bool := s.engine != .idle

/-- BUSY = (INFLIGHT > 0) (R39). -/
def busyFlag (s : State) : Bool := s.inflight != 0

/-- What STATE reads as (R19). -/
def stateCode (s : State) : BitVec 2 :=
  match s.lc with
  | .uninit => 0
  | .live => if busyFlag s then 2 else 1
  | .freed => 3

/-- TIMING0 = `{T1L, T1H, T0L, T0H}`, eight bits each (R28). -/
def timing0 (cfg : Config) : Word32 :=
  BitVec.ofNat 8 cfg.t1l ++ BitVec.ofNat 8 Config.t1h ++ BitVec.ofNat 8 cfg.t0l ++ BitVec.ofNat 8 Config.t0h

/-- TIMING1 = `zext_32(TRST)` (R29). -/
def timing1 (cfg : Config) : Word32 := BitVec.ofNat 32 cfg.trst

/-- CAPS = `zext_32(MAX_PIXELS)` (R30). -/
def caps (cfg : Config) : Word32 := BitVec.ofNat 32 cfg.maxPixels

/-- The register with this number, zero-extended to 32 bits, for 0x00 to 0x0B; `none` for a reserved number (R17, R31, R105). -/
def readRegister (regnum : Word24) (s : State) : Option Word32 :=
  match regnum.toNat with
  | 0x00 => some ((stateCode s).setWidth 32)
  | 0x01 => some (s.length.setWidth 32)
  | 0x02 => some ((orderCode s.order).setWidth 32)
  | 0x03 => some (s.group.brightness.setWidth 32)
  | 0x04 => some ((BitVec.ofBool s.group.gammaEn).setWidth 32)
  | 0x05 => some ((BitVec.ofBool s.group.gammaBuilt).setWidth 32)
  | 0x06 => some (s.inflight.setWidth 32)
  | 0x07 => some (s.pin.setWidth 32)
  | 0x08 => some ((chanCode s.chan).setWidth 32)
  | 0x09 => some (timing0 s.cfg)
  | 0x0A => some (timing1 s.cfg)
  | 0x0B => some (caps s.cfg)
  | _ => none

end Sys2Proof.Machine
end

