-- ==== Sys2Proof/Machine/Ops.lean ====
section
/-! DEFINITION. The shared operations: the pixel buffer (20_memory.md), responses and errors (60_exceptions.md rules R133, R134),
`submit()` and `guard()` (41_lifecycle.md rules R94, R96), the serving of every event (R95, 40_protocol_encoder.md rule R86,
R142), the channel's answers command by command (R92, R98 to R101), and the run of the command engine through one command.
The block has no trap and no trap return (R139, R140): what an error does is `raise`, and nothing else. -/

namespace Sys2Proof.Machine

/-! ### The pixel buffer (R32, R41 to R47) -/

/-- What an address that the buffer does not list reads as. It is how a buffer is written down and limits no contents: a byte of
any other value is listed (log 2). -/
def unlistedByte (_a : Nat) : Byte := 0

/-- `Buf[a]` (R12). -/
def memByte : Mem → Nat → Byte
  | [], a => unlistedByte a
  | (b, v) :: rest, a => if b = a then v else memByte rest a

/-- `Buf[a] <- v`, keeping the canonical form. -/
def memSet : Mem → Nat → Byte → Mem
  | [], a, v => if v = unlistedByte a then [] else [(a, v)]
  | (b, w) :: rest, a, v =>
    if a < b then
      if v = unlistedByte a then (b, w) :: rest else (a, v) :: (b, w) :: rest
    else if a = b then
      if v = unlistedByte a then rest else (a, v) :: rest
    else (b, w) :: memSet rest a v

/-- `MemWrite` of a byte sequence: byte `k` to `Buf[a + k]` (R12). -/
def memSetList : Mem → Nat → List Byte → Mem
  | m, _, [] => m
  | m, a, v :: vs => memSetList (memSet m a v) (a + 1) vs

/-- `MemRead(a, n)`: the bytes `Buf[a]` to `Buf[a + n - 1]` (R12). -/
def memGet (m : Mem) (a n : Nat) : List Byte := (List.range n).map (fun k => memByte m (a + k))

/-- The canonical form: addresses strictly rising, and no entry equal to what an unlisted address reads as. -/
def Memory.wf : Mem → Bool
  | [] => true
  | (a, v) :: rest => v != unlistedByte a && rest.all (fun c => a < c.1) && Memory.wf rest

/-- The three bytes of pixel `i`, at `3*i` (R42). -/
def pixelAt (m : Mem) (i : Nat) : WirePixel where
  b0 := memByte m (3 * i)
  b1 := memByte m (3 * i + 1)
  b2 := memByte m (3 * i + 2)

/-- Writing the three bytes of pixel `i`, at `3*i` (R42). -/
def setPixel (m : Mem) (i : Nat) (p : WirePixel) : Mem := memSetList m (3 * i) (wireBytes p)

/-- Writing the same three bytes to the pixels below `n` (R124). -/
def fillPixels (p : WirePixel) : Nat → Mem → Mem
  | 0, m => m
  | n + 1, m => setPixel (fillPixels p n m) n p

/-- INIT's zero-fill of the bytes below `n` (R98). -/
def zeroFill : Nat → Mem → Mem
  | 0, m => m
  | n + 1, m => memSet (zeroFill n m) n 0

/-- The buffer that a reset draws (R32, R153): any contents of the `n` bytes that exist, given as a list of bytes by address in
any order; of two values for one address the first counts, and an address that does not exist is passed over. -/
def drawnBuffer (n : Nat) : List Host.Cell → Mem
  | [] => []
  | (a, v) :: rest => if a < n then memSet (drawnBuffer n rest) a v else drawnBuffer n rest

/-- An access to the buffer's bytes below `n`: they are reachable while BUF_ALLOC = 1 and exist below 3*MAX_PIXELS (R32, R41). -/
def withBuffer (n : Nat) (s : State) (r : StepResult) : StepResult :=
  if s.bufAlloc && decide (n ≤ 3 * s.cfg.maxPixels) then r else .fault .bufferByteAbsent

/-! ### Responses, errors, requests -/

/-- `respond(status, data)`: ends the command and sends its response (R12, R62, R133). -/
def respond (status : Status) (data : Word32) (s : State) : State :=
  { s with responses := ⟨status, data⟩ :: s.responses, engine := .idle }

/-- `raise S` is `respond(S, 0)` (R12): the whole of what an error does (R133, R139). -/
def raise (status : Status) (s : State) : StepResult := .next (respond status 0 s)

/-- The command engine sends a request and waits in `position` for its answer (R92). -/
def sendRequest (r : ChannelRequest) (position : Engine) (s : State) : State :=
  { s with chanTrace := .request r :: s.chanTrace, engine := position }

/-- Whether `guard()` raises BUSY (R96). -/
def guardRefuses (s : State) : Bool := s.cfg.inflightGuard && busyFlag s

/-! ### Transmissions (R34, R94, R95) -/

/-- The record that an accepted transmission appends to TXQ (R94). -/
def newTx (l : Word24) : Tx where
  len := l
  k := 0
  reads := []
  sent := []

/-- `submit()` up to its request: refused at 65535 with no request, else CH_TRANSMIT is sent (R94). -/
def submit (position : Engine) (s : State) : State :=
  if s.inflight = 65535 then respond .transmitRejected 0 s
  else sendRequest (.transmit Config.loopCount) position s

/-- `submit()` after the answer OK: TXQ and INFLIGHT (R94). -/
def acceptTransmission (s : State) : State :=
  { s with txq := s.txq ++ [newTx s.length], inflight := s.inflight + 1 }

/-- The observed stream of a record that leaves TXQ (R9). -/
def endStream (completed : Bool) (x : Tx) : EndedStream where
  len := x.len
  symbols := x.sent
  completed := completed

/-- The observed streams of the records that FREE or a reset takes out of TXQ, the youngest first. -/
def cutStreams (txq : List Tx) : List EndedStream := (txq.map (endStream false)).reverse

/-! ### The symbol generator (R34, R52, R86) -/

/-- `V[X, j]`: the byte the generator has read for byte `j` of this record, or the byte it reads now (R52, R86). -/
def txByte (m : Mem) (x : Tx) (j : Nat) : Byte :=
  match x.reads.lookup j with
  | some v => v
  | none => memByte m j

/-- The record's reads once byte `j` has been read: each byte is read once (R52, R86). -/
def readsWith (m : Mem) (x : Tx) (j : Nat) : List (Nat × Byte) :=
  match x.reads.lookup j with
  | some _ => x.reads
  | none => (j, memByte m j) :: x.reads

/-- Whether some symbol of the record is not handed over yet (R34). -/
def txOpen (x : Tx) : Bool := decide (x.k < frameSymbols x.len)

/-- Symbol `k` of the record: bit `7 - (k mod 8)` of byte `k / 8`, or RESET after the last byte (R83, R86). -/
def nextSymbol (cfg : Config) (m : Mem) (x : Tx) : SymbolWord :=
  if x.k < 24 * x.len.toNat then dataSymbol cfg ((txByte m x (x.k / 8)).getLsbD (7 - x.k % 8))
  else resetSymbol cfg

/-- The record after a pull that it serves (R86). -/
def pullTx (cfg : Config) (m : Mem) (x : Tx) : Tx :=
  { x with
    k := x.k + 1
    reads := if x.k < 24 * x.len.toNat then readsWith m x (x.k / 8) else x.reads
    sent := x.sent ++ [nextSymbol cfg m x] }

/-- A pull is served by the oldest record that is open (R34, R86). -/
def pullFirst (cfg : Config) (m : Mem) : List Tx → List Tx
  | [] => []
  | x :: rest => if txOpen x then pullTx cfg m x :: rest else x :: pullFirst cfg m rest

/-! ### Serving the events -/

/-- `SYM_PULL` (R86, R142): the contract forbids it when nothing is to serve (R93 item 4) and after CH_DISABLE (item 7). -/
def servePull (s : State) : StepResult :=
  match s.txq.find? txOpen with
  | none => .refused .pullWithNothingToServe
  | some x =>
    if s.chan = .enabled then
      withBuffer (3 * x.len.toNat) s (.next { s with txq := pullFirst s.cfg s.buf s.txq })
    else .refused .channelEventWhileDisabled

/-- `CH_DONE` (R95): removes the head record. The contract forbids it when nothing is in flight (R95, R142), before the head's
RESET symbol was pulled (R93 item 5), and after CH_DISABLE (item 7). -/
def serveDone (s : State) : StepResult :=
  match s.txq with
  | [] => .refused .doneWithNothingInFlight
  | x :: rest =>
    if s.chan = .enabled then
      if txOpen x then .refused .doneBeforeResetSymbol
      else .next { s with
        txq := rest
        inflight := s.inflight - 1
        streams := endStream true x :: s.streams }
    else .refused .channelEventWhileDisabled

/-- The generator reads byte `j` of the record at position `n` of TXQ early: after its submission and before the pull of symbol
`8*j`, once (R52, R86). -/
def serveGenRead (n j : Nat) (s : State) : StepResult :=
  match s.txq[n]? with
  | none => .refused .noSuchGeneratorRead
  | some x =>
    if j < 3 * x.len.toNat ∧ x.k ≤ 8 * j ∧ x.reads.lookup j = none then
      withBuffer (3 * x.len.toNat) s
        (.next { s with txq := s.txq.set n { x with reads := (j, memByte s.buf j) :: x.reads } })
    else .refused .noSuchGeneratorRead

/-- `n` ticks pass (R35, R100): a running latch timer counts them, and when it has waited out its time the blocking refresh
answers OK. The wait lasts at least TRST ticks and may last longer. -/
def serveTicks (n : Nat) (s : State) : StepResult :=
  match s.latchTimer with
  | none => .next s
  | some r =>
    if n < r then .next { s with latchTimer := some (r - n) }
    else .next (respond .ok 0 { s with latchTimer := none })

/-- A write of the shared group from outside this instance; with `PER_INSTANCE` nothing outside reaches the group (R38, R60). -/
def serveGroupWrite (w : GroupWrite) (s : State) : StepResult :=
  match s.cfg.sharing with
  | .shared => .next { s with group := applyGroupWrite s.group w }
  | .perInstance => .next s

/-- The reset input (R151): every item at its reset value, a command in progress abandoned with no response, no channel request.
The buffer's contents after it are the draw `contents` (R153).
In `SHARED` mode the group is reset when the system resets (`GroupWrite.systemReset`), not with one block. What was observed
and what is still to come are not the block's state and stay. -/
def afterReset (contents : Mem) (s : State) : State :=
  { State.resetWith s.cfg (drawnBuffer (3 * s.cfg.maxPixels) contents) with
    group := if s.cfg.sharing = .shared then s.group else .reset
    responses := s.responses
    chanTrace := s.chanTrace
    streams := cutStreams s.txq ++ s.streams
    inbox := s.inbox }

/-! ### The channel's answers (R92, R93) -/

/-- INIT after its last answer (R98). -/
def finishInit (length : Word24) (order pin : Byte) (s : State) : State :=
  respond .ok 0 { s with
    chan := .enabled
    length := length
    order := orderOfOperand order
    pin := pin
    group := { s.group with brightness := 255 }
    lc := .live }

/-- FREE after its last answer (R99). -/
def finishFree (s : State) : State :=
  respond .ok 0 { s with
    chan := .none
    txq := []
    streams := cutStreams s.txq ++ s.streams
    inflight := 0
    bufAlloc := false
    lc := .freed }

/-- INIT's `ch.configure` (R98): OK goes on to CH_ENABLE; ERROR unwinds. -/
def onConfigure (length : Word24) (order pin : Byte) (a : ChannelAnswer) (s : State) : StepResult :=
  match a with
  | .ok => .next (sendRequest .enable (.initEnable length order pin) { s with chan := .configured })
  | .error => raise .resourceExhausted { s with bufAlloc := false }
  | .ack | .done | .timeout => .refused .answerOutsideContract

/-- INIT's `ch.enable` (R98, R93 item 2). -/
def onEnable (length : Word24) (order pin : Byte) (a : ChannelAnswer) (s : State) : StepResult :=
  match a with
  | .ack => .next (finishInit length order pin s)
  | .ok | .error | .done | .timeout => .refused .answerOutsideContract

/-- FREE's `ch.waitAllDone(INF)` (R99): FREE continues after DONE and after ERROR; TIMEOUT cannot come with INF (R93 item 6). -/
def onFreeWait (a : ChannelAnswer) (s : State) : StepResult :=
  match a with
  | .done =>
    if s.txq = [] then .next (sendRequest .disable .freeDisable s) else .refused .answerOutsideContract
  | .error => .next (sendRequest .disable .freeDisable s)
  | .ok | .ack | .timeout => .refused .answerOutsideContract

/-- FREE's `ch.disable` (R99). -/
def onDisable (a : ChannelAnswer) (s : State) : StepResult :=
  match a with
  | .ack => .next (sendRequest .release .freeRelease { s with chan := .configured })
  | .ok | .error | .done | .timeout => .refused .answerOutsideContract

/-- FREE's `ch.release` (R99). -/
def onRelease (a : ChannelAnswer) (s : State) : StepResult :=
  match a with
  | .ack => .next (finishFree s)
  | .ok | .error | .done | .timeout => .refused .answerOutsideContract

/-- REFRESHA's `ch.transmit` (R94, R101). -/
def onAsyncTransmit (a : ChannelAnswer) (s : State) : StepResult :=
  match a with
  | .ok => .next (respond .ok 0 (acceptTransmission s))
  | .error => raise .transmitRejected s
  | .ack | .done | .timeout => .refused .answerOutsideContract

/-- A blocking refresh's `ch.transmit` (R94, R100). -/
def onBlockTransmit (a : ChannelAnswer) (s : State) : StepResult :=
  match a with
  | .ok => .next (sendRequest (.waitAllDone s.cfg.refreshTimeout) .blockWait (acceptTransmission s))
  | .error => raise .transmitRejected s
  | .ack | .done | .timeout => .refused .answerOutsideContract

/-- A blocking refresh's `ch.waitAllDone` (R100): DONE starts the latch wait; TIMEOUT and ERROR end the command and leave the
transmission in flight. DONE needs every CH_DONE delivered and TIMEOUT a finite timeout (R93 item 6). -/
def onBlockWait (a : ChannelAnswer) (s : State) : StepResult :=
  match a with
  | .done =>
    if s.txq = [] then .next { s with latchTimer := some s.cfg.trst, engine := .blockLatch }
    else .refused .answerOutsideContract
  | .timeout =>
    match s.cfg.refreshTimeout with
    | some _ => raise .timeout s
    | none => .refused .answerOutsideContract
  | .error => raise .transmitRejected s
  | .ok | .ack => .refused .answerOutsideContract

/-- The channel answers the outstanding request and the command goes on (R92). -/
def serveAnswer (a : ChannelAnswer) (s : State) : StepResult :=
  let s' := { s with chanTrace := .answer a :: s.chanTrace }
  match s.engine with
  | .initConfigure length order pin => onConfigure length order pin a s'
  | .initEnable length order pin => onEnable length order pin a s'
  | .freeWait => onFreeWait a s'
  | .freeDisable => onDisable a s'
  | .freeRelease => onRelease a s'
  | .asyncTransmit => onAsyncTransmit a s'
  | .blockTransmit => onBlockTransmit a s'
  | .blockWait => onBlockWait a s'
  | .idle | .blockLatch => .refused .answerWithoutRequest

/-- One event is served, between two steps of the command engine (R95, R142, R144). -/
def serveEvent (e : Event) (s : State) : StepResult :=
  match e with
  | .answer a => serveAnswer a s
  | .chDone => serveDone s
  | .symPull => servePull s
  | .genRead n j => serveGenRead n j s
  | .ticks n => serveTicks n s
  | .groupWrite w => serveGroupWrite w s
  | .reset contents => .next (afterReset contents s)

/-- Several events, one after the other. -/
def serveAll : List Event → State → StepResult
  | [], s => .next s
  | e :: es, s =>
    match serveEvent e s with
    | .next s' => serveAll es s'
    | .fault f => .fault f
    | .refused r => .refused r

/-! ### Running one command (R62, R92) -/

/-- The next event to arrive; a command word that the host presents meanwhile is not accepted and keeps its place (R61, R62). -/
def takeEvent : List Input → Option (Event × List Input)
  | [] => none
  | .event e :: rest => some (e, rest)
  | .command w :: rest =>
    match takeEvent rest with
    | none => none
    | some (e, rest') => some (e, .command w :: rest')

/-- While the command engine is not idle, at most `fuel` events are served, in the order in which they arrive. When no event is
left the command waits on (R92, R162). -/
def runEngine : Nat → State → StepResult
  | 0, s => .next s
  | fuel + 1, s =>
    if s.engine = .idle then .next s
    else
      match takeEvent s.inbox with
      | none => .next s
      | some (e, rest) =>
        match serveEvent e { s with inbox := rest } with
        | .next s' => runEngine fuel s'
        | .fault f => .fault f
        | .refused r => .refused r

/-- The command engine runs on until the command has answered or no event is left. -/
def runCommand (s : State) : StepResult := runEngine s.inbox.length s

/-- `blocking_refresh()` (R100), used by REFRESH, FILL, FILLW and CLEAR. -/
def blockingRefresh (s : State) : StepResult := runCommand (submit .blockTransmit s)

end Sys2Proof.Machine
end

