-- ==== Sys2Proof/Machine/Lifecycle.lean ====
section
/-! DEFINITION. The meanings of the lifecycle commands (41_lifecycle.md rules R97 to R105). Each begins after the decode checks;
the order of its checks is the order of 60_exceptions.md rule R137. -/

namespace Sys2Proof.Machine

/-- NOP (R97). -/
def execNop (s : State) : StepResult := .next (respond .ok 0 s)

/-- INIT (R98). -/
def execInit (length : Word24) (order pin : Byte) (s : State) : StepResult :=
  if s.lc ≠ .uninit then raise .invalidArgument s
  else if length = 0 then raise .invalidArgument s
  else if s.cfg.maxPixels < length.toNat then raise .resourceExhausted s
  else
    runCommand (sendRequest (.configure pin Config.resHz s.cfg.chBufferDepth) (.initConfigure length order pin)
      { s with buf := zeroFill (3 * length.toNat) s.buf, bufAlloc := true })

/-- FREE (R99). -/
def execFree (s : State) : StepResult :=
  match s.lc with
  | .freed => .next (respond .ok 0 s)
  | .uninit => .next (respond .ok 0 { s with lc := .freed })
  | .live =>
    if busyFlag s then runCommand (sendRequest (.waitAllDone none) .freeWait s)
    else runCommand (sendRequest .disable .freeDisable s)

/-- REFRESH (R100). -/
def execRefresh (s : State) : StepResult :=
  if s.lc ≠ .live then raise .invalidArgument s else blockingRefresh s

/-- REFRESHA (R101). -/
def execRefresha (s : State) : StepResult :=
  if s.lc ≠ .live then raise .invalidArgument s else runCommand (submit .asyncTransmit s)

/-- ISBUSY (R102). -/
def execIsbusy (s : State) : StepResult :=
  if s.lc ≠ .live then raise .invalidArgument s
  else .next (respond .ok ((BitVec.ofBool (busyFlag s)).setWidth 32) s)

/-- SETRAW (R103). -/
def execSetraw (index raw : Word24) (s : State) : StepResult :=
  if s.lc ≠ .live then raise .invalidArgument s
  else if s.length.toNat ≤ index.toNat then raise .invalidArgument s
  else if guardRefuses s then raise .busy s
  else
    withBuffer (3 * index.toNat + 3) s
      (.next (respond .ok 0 { s with buf := setPixel s.buf index.toNat (unpackRaw24 raw) }))

/-- READPIX (R104). -/
def execReadpix (index : Word24) (s : State) : StepResult :=
  if s.lc ≠ .live then raise .invalidArgument s
  else if s.length.toNat ≤ index.toNat then raise .invalidArgument s
  else
    withBuffer (3 * index.toNat + 3) s
      (.next (respond .ok ((packRaw24 (pixelAt s.buf index.toNat)).setWidth 32) s))

/-- READREG (R105). -/
def execReadreg (regnum : Word24) (s : State) : StepResult :=
  match readRegister regnum s with
  | none => raise .invalidArgument s
  | some v => .next (respond .ok v s)

end Sys2Proof.Machine
end

