-- ==== Sys2Proof/Machine/Pipeline.lean ====
section
/-! DEFINITION. The meanings of the colour-pipeline commands (42_color_pipeline.md rules R122 to R131). -/

namespace Sys2Proof.Machine

/-- The pipeline evaluates one colour for pixel `index`, and its wire bytes are written there (R118, R122). -/
def storePixel (index : Word24) (c : Color) (s : State) : State :=
  { s with
    buf := setPixel s.buf index.toNat (pipeline s.group s.order c)
    group := groupAfterUse s.group }

/-- The pipeline evaluates one colour once, and its wire bytes are written to every pixel (R124). -/
def storeAll (c : Color) (s : State) : State :=
  { s with
    buf := fillPixels (pipeline s.group s.order c) s.length.toNat s.buf
    group := groupAfterUse s.group }

/-- Setting one pixel through the pipeline (R122). -/
def setPixelColor (index : Word24) (c : Color) (s : State) : StepResult :=
  if s.lc ≠ .live then raise .invalidArgument s
  else if s.length.toNat ≤ index.toNat then raise .invalidArgument s
  else if guardRefuses s then raise .busy s
  else withBuffer (3 * index.toNat + 3) s (.next (respond .ok 0 (storePixel index c s)))

/-- Filling through the pipeline, then the blocking refresh (R124). -/
def fillColor (c : Color) (s : State) : StepResult :=
  if s.lc ≠ .live then raise .invalidArgument s
  else if guardRefuses s then raise .busy s
  else withBuffer (3 * s.length.toNat) s (blockingRefresh (storeAll c s))

/-- SETPIX (R122). -/
def execSetpix (index : Word24) (c : Color) (s : State) : StepResult := setPixelColor index c s

/-- SETPIXW (R123): the merge of rule R110 first. -/
def execSetpixw (index : Word24) (c : ColorW) (s : State) : StepResult := setPixelColor index (rgbwToRgb c) s

/-- FILL (R124). -/
def execFill (c : Color) (s : State) : StepResult := fillColor c s

/-- FILLW (R125): the merge of rule R110 first. -/
def execFillw (c : ColorW) (s : State) : StepResult := fillColor (rgbwToRgb c) s

/-- CLEAR (R126): FILL with the zero colour. -/
def execClear (s : State) : StepResult := fillColor { r := 0, g := 0, b := 0 } s

/-- SETBRT (R127). -/
def execSetbrt (bri : Byte) (s : State) : StepResult :=
  .next (respond .ok 0 { s with group := { s.group with brightness := bri } })

/-- SETGAMMA (R128). -/
def execSetgamma (en : Bool) (s : State) : StepResult :=
  .next (respond .ok 0 { s with group := { s.group with gammaEn := en } })

/-- CVTW (R129). -/
def execCvtw (c : Color) (s : State) : StepResult := .next (respond .ok (packWrgb32 (rgbToRgbw c)) s)

/-- CVTRGB (R130). -/
def execCvtrgb (c : ColorW) (s : State) : StepResult :=
  .next (respond .ok ((packRgb24 (rgbwToRgb c)).setWidth 32) s)

/-- LUTRD (R131). -/
def execLutrd (c : Byte) (s : State) : StepResult := .next (respond .ok ((gammaLut c).setWidth 32) s)

end Sys2Proof.Machine
end

