-- ==== Sys2Proof/Machine/Dispatch.lean ====
section
/-! DEFINITION. The dispatch of a decoded command to its meaning, one arm for each constructor of Instr (R67). -/

namespace Sys2Proof.Machine

def exec (i : Instr) (s : State) : Host.Outcome State Fault Refusal :=
  match i with
  -- family 41
  | .nop => Sys2Proof.Machine.execNop s
  | .init length order pin => Sys2Proof.Machine.execInit length order pin s
  | .free => Sys2Proof.Machine.execFree s
  | .refresh => Sys2Proof.Machine.execRefresh s
  | .refresha => Sys2Proof.Machine.execRefresha s
  | .isbusy => Sys2Proof.Machine.execIsbusy s
  | .setraw index raw => Sys2Proof.Machine.execSetraw index raw s
  | .readpix index => Sys2Proof.Machine.execReadpix index s
  | .readreg regnum => Sys2Proof.Machine.execReadreg regnum s
  -- family 42
  | .setpix index c => Sys2Proof.Machine.execSetpix index c s
  | .setpixw index c => Sys2Proof.Machine.execSetpixw index c s
  | .fill c => Sys2Proof.Machine.execFill c s
  | .fillw c => Sys2Proof.Machine.execFillw c s
  | .clear => Sys2Proof.Machine.execClear s
  | .setbrt bri => Sys2Proof.Machine.execSetbrt bri s
  | .setgamma en => Sys2Proof.Machine.execSetgamma en s
  | .cvtw c => Sys2Proof.Machine.execCvtw c s
  | .cvtrgb c => Sys2Proof.Machine.execCvtrgb c s
  | .lutrd c => Sys2Proof.Machine.execLutrd c s

end Sys2Proof.Machine
end

