-- ==== Sys2Proof/Machine/Step.lean ====
section
/-! DEFINITION. One step: the block has no program counter and fetches nothing (10_state.md rule R16); it accepts the next command
word from its host port when it is idle (30_encoding.md rules R61, R62), or serves the next event (R144). -/

namespace Sys2Proof.Machine

/-- One step of the block.
Idle with nothing to come: it waits (R152). Idle with a command word next: the word is accepted and executed, or answered
ILLEGAL_COMMAND with no other change of state (R69, R70). Idle with an event next: the event is served. In the middle of a
command: the events that have arrived are served until the command has answered or none is left (R92, R162). -/
def step (s : State) : Host.Outcome State Fault Refusal :=
  if s.engine = .idle then
    match s.inbox with
    | [] => .next s
    | .command w :: rest =>
      match decode w with
      | .ok i => exec i { s with inbox := rest }
      | .error _ => raise .illegalCommand { s with inbox := rest }
    | .event e :: rest => serveEvent e { s with inbox := rest }
  else runCommand s

/-- `s` with a command word as the next input of an idle block, which the next step accepts and executes (log 4). The word's bits
at and above `nbits` are zero. A command word waits at the port while the block is busy (R61), so a command in progress is
taken away with its latch timer. -/
def State.withFetchWord (s : State) (nbits w : Nat) : State :=
  { s with
    engine := .idle
    latchTimer := none
    inbox := .command (BitVec.ofNat 64 (w % 2 ^ nbits)) :: s.inbox }

end Sys2Proof.Machine
end

