-- ==== Sys2Proof/Machine/Assembler.lean ====
section
/-! DEFINITION. The assembler syntax and the pseudo-commands (30_encoding.md rules R72, R73): one command a line, numbers decimal or
hexadecimal, an operand that does not fit its field an error and never a truncation. Host-side notation only: the block never
sees it. -/

namespace Sys2Proof.Machine

/-- The value of a hexadecimal digit; its value is below 10 exactly for a decimal digit. -/
def digitValue (c : Char) : Option Nat :=
  if 48 ≤ c.toNat ∧ c.toNat ≤ 57 then some (c.toNat - 48)
  else if 65 ≤ c.toNat ∧ c.toNat ≤ 70 then some (c.toNat - 55)
  else if 97 ≤ c.toNat ∧ c.toNat ≤ 102 then some (c.toNat - 87)
  else none

/-- Reading digits of a base onto the value read so far. -/
def readDigits (base : Nat) : Nat → List Char → Option Nat
  | acc, [] => some acc
  | acc, c :: cs =>
    match digitValue c with
    | none => none
    | some d => if d < base then readDigits base (base * acc + d) cs else none

/-- A number: decimal, or hexadecimal with `0x` (R72). -/
def readNumber : List Char → Option Nat
  | [] => none
  | '0' :: 'x' :: [] => none
  | '0' :: 'x' :: ds => readDigits 16 0 ds
  | ds => readDigits 10 0 ds

/-- A name from a list of names, or a number (R72). -/
def readNamed (names : List (List Char × Nat)) (t : List Char) : Option Nat :=
  match names.lookup t with
  | some n => some n
  | none => readNumber t

/-- The order names of INIT (R21, R72). -/
def orderNames : List (List Char × Nat) :=
  [(['R', 'G', 'B'], 0), (['G', 'R', 'B'], 1), (['B', 'R', 'G'], 2)]

/-- The register names of READREG (R17, R72). -/
def registerNames : List (List Char × Nat) :=
  [("STATE".toList, 0x00), ("LENGTH".toList, 0x01), ("ORDER".toList, 0x02), ("BRIGHTNESS".toList, 0x03)] ++
    [("GAMMA_EN".toList, 0x04), ("GAMMA_BUILT".toList, 0x05), ("INFLIGHT".toList, 0x06), ("PIN".toList, 0x07)] ++
    [("CHAN".toList, 0x08), ("TIMING0".toList, 0x09), ("TIMING1".toList, 0x0A), ("CAPS".toList, 0x0B)]

/-- A number as an operand of `w` bits; one that does not fit is an error (R72). -/
def fitField (w n : Nat) : Option (BitVec w) := if n < 2 ^ w then some (BitVec.ofNat w n) else none

/-- A Color from its three channel operands (R73). -/
def fitColor (r g b : Nat) : Option Color := do
  let r ← fitField 8 r
  let g ← fitField 8 g
  let b ← fitField 8 b
  pure { r := r, g := g, b := b }

/-- The command of a mnemonic and its numeric operands, the pseudo-commands of R73 among them. -/
def assembleNumeric (mnemonic : String) (operands : List Nat) : Option Instr :=
  match mnemonic, operands with
  | "NOP", [] => some .nop
  | "INIT", [length, order, pin] => do
    pure (.init (← fitField 24 length) (← fitField 8 order) (← fitField 8 pin))
  | "FREE", [] => some .free
  | "REFRESH", [] => some .refresh
  | "REFRESHA", [] => some .refresha
  | "ISBUSY", [] => some .isbusy
  | "SETRAW", [index, raw] => do pure (.setraw (← fitField 24 index) (← fitField 24 raw))
  | "READPIX", [index] => do pure (.readpix (← fitField 24 index))
  | "READREG", [reg] => do pure (.readreg (← fitField 24 reg))
  | "SETPIX", [index, rgb] => do pure (.setpix (← fitField 24 index) (unpackRgb24 (← fitField 24 rgb)))
  | "SETPIXW", [index, wrgb] => do pure (.setpixw (← fitField 24 index) (unpackWrgb32 (← fitField 32 wrgb)))
  | "FILL", [rgb] => do pure (.fill (unpackRgb24 (← fitField 24 rgb)))
  | "FILLW", [wrgb] => do pure (.fillw (unpackWrgb32 (← fitField 32 wrgb)))
  | "CLEAR", [] => some .clear
  | "SETBRT", [bri] => do pure (.setbrt (← fitField 8 bri))
  | "SETGAMMA", [en] => do pure (.setgamma ((← fitField 1 en).getLsbD 0))
  | "CVTW", [rgb] => do pure (.cvtw (unpackRgb24 (← fitField 24 rgb)))
  | "CVTRGB", [wrgb] => do pure (.cvtrgb (unpackWrgb32 (← fitField 32 wrgb)))
  | "LUTRD", [c] => do pure (.lutrd (← fitField 8 c))
  | "SHOW", [] => some .refresh
  | "SHOWA", [] => some .refresha
  | "GAMMAON", [] => some (.setgamma true)
  | "GAMMAOFF", [] => some (.setgamma false)
  | "FULLBRT", [] => some (.setbrt 255)
  | "SETPIXC", [index, r, g, b] => do pure (.setpix (← fitField 24 index) (← fitColor r g b))
  | "FILLC", [r, g, b] => do pure (.fill (← fitColor r g b))
  | _, _ => none

/-- The mnemonics of rules R72 and R73. -/
def mnemonicNames : List String :=
  ["NOP", "INIT", "FREE", "REFRESH", "REFRESHA", "ISBUSY", "SETRAW", "READPIX", "READREG"] ++
    ["SETPIX", "SETPIXW", "FILL", "FILLW", "CLEAR", "SETBRT", "SETGAMMA", "CVTW", "CVTRGB", "LUTRD"] ++
    ["SHOW", "SHOWA", "GAMMAON", "GAMMAOFF", "FULLBRT", "SETPIXC", "FILLC"]

/-- A text without the blanks at its two ends. -/
def trimBlanks (cs : List Char) : List Char :=
  ((cs.dropWhile (· == ' ')).reverse.dropWhile (· == ' ')).reverse

/-- The parts of a text between its commas; an empty text has no part. -/
def splitCommas : List Char → List (List Char)
  | [] => []
  | c :: cs =>
    if c = ',' then [] :: (match splitCommas cs with | [] => [[]] | ps => ps)
    else
      match splitCommas cs with
      | [] => [[c]]
      | p :: ps => (c :: p) :: ps

/-- The names that operand number `pos` of a mnemonic may be written with (R72). -/
def operandNames (mnemonic : String) (pos : Nat) : List (List Char × Nat) :=
  if mnemonic = "INIT" ∧ pos = 1 then orderNames
  else if mnemonic = "READREG" ∧ pos = 0 then registerNames
  else []

/-- The values of the operands from position `pos` on. -/
def readOperands (mnemonic : String) : Nat → List (List Char) → Option (List Nat)
  | _, [] => some []
  | pos, t :: ts => do
    let n ← readNamed (operandNames mnemonic pos) (trimBlanks t)
    let ns ← readOperands mnemonic (pos + 1) ts
    pure (n :: ns)

/-- The mnemonic and the operands' values of one line `MNEMONIC operand, operand` (R72). DESIGN CHOICE (log 10): blanks around an
operand are ignored. -/
def parseLine (line : List Char) : Option (String × List Nat) := do
  let text := trimBlanks line
  let word := text.takeWhile (· != ' ')
  let mnemonic ← mnemonicNames.find? (fun m => m.toList == word)
  let operands ← readOperands mnemonic 0 (splitCommas (trimBlanks (text.dropWhile (· != ' '))))
  pure (mnemonic, operands)

/-- The command of one line (R72, R73). -/
def assemble (line : List Char) : Option Instr :=
  match parseLine line with
  | none => none
  | some (mnemonic, operands) => assembleNumeric mnemonic operands

end Sys2Proof.Machine
end

