-- ==== Sys2Proof/Machine/System.lean ====
section
/-! DEFINITION. A system of several block instances (60_exceptions.md rule R148, 20_memory.md rule R60): each has its own ports and its
own state, and only the configuration group may be shared (10_state.md rule R38). The number of instances, `N_INSTANCES` of
00_scope.md rule R7, is the length of the list. -/

namespace Sys2Proof.Machine

/-- The one shared copy of the group, seen by an instance (R38). -/
def shareGroup (g : ConfigGroup) (s : State) : State :=
  match s.cfg.sharing with
  | .shared => { s with group := g }
  | .perInstance => s

/-- Instance `n` takes one step; in `SHARED` mode its writes of the group are writes of every instance's (R38, R148). The
instances step in any order, so a run of the system is any sequence of such steps. -/
def systemStep (n : Nat) (sys : List State) : Host.Outcome (List State) Fault Refusal :=
  match sys[n]? with
  | none => .next sys
  | some s =>
    match step s with
    | .next s' =>
      match s'.cfg.sharing with
      | .shared => .next ((sys.map (shareGroup s'.group)).set n s')
      | .perInstance => .next (sys.set n s')
    | .fault f => .fault f
    | .refused r => .refused r

/-- A reset of the system resets every instance and, in `SHARED` mode, the shared group (R151). The contents of instance `n`'s
buffer after it are the draw `draw n` (R153). -/
def systemReset (draw : Nat → Mem) (sys : List State) : List State :=
  sys.mapIdx (fun n s => { afterReset (draw n) s with group := .reset })

end Sys2Proof.Machine
end

