-- ==== Sys2Proof/Safety.lean ====
section
/-! DEFINITION. What the statements speak of: the invariant of the block (10_state.md rules R25, R27, R34, R40, with what it needs in
the middle of a command), a safe outcome, the statuses that each command can answer (60_exceptions.md rule R136), and the events
of a refresh that nothing disturbs. -/

namespace Sys2Proof.Machine

/-- A record of TXQ: the pointer is within the transmission (R16), every read byte is a byte of it and every byte with a symbol
handed over is read (R86), and the symbols handed over are the first `k` of the encoding of bytes among which are the read ones
(R52, R82, R86). -/
def TxInv (cfg : Config) (x : Tx) : Prop :=
  x.k ≤ frameSymbols x.len ∧
  (∀ c ∈ x.reads, c.1 < 3 * x.len.toNat) ∧
  (∀ j, j < 3 * x.len.toNat → 8 * j < x.k → (x.reads.lookup j).isSome) ∧
  ∃ bytes : List Byte, bytes.length = 3 * x.len.toNat ∧
    (∀ j v, x.reads.lookup j = some v → bytes[j]? = some v) ∧
    x.sent = (encode cfg bytes).take x.k

/-- An ended stream: a whole encoding of as many bytes as the strip had if it completed (R84), else the beginning of one. -/
def StreamInv (cfg : Config) (e : EndedStream) : Prop :=
  ∃ bytes : List Byte, bytes.length = 3 * e.len.toNat ∧
    if e.completed then e.symbols = encode cfg bytes else e.symbols <+: encode cfg bytes

/-- The buffer holds no byte at or above 3*MAX_PIXELS (R32) and is in its canonical form. -/
def BufferInv (s : State) : Prop :=
  Memory.wf s.buf = true ∧ ∀ c ∈ s.buf, c.1 < 3 * s.cfg.maxPixels

/-- A live strip: its buffer is allocated and its length is legal (R20, R40). -/
def StripInv (s : State) : Prop :=
  s.lc = .live ∧ s.bufAlloc = true ∧ 1 ≤ s.length.toNat ∧ s.length.toNat ≤ s.cfg.maxPixels

/-- What holds at each position of the command engine (R27, R33, R40, R98, R99, R100). -/
def EngineInv (s : State) : Prop :=
  match s.engine with
  | .idle =>
    s.latchTimer = none ∧
      ((StripInv s ∧ s.chan = .enabled) ∨ (s.lc ≠ .live ∧ s.bufAlloc = false ∧ s.chan = .none ∧ s.txq = []))
  | .initConfigure length _ _ =>
    s.latchTimer = none ∧ s.lc = .uninit ∧ s.bufAlloc = true ∧ s.chan = .none ∧ s.txq = [] ∧
      1 ≤ length.toNat ∧ length.toNat ≤ s.cfg.maxPixels
  | .initEnable length _ _ =>
    s.latchTimer = none ∧ s.lc = .uninit ∧ s.bufAlloc = true ∧ s.chan = .configured ∧ s.txq = [] ∧
      1 ≤ length.toNat ∧ length.toNat ≤ s.cfg.maxPixels
  | .freeWait | .freeDisable => s.latchTimer = none ∧ StripInv s ∧ s.chan = .enabled
  | .freeRelease => s.latchTimer = none ∧ StripInv s ∧ s.chan = .configured
  | .asyncTransmit | .blockTransmit =>
    s.latchTimer = none ∧ StripInv s ∧ s.chan = .enabled ∧ s.txq.length < 65535
  | .blockWait => s.latchTimer = none ∧ StripInv s ∧ s.chan = .enabled
  | .blockLatch => StripInv s ∧ s.chan = .enabled ∧ s.txq = [] ∧ ∃ r, s.latchTimer = some r ∧ 1 ≤ r ∧ r ≤ s.cfg.trst

/-- The invariant of the block. -/
def State.Inv (s : State) : Prop :=
  s.cfg.wf ∧ BufferInv s ∧ EngineInv s ∧
  s.inflight.toNat = s.txq.length ∧
  (∀ x ∈ s.txq, x.len = s.length ∧ TxInv s.cfg x) ∧
  s.txq.Pairwise (fun x y => txOpen x = true → y.k = 0) ∧
  ∀ e ∈ s.streams, StreamInv s.cfg e

/-- A step is safe when it does not fault: "all core operations return a result/error rather than aborting" (R133). -/
def SafeOutcome (o : StepResult) : Prop := ∀ f, o ≠ .fault f

/-- The statuses a decoded command can answer, row by row of the table of rule R136 (the column ILLEGAL_COMMAND is for words that
do not decode). -/
def answerable : Opcode → List Status
  | .nop | .free | .setbrt | .setgamma | .cvtw | .cvtrgb | .lutrd => [.ok]
  | .init => [.ok, .invalidArgument, .resourceExhausted]
  | .refresh => [.ok, .invalidArgument, .transmitRejected, .timeout]
  | .refresha => [.ok, .invalidArgument, .transmitRejected]
  | .isbusy | .readpix | .readreg => [.ok, .invalidArgument]
  | .setraw | .setpix | .setpixw => [.ok, .invalidArgument, .busy]
  | .fill | .fillw | .clear => [.ok, .invalidArgument, .transmitRejected, .timeout, .busy]

/-- The events of a blocking refresh that is accepted and that nothing disturbs: the answer OK, the pull of every symbol, the
completion event, the answer DONE, and a latch wait of `wait` ticks (R93, R100). -/
def refreshEvents (length : Word24) (wait : Nat) : List Event :=
  [.answer .ok] ++ List.replicate (frameSymbols length) .symPull ++ [.chDone, .answer .done, .ticks wait]

/-- A state in which the command port is free again and one more response has been sent, and nothing else differs. -/
def answering (status : Status) (data : Word32) (s : State) : State :=
  { s with engine := .idle, responses := ⟨status, data⟩ :: s.responses }

/-- The state of a strip on which a transmission can be played: it is live, its channel is enabled, and its buffer is allocated and
large enough (R40). -/
abbrev Playable (s : State) : Prop :=
  s.lc = .live ∧ s.chan = .enabled ∧ s.bufAlloc = true ∧ s.length.toNat ≤ s.cfg.maxPixels

/-- Whether an event is one of the two asynchronous inputs of the channel (R142). -/
def channelInput : Event → Bool
  | .chDone | .symPull => true
  | .answer _ | .genRead _ _ | .ticks _ | .groupWrite _ | .reset _ => false

/-- Events as inputs. -/
def asInputs (es : List Event) : List Input := es.map .event

/-- The state that such a refresh leaves (R100): the buffer's bytes are on the record as one completed stream, nothing is in
flight, and the answer is OK. -/
def refreshed (rest : List Input) (s : State) : State :=
  { s with
    engine := .idle
    latchTimer := none
    responses := ⟨.ok, 0⟩ :: s.responses
    chanTrace :=
      [.answer .done, .request (.waitAllDone s.cfg.refreshTimeout), .answer .ok, .request (.transmit 0)] ++ s.chanTrace
    streams := ⟨s.length, encode s.cfg (memGet s.buf 0 (3 * s.length.toNat)), true⟩ :: s.streams
    inbox := rest }

/-- The command words that wait in an inbox, in order. -/
def waitingCommands (inputs : List Input) : List CmdWord :=
  inputs.filterMap (fun i => match i with | .command w => some w | .event _ => none)

/-- Whether an input is the reset. -/
def isReset : Input → Bool
  | .event (.reset _) => true
  | _ => false

/-- Whether an input is a write of the group from outside. -/
def isGroupWrite : Input → Bool
  | .event (.groupWrite _) => true
  | _ => false

/-- No reset was served between `s` and `t`: as many are to come as before. (What is served leaves the inbox, and the block puts
nothing into it.) -/
abbrev NoResetServed (s t : State) : Prop := t.inbox.countP isReset = s.inbox.countP isReset

/-- No write of the group from outside was served between `s` and `t`. -/
abbrev NoGroupWriteServed (s t : State) : Prop := t.inbox.countP isGroupWrite = s.inbox.countP isGroupWrite

/-! ### The assembler's forms -/

/-- The operand forms of rule R72 and the pseudo-commands of rule R73: a mnemonic, the values of its operands and the command they
stand for. Each operand's value is the whole value of its field. -/
inductive AsmForm : String → List Nat → Instr → Prop where
  | nop : AsmForm "NOP" [] .nop
  | init (length : Word24) (order pin : Byte) :
    AsmForm "INIT" [length.toNat, order.toNat, pin.toNat] (.init length order pin)
  | free : AsmForm "FREE" [] .free
  | refresh : AsmForm "REFRESH" [] .refresh
  | refresha : AsmForm "REFRESHA" [] .refresha
  | isbusy : AsmForm "ISBUSY" [] .isbusy
  | setraw (index raw : Word24) : AsmForm "SETRAW" [index.toNat, raw.toNat] (.setraw index raw)
  | readpix (index : Word24) : AsmForm "READPIX" [index.toNat] (.readpix index)
  | readreg (regnum : Word24) : AsmForm "READREG" [regnum.toNat] (.readreg regnum)
  | setpix (index : Word24) (c : Color) : AsmForm "SETPIX" [index.toNat, (c.r ++ c.g ++ c.b).toNat] (.setpix index c)
  | setpixw (index : Word24) (c : ColorW) :
    AsmForm "SETPIXW" [index.toNat, (c.w ++ c.r ++ c.g ++ c.b).toNat] (.setpixw index c)
  | fill (c : Color) : AsmForm "FILL" [(c.r ++ c.g ++ c.b).toNat] (.fill c)
  | fillw (c : ColorW) : AsmForm "FILLW" [(c.w ++ c.r ++ c.g ++ c.b).toNat] (.fillw c)
  | clear : AsmForm "CLEAR" [] .clear
  | setbrt (bri : Byte) : AsmForm "SETBRT" [bri.toNat] (.setbrt bri)
  | setgamma (en : Bool) : AsmForm "SETGAMMA" [en.toNat] (.setgamma en)
  | cvtw (c : Color) : AsmForm "CVTW" [(c.r ++ c.g ++ c.b).toNat] (.cvtw c)
  | cvtrgb (c : ColorW) : AsmForm "CVTRGB" [(c.w ++ c.r ++ c.g ++ c.b).toNat] (.cvtrgb c)
  | lutrd (c : Byte) : AsmForm "LUTRD" [c.toNat] (.lutrd c)
  | shows : AsmForm "SHOW" [] .refresh
  | showsAsync : AsmForm "SHOWA" [] .refresha
  | gammaon : AsmForm "GAMMAON" [] (.setgamma true)
  | gammaoff : AsmForm "GAMMAOFF" [] (.setgamma false)
  | fullbrt : AsmForm "FULLBRT" [] (.setbrt 255)
  | setpixc (index : Word24) (c : Color) :
    AsmForm "SETPIXC" [index.toNat, c.r.toNat, c.g.toNat, c.b.toNat] (.setpix index c)
  | fillc (c : Color) : AsmForm "FILLC" [c.r.toNat, c.g.toNat, c.b.toNat] (.fill c)

end Sys2Proof.Machine
end

