-- ==== Sys2Proof/Certificates/Slice0/Obligations.lean ====
section
/-! DEFINITION. The statements for the provers, in the order of the spec's files. Each docstring names the rule that it
formalises. A statement holds for every choice of the parameters of R7, which stand in `cfg`, and for every behaviour of the
channel, the symbol generator, the clock and the other instances, which stands in `inbox`. -/

open Sys2Proof Sys2Proof.Machine

/-! ### Reset and the invariant -/

/-- R17, R151: the reset value of every item of state that the spec gives one, whatever the parameters and whatever contents of
the buffer are drawn (R153); `State.reset` is that state with the default parameters (of which MAX_PIXELS and CH_BUFFER_DEPTH are
the model's choice, log 1) and with the draw that lists no byte (the model's choice, log 2). -/
def Obligations.ResetLeavesEveryItemAtItsResetValue : Prop :=
  (∀ (cfg : Config) (contents : Mem) (s : State), s = State.resetWith cfg contents →
    s.lc = .uninit ∧ stateCode s = 0 ∧ s.length = 0 ∧ orderCode s.order = 1 ∧ s.group.brightness = 255 ∧
    s.group.gammaEn = false ∧ s.group.gammaBuilt = false ∧ s.inflight = 0 ∧ s.pin = 0 ∧ chanCode s.chan = 0 ∧
    s.bufAlloc = false ∧ s.buf = contents ∧ s.txq = [] ∧ s.latchTimer = none ∧ portBusy s = false ∧ s.cfg = cfg) ∧
  State.reset = State.resetWith Config.default []

/-- R40, R153: the reset state meets the invariant, whatever contents of the buffer are drawn and whatever is to come. -/
def Obligations.ResetMeetsTheInvariant : Prop :=
  ∀ (cfg : Config) (contents : Mem) (inbox : List Input), cfg.wf → Memory.wf contents = true →
    (∀ c ∈ contents, c.1 < 3 * cfg.maxPixels) → State.Inv { State.resetWith cfg contents with inbox := inbox }

/-- R25, R27, R34, R40: every step from a state that meets the invariant leads to one that meets it. -/
def Obligations.StepKeepsTheInvariant : Prop :=
  ∀ s t : State, s.Inv → step s = .next t → t.Inv

/-- R133: from a state that meets the invariant no step faults. -/
def Obligations.NoStepFaultsFromTheInvariant : Prop :=
  ∀ s : State, s.Inv → SafeOutcome (step s)

/-- R40: after any run from reset, whatever contents of the buffer are drawn there, between commands the rule's four items hold. -/
def Obligations.BetweenCommandsTheFourItemsHold : Prop :=
  ∀ (cfg : Config) (contents : Mem) (inbox : List Input) (n : Nat) (t : State), cfg.wf → Memory.wf contents = true →
    (∀ c ∈ contents, c.1 < 3 * cfg.maxPixels) →
    Host.Core.run Sys2Proof.core n ({ State.resetWith cfg contents with inbox := inbox } : State) = .next t → portBusy t = false →
    (t.lc = .live → t.bufAlloc = true ∧ chanCode t.chan = 2 ∧ 1 ≤ t.length.toNat ∧ t.length.toNat ≤ t.cfg.maxPixels ∧
      (orderCode t.order).toNat ≤ 2) ∧
    (t.lc ≠ .live → t.bufAlloc = false ∧ chanCode t.chan = 0 ∧ t.inflight = 0 ∧ t.txq = []) ∧
    (t.inflight.toNat = t.txq.length ∧ t.txq.length ≤ 65535) ∧
    ∀ x ∈ t.txq, x.len = t.length

/-- R7: no step changes a parameter. -/
def Obligations.StepKeepsTheParameters : Prop :=
  ∀ s t : State, step s = .next t → t.cfg = s.cfg

/-! ### Decoding and the command port -/

/-- R63, R64, R67: every command decodes from its own word. -/
def Obligations.DecodeOfEncodeIsTheCommand : Prop :=
  ∀ i : Instr, decode (encode i) = .ok i

/-- R63, R67, R69: a word that decodes is the word of its command; no bit of it is ignored. -/
def Obligations.EncodeOfDecodeIsTheWord : Prop :=
  ∀ (w : CmdWord) (i : Instr), decode w = .ok i → encode i = w

/-- R67, R69, R70: the decoder, written from the masks, accepts exactly the words that the field-by-field reading of the column
"must be 0" accepts. -/
def Obligations.DecoderAcceptsExactlyTheWellFormedWords : Prop :=
  ∀ w : CmdWord, (∃ i, decode w = .ok i) ↔ CmdWord.wellFormed w = true

/-- R68: a word decodes to a command of a row exactly when it passes the row's test, and to no command exactly when it passes
none; the mask covers OPC and the must-be-0 bits, and the match is OPC above zeros. -/
def Obligations.RowTestDecidesEveryWord : Prop :=
  (∀ (w : CmdWord) (op : Opcode), w &&& rowMask op = rowMatch op ↔ ∃ i, decode w = .ok i ∧ i.opcode = op) ∧
  (∀ w : CmdWord, (∀ op, w &&& rowMask op ≠ rowMatch op) ↔ ∃ e, decode w = .error e) ∧
  ∀ op : Opcode, rowMask op = 0xFF00000000000000 ||| mustBeZero op ∧ fieldOpc (rowMatch op) = opcodeValue op ∧
    fieldA (rowMatch op) = 0 ∧ fieldB (rowMatch op) = 0

/-- R67: words written out from the opcode map and the examples of R97 to R131, one for each kind of operand, and three words
that are none. -/
def Obligations.WordsOfTheSpecDecode : Prop :=
  decode 0x0000000000000000 = .ok .nop ∧
  decode 0x0100000300001207 = .ok (.init 3 7 18) ∧
  decode 0x0600000100010203 = .ok (.setraw 1 0x010203) ∧
  decode 0x0800000900000000 = .ok (.readreg 9) ∧
  decode 0x09000000000A141E = .ok (.setpix 0 ⟨10, 20, 30⟩) ∧
  decode 0x0A00000164C80000 = .ok (.setpixw 1 ⟨200, 0, 0, 100⟩) ∧
  decode 0x0E00000000000080 = .ok (.setbrt 128) ∧
  decode 0x0F00000000000001 = .ok (.setgamma true) ∧
  decode 0x1200008000000000 = .ok (.lutrd 128) ∧
  decode 0x0000000000000001 = .error (.mustBeZeroBitSet .nop) ∧
  decode 0x0D00000100000000 = .error (.mustBeZeroBitSet .clear) ∧
  decode 0x1300000000000000 = .error (.reservedOpcode 0x13)

/-- R62: an idle block accepts the next command word and executes the command it decodes to; nothing else happens in the step. -/
def Obligations.IdleBlockExecutesTheDecodedCommand : Prop :=
  ∀ (s : State) (w : CmdWord) (rest : List Input) (i : Instr),
    s.engine = .idle → s.inbox = .command w :: rest → decode w = .ok i →
    step s = exec i { s with inbox := rest }

/-- R69: a word of a known opcode with a must-be-0 bit set answers ILLEGAL_COMMAND and changes no state. -/
def Obligations.SetReservedBitAnswersIllegalCommand : Prop :=
  ∀ (s : State) (w : CmdWord) (rest : List Input) (op : Opcode),
    s.engine = .idle → s.inbox = .command w :: rest → fieldOpc w = opcodeValue op → w &&& mustBeZero op ≠ 0 →
    step s = .next (answering .illegalCommand 0 { s with inbox := rest })

/-- R70: a reserved opcode, whatever its operands, answers ILLEGAL_COMMAND and changes no state, and so does a word with OPC 0x00
and any other bit set. -/
def Obligations.ReservedOpcodeAnswersIllegalCommand : Prop :=
  ∀ (s : State) (w : CmdWord) (rest : List Input),
    s.engine = .idle → s.inbox = .command w :: rest →
    (0x13 ≤ (fieldOpc w).toNat ∨ (fieldOpc w = 0 ∧ w ≠ 0)) →
    step s = .next (answering .illegalCommand 0 { s with inbox := rest })

/-- R61, R62, R162: a step of a busy block accepts no command word: those that wait stay, in order; and a command whose channel sends
nothing more takes no further step. -/
def Obligations.BusyBlockAcceptsNoCommandAndMayBeStuck : Prop :=
  (∀ s t : State, s.engine ≠ .idle → step s = .next t → waitingCommands t.inbox = waitingCommands s.inbox) ∧
  ∀ s : State, s.engine ≠ .idle → (∀ e, .event e ∉ s.inbox) → step s = .next s

/-- R62, R133, R136: a command has sent exactly one response, with a status of its row of the table and DATA 0 on an error, and the
port is free; or it has sent none and still waits, or a reset has abandoned it. TIMEOUT only with a finite timeout and BUSY only with
the guard ON. -/
def Obligations.EveryAnswerIsInTheTable : Prop :=
  ∀ (i : Instr) (s t : State), exec i s = .next t →
    (t.responses = s.responses ∧ (portBusy t = true ∨ ¬NoResetServed s t)) ∨
    ∃ (st : Status) (d : Word32), t.responses = ⟨st, d⟩ :: s.responses ∧ portBusy t = false ∧ NoResetServed s t ∧
      st ∈ answerable i.opcode ∧ (st ≠ .ok → d = 0) ∧
      (st = .timeout → s.cfg.refreshTimeout ≠ none) ∧ (st = .busy → s.cfg.inflightGuard = true)

/-! ### The lifecycle commands -/

/-- R97: NOP. -/
def Obligations.NopAnswersOkAndChangesNothing : Prop :=
  decode 0 = .ok .nop ∧ (∀ w : CmdWord, fieldOpc w = 0 → w ≠ 0 → decode w = .error (.mustBeZeroBitSet .nop)) ∧
  ∀ s : State, exec .nop s = .next (answering .ok 0 s)

/-- R98: INIT. Its checks, in order, with no channel request; the unwinding when the channel refuses; and the live strip, every
byte below 3*length zero and every other byte as before. -/
def Obligations.InitChecksConfiguresAndGoesLive : Prop :=
  ∀ (s : State) (l : Word24) (o p : Byte) (rest : List Input),
    decode (0x01#8 ++ l ++ (0#16 ++ p ++ o)) = .ok (.init l o p) ∧
    (s.lc ≠ .uninit ∨ l = 0 → exec (.init l o p) s = .next (answering .invalidArgument 0 s)) ∧
    (s.lc = .uninit → s.cfg.maxPixels < l.toNat → exec (.init l o p) s = .next (answering .resourceExhausted 0 s)) ∧
    (s.lc = .uninit → l ≠ 0 → l.toNat ≤ s.cfg.maxPixels → Memory.wf s.buf = true →
      ∃ m : Mem, (∀ a, memByte m a = if a < 3 * l.toNat then 0 else memByte s.buf a) ∧
        (s.inbox = asInputs [.answer .error] ++ rest →
          exec (.init l o p) s = .next (answering .resourceExhausted 0 { s with
            buf := m
            bufAlloc := false
            chanTrace := [.answer .error, .request (.configure p 10000000 s.cfg.chBufferDepth)] ++ s.chanTrace
            inbox := rest })) ∧
        (s.inbox = asInputs [.answer .ok, .answer .ack] ++ rest →
          exec (.init l o p) s = .next (answering .ok 0 { s with
            buf := m
            bufAlloc := true
            chan := .enabled
            length := l
            order := if o = 0 then .rgb else if o = 2 then .brg else .grb
            pin := p
            group := { s.group with brightness := 255 }
            lc := .live
            chanTrace :=
              [.answer .ack, .request .enable, .answer .ok, .request (.configure p 10000000 s.cfg.chBufferDepth)] ++ s.chanTrace
            inbox := rest })))

/-- R99: FREE. In FREED and UNINIT it makes no channel request; a live strip with nothing in flight is disabled and released; one
with transmissions in flight is waited for, while the channel's events are served, and is freed after DONE and after ERROR. That the
record of what was observed keeps a stream that FREE cuts, as not completed, is the model's choice (log 12). -/
def Obligations.FreeEndsTheStrip : Prop :=
  decode (0x02#8 ++ 0#24 ++ 0#32) = .ok .free ∧
  ∀ (s : State) (rest : List Input),
    (s.lc = .freed → exec .free s = .next (answering .ok 0 s)) ∧
    (s.lc = .uninit → exec .free s = .next (answering .ok 0 { s with lc := .freed })) ∧
    (s.lc = .live → s.inflight = 0 → s.inbox = asInputs [.answer .ack, .answer .ack] ++ rest →
      exec .free s = .next (answering .ok 0 { s with
        chan := .none, txq := [], streams := cutStreams s.txq ++ s.streams, bufAlloc := false, lc := .freed
        chanTrace := [.answer .ack, .request .release, .answer .ack, .request .disable] ++ s.chanTrace
        inbox := rest })) ∧
    ∀ (events : List Event) (a : ChannelAnswer) (u : State), s.lc = .live → s.inflight ≠ 0 →
      events.all channelInput = true → (a = .error ∨ (a = .done ∧ u.txq = [])) →
      s.inbox = asInputs (events ++ [.answer a, .answer .ack, .answer .ack]) ++ rest →
      serveAll events
        { s with engine := .freeWait, chanTrace := .request (.waitAllDone none) :: s.chanTrace, inbox := rest } = .next u →
      exec .free s = .next (answering .ok 0 { u with
        chan := .none, txq := [], streams := cutStreams u.txq ++ u.streams, inflight := 0, bufAlloc := false, lc := .freed
        chanTrace := [.answer .ack, .request .release, .answer .ack, .request .disable, .answer a] ++ u.chanTrace })

/-- R94, R100: REFRESH, answer by answer. After a rejected submission nothing but the channel port's record differs; after TIMEOUT or
ERROR the transmission stays in flight; after DONE the latch timer is started at TRST, the command has answered nothing while fewer than
TRST ticks have passed, and it answers once the wait has lasted TRST ticks or more. R55 item 1, R93 item 6: when REFRESH, FILL, FILLW or
CLEAR answers OK, in the step that accepts it or in a later one, nothing is in flight. That a wait of TRST ticks or more is ended by the
event that completes them is the model's reading of "at least" (log 7). -/
def Obligations.RefreshWaitsForTheChannel : Prop :=
  decode (0x03#8 ++ 0#24 ++ 0#32) = .ok .refresh ∧
  (∀ (s : State) (rest : List Input),
    (s.lc ≠ .live → exec .refresh s = .next (answering .invalidArgument 0 s)) ∧
    (s.lc = .live → s.inflight = 65535 → exec .refresh s = .next (answering .transmitRejected 0 s)) ∧
    (s.lc = .live → s.inflight ≠ 65535 →
      (s.inbox = asInputs [.answer .error] ++ rest →
        exec .refresh s = .next (answering .transmitRejected 0 { s with
          chanTrace := [.answer .error, .request (.transmit 0)] ++ s.chanTrace, inbox := rest })) ∧
      ∀ (events after : List Event) (u : State), events.all channelInput = true →
        s.inbox = asInputs ([.answer .ok] ++ events ++ after) ++ rest →
        serveAll events { s with
          engine := .blockWait
          txq := s.txq ++ [{ len := s.length, k := 0, reads := [], sent := [] }]
          inflight := s.inflight + 1
          chanTrace := [.request (.waitAllDone s.cfg.refreshTimeout), .answer .ok, .request (.transmit 0)] ++ s.chanTrace
          inbox := rest } = .next u →
        (after = [.answer .timeout] → s.cfg.refreshTimeout ≠ none →
          exec .refresh s = .next (answering .timeout 0 { u with chanTrace := .answer .timeout :: u.chanTrace })) ∧
        (after = [.answer .error] →
          exec .refresh s = .next (answering .transmitRejected 0 { u with chanTrace := .answer .error :: u.chanTrace })) ∧
        ((∀ e, .event e ∉ rest) → after = [.answer .done] → u.txq = [] →
          exec .refresh s = .next { u with
            engine := .blockLatch, latchTimer := some s.cfg.trst, chanTrace := .answer .done :: u.chanTrace }) ∧
        (∀ n, (∀ e, .event e ∉ rest) → after = [.answer .done, .ticks n] → u.txq = [] → n < s.cfg.trst →
          exec .refresh s = .next { u with
            engine := .blockLatch, latchTimer := some (s.cfg.trst - n), chanTrace := .answer .done :: u.chanTrace }) ∧
        ∀ wait, after = [.answer .done, .ticks wait] → u.txq = [] → s.cfg.trst ≤ wait →
          exec .refresh s = .next (answering .ok 0 { u with latchTimer := none, chanTrace := .answer .done :: u.chanTrace }))) ∧
  (∀ (s t : State) (i : Instr), s.Inv → portBusy s = false → exec i s = .next t →
    i.opcode ∈ [Opcode.refresh, .fill, .fillw, .clear] → t.responses = ⟨.ok, 0⟩ :: s.responses → t.txq = [] ∧ t.inflight = 0) ∧
  ∀ s t : State, s.Inv → s.engine ∈ [Engine.blockTransmit, .blockWait, .blockLatch] → step s = .next t →
    t.responses = ⟨.ok, 0⟩ :: s.responses → t.txq = [] ∧ t.inflight = 0

/-- R82, R84, R86, R100: a blocking refresh of an idle strip that the channel plays to its end puts exactly `encode` of the whole
buffer on the channel port, then answers OK with nothing in flight, and changes nothing else. -/
def Obligations.UndisturbedRefreshSendsTheWholeBuffer : Prop :=
  ∀ (s : State) (rest : List Input) (wait : Nat), Playable s → s.inflight = 0 → s.txq = [] → s.cfg.trst ≤ wait →
    s.inbox = asInputs (refreshEvents s.length wait) ++ rest →
    exec .refresh s = .next (refreshed rest s)

/-- R94, R101: REFRESHA. -/
def Obligations.RefreshaSubmitsAndReturns : Prop :=
  decode (0x04#8 ++ 0#24 ++ 0#32) = .ok .refresha ∧
  ∀ (s : State) (rest : List Input),
    (s.lc ≠ .live → exec .refresha s = .next (answering .invalidArgument 0 s)) ∧
    (s.lc = .live → s.inflight = 65535 → exec .refresha s = .next (answering .transmitRejected 0 s)) ∧
    (s.lc = .live → s.inflight ≠ 65535 →
      (s.inbox = asInputs [.answer .error] ++ rest →
        exec .refresha s = .next (answering .transmitRejected 0 { s with
          chanTrace := [.answer .error, .request (.transmit 0)] ++ s.chanTrace, inbox := rest })) ∧
      (s.inbox = asInputs [.answer .ok] ++ rest →
        exec .refresha s = .next (answering .ok 0 { s with
          txq := s.txq ++ [{ len := s.length, k := 0, reads := [], sent := [] }]
          inflight := s.inflight + 1
          chanTrace := [.answer .ok, .request (.transmit 0)] ++ s.chanTrace
          inbox := rest })))

/-- R102: ISBUSY. -/
def Obligations.IsbusyAnswersWhetherAnythingIsInFlight : Prop :=
  decode (0x05#8 ++ 0#24 ++ 0#32) = .ok .isbusy ∧
  ∀ s : State,
    (s.lc ≠ .live → exec .isbusy s = .next (answering .invalidArgument 0 s)) ∧
    (s.lc = .live → exec .isbusy s = .next (answering .ok (if 0 < s.inflight.toNat then 1 else 0) s))

/-- R45, R103: SETRAW. The three bytes go to the pixel's three addresses, every other byte of the buffer and every other item of
state stays. -/
def Obligations.SetrawWritesThePixelsThreeBytes : Prop :=
  ∀ (s : State) (i raw : Word24),
    decode (0x06#8 ++ i ++ (0#8 ++ raw)) = .ok (.setraw i raw) ∧
    (s.lc ≠ .live ∨ s.length.toNat ≤ i.toNat → exec (.setraw i raw) s = .next (answering .invalidArgument 0 s)) ∧
    (s.lc = .live → i.toNat < s.length.toNat → s.cfg.inflightGuard = true → s.inflight ≠ 0 →
      exec (.setraw i raw) s = .next (answering .busy 0 s)) ∧
    (Playable s → i.toNat < s.length.toNat → (s.cfg.inflightGuard = false ∨ s.inflight = 0) → Memory.wf s.buf = true →
      ∃ m : Mem, exec (.setraw i raw) s = .next (answering .ok 0 { s with buf := m }) ∧
        memByte m (3 * i.toNat) = raw.extractLsb' 16 8 ∧ memByte m (3 * i.toNat + 1) = raw.extractLsb' 8 8 ∧
        memByte m (3 * i.toNat + 2) = raw.extractLsb' 0 8 ∧
        ∀ a, (a < 3 * i.toNat ∨ 3 * i.toNat + 3 ≤ a) → memByte m a = memByte s.buf a)

/-- R45, R104: READPIX. -/
def Obligations.ReadpixAnswersThePixelsThreeBytes : Prop :=
  ∀ (s : State) (i : Word24),
    decode (0x07#8 ++ i ++ 0#32) = .ok (.readpix i) ∧
    (s.lc ≠ .live ∨ s.length.toNat ≤ i.toNat → exec (.readpix i) s = .next (answering .invalidArgument 0 s)) ∧
    (Playable s → i.toNat < s.length.toNat →
      exec (.readpix i) s = .next (answering .ok
        (0#8 ++ memByte s.buf (3 * i.toNat) ++ memByte s.buf (3 * i.toNat + 1) ++ memByte s.buf (3 * i.toNat + 2)) s))

/-- R17, R19, R28 to R31, R105: READREG of every register number, in every lifecycle state. -/
def Obligations.ReadregAnswersTheRegisterMap : Prop :=
  ∀ (s : State) (n : Word24),
    decode (0x08#8 ++ n ++ 0#32) = .ok (.readreg n) ∧
    (0x0B < n.toNat → exec (.readreg n) s = .next (answering .invalidArgument 0 s)) ∧
    exec (.readreg 0x00) s = .next (answering .ok (match s.lc with
      | .uninit => 0 | .live => if 0 < s.inflight.toNat then 2 else 1 | .freed => 3) s) ∧
    exec (.readreg 0x01) s = .next (answering .ok (s.length.setWidth 32) s) ∧
    exec (.readreg 0x02) s = .next (answering .ok (match s.order with | .rgb => 0 | .grb => 1 | .brg => 2) s) ∧
    exec (.readreg 0x03) s = .next (answering .ok (s.group.brightness.setWidth 32) s) ∧
    exec (.readreg 0x04) s = .next (answering .ok (if s.group.gammaEn then 1 else 0) s) ∧
    exec (.readreg 0x05) s = .next (answering .ok (if s.group.gammaBuilt then 1 else 0) s) ∧
    exec (.readreg 0x06) s = .next (answering .ok (s.inflight.setWidth 32) s) ∧
    exec (.readreg 0x07) s = .next (answering .ok (s.pin.setWidth 32) s) ∧
    exec (.readreg 0x08) s = .next (answering .ok (match s.chan with | .none => 0 | .configured => 1 | .enabled => 2) s) ∧
    exec (.readreg 0x09) s = .next (answering .ok
      (BitVec.ofNat 8 s.cfg.t1l ++ BitVec.ofNat 8 8 ++ BitVec.ofNat 8 s.cfg.t0l ++ BitVec.ofNat 8 4) s) ∧
    exec (.readreg 0x0A) s = .next (answering .ok (BitVec.ofNat 32 s.cfg.trst) s) ∧
    exec (.readreg 0x0B) s = .next (answering .ok (BitVec.ofNat 32 s.cfg.maxPixels) s)

/-! ### The colour commands -/

/-- R118, R122: SETPIX. The pipeline's three bytes go to the pixel's three addresses; GAMMA_BUILT is set if GAMMA_EN is 1; every other
byte and every other item of state stays. -/
def Obligations.SetpixStoresThePipelinesBytes : Prop :=
  ∀ (s : State) (i : Word24) (c : Color),
    decode (0x09#8 ++ i ++ (0#8 ++ (c.r ++ c.g ++ c.b))) = .ok (.setpix i c) ∧
    (s.lc ≠ .live ∨ s.length.toNat ≤ i.toNat → exec (.setpix i c) s = .next (answering .invalidArgument 0 s)) ∧
    (s.lc = .live → i.toNat < s.length.toNat → s.cfg.inflightGuard = true → s.inflight ≠ 0 →
      exec (.setpix i c) s = .next (answering .busy 0 s)) ∧
    (Playable s → i.toNat < s.length.toNat → (s.cfg.inflightGuard = false ∨ s.inflight = 0) → Memory.wf s.buf = true →
      ∃ m : Mem, exec (.setpix i c) s = .next (answering .ok 0 { s with
          buf := m, group := { s.group with gammaBuilt := s.group.gammaBuilt || s.group.gammaEn } }) ∧
        memByte m (3 * i.toNat) = (pipeline s.group s.order c).b0 ∧
        memByte m (3 * i.toNat + 1) = (pipeline s.group s.order c).b1 ∧
        memByte m (3 * i.toNat + 2) = (pipeline s.group s.order c).b2 ∧
        ∀ a, (a < 3 * i.toNat ∨ 3 * i.toNat + 3 ≤ a) → memByte m a = memByte s.buf a)

/-- R110, R123: SETPIXW is SETPIX of the merged colour, in every state; and where SETPIX completes its bytes are those of the merged
colour. -/
def Obligations.SetpixwStoresTheMergedColour : Prop :=
  ∀ (s : State) (i : Word24) (c : ColorW),
    decode (0x0A#8 ++ i ++ (c.w ++ c.r ++ c.g ++ c.b)) = .ok (.setpixw i c) ∧
    exec (.setpixw i c) s = exec (.setpix i (rgbwToRgb c)) s ∧
    (Playable s → i.toNat < s.length.toNat → (s.cfg.inflightGuard = false ∨ s.inflight = 0) → Memory.wf s.buf = true →
      ∃ m : Mem, exec (.setpixw i c) s = .next (answering .ok 0 { s with
          buf := m, group := { s.group with gammaBuilt := s.group.gammaBuilt || s.group.gammaEn } }) ∧
        memByte m (3 * i.toNat) = (pipeline s.group s.order (rgbwToRgb c)).b0 ∧
        memByte m (3 * i.toNat + 1) = (pipeline s.group s.order (rgbwToRgb c)).b1 ∧
        memByte m (3 * i.toNat + 2) = (pipeline s.group s.order (rgbwToRgb c)).b2 ∧
        ∀ a, (a < 3 * i.toNat ∨ 3 * i.toNat + 3 ≤ a) → memByte m a = memByte s.buf a)

/-- R124: FILL. Its checks; then the pipeline's bytes in every pixel, GAMMA_BUILT set if GAMMA_EN is 1, and from there on exactly what
REFRESH does: whatever the refresh answers, the buffer keeps the filled bytes. -/
def Obligations.FillStoresEveryPixelThenRefreshes : Prop :=
  ∀ (s : State) (c : Color),
    decode (0x0B#8 ++ 0#24 ++ (0#8 ++ (c.r ++ c.g ++ c.b))) = .ok (.fill c) ∧
    (s.lc ≠ .live → exec (.fill c) s = .next (answering .invalidArgument 0 s)) ∧
    (s.lc = .live → s.cfg.inflightGuard = true → s.inflight ≠ 0 → exec (.fill c) s = .next (answering .busy 0 s)) ∧
    (Playable s → (s.cfg.inflightGuard = false ∨ s.inflight = 0) → Memory.wf s.buf = true →
      ∃ m : Mem, exec (.fill c) s = exec .refresh { s with
          buf := m, group := { s.group with gammaBuilt := s.group.gammaBuilt || s.group.gammaEn } } ∧
        (∀ j, j < s.length.toNat → pixelAt m j = pipeline s.group s.order c) ∧
        ∀ a, 3 * s.length.toNat ≤ a → memByte m a = memByte s.buf a)

/-- R124, R125, R126: FILL, FILLW and CLEAR of an idle strip whose refresh the channel plays to its end complete: the buffer holds the
bytes, `encode` of them is on the record as one completed stream, and the answer is OK. CLEAR leaves every byte 0. -/
def Obligations.UndisturbedFillsComplete : Prop :=
  ∀ (s : State) (i : Instr) (c : Color) (rest : List Input) (wait : Nat),
    Playable s → s.inflight = 0 → s.txq = [] → s.cfg.trst ≤ wait → Memory.wf s.buf = true →
    s.inbox = asInputs (refreshEvents s.length wait) ++ rest →
    (i = .fill c ∨ (∃ d : ColorW, i = .fillw d ∧ c = rgbwToRgb d) ∨ (i = .clear ∧ c = ⟨0, 0, 0⟩)) →
    ∃ m : Mem, exec i s = .next (refreshed rest { s with
        buf := m, group := { s.group with gammaBuilt := s.group.gammaBuilt || s.group.gammaEn } }) ∧
      (∀ j, j < s.length.toNat → pixelAt m j = pipeline s.group s.order c) ∧
      (i = .clear → ∀ a, a < 3 * s.length.toNat → memByte m a = 0) ∧
      ∀ a, 3 * s.length.toNat ≤ a → memByte m a = memByte s.buf a

/-- R125, R126: FILLW is FILL of the merged colour and CLEAR is FILL with the zero colour, in every state. -/
def Obligations.FillwAndClearAreFills : Prop :=
  (∀ c : ColorW, decode (0x0C#8 ++ 0#24 ++ (c.w ++ c.r ++ c.g ++ c.b)) = .ok (.fillw c)) ∧
  decode (0x0D#8 ++ 0#24 ++ 0#32) = .ok .clear ∧
  (∀ (s : State) (c : ColorW), exec (.fillw c) s = exec (.fill (rgbwToRgb c)) s) ∧
  (∀ s : State, exec .clear s = exec (.fill ⟨0, 0, 0⟩) s) ∧
  ∀ (g : ConfigGroup) (o : ChannelOrder), pipeline g o ⟨0, 0, 0⟩ = ⟨0, 0, 0⟩

/-- R124: FILL leaves the buffer that SETPIX of the same colour on every pixel, one after the other, leaves. -/
def Obligations.FillEqualsSetpixOnEveryPixel : Prop :=
  ∀ (s t u : State) (c : Color), Playable s → (s.cfg.inflightGuard = false ∨ s.inflight = 0) → Memory.wf s.buf = true →
    exec (.fill c) s = .next t → NoResetServed s t →
    (List.range s.length.toNat).foldl
      (fun o i => match o with | .next v => exec (.setpix (BitVec.ofNat 24 i) c) v | r => r) (.next s : StepResult) = .next u →
    ∀ a, memByte t.buf a = memByte u.buf a

/-- R120, R127, R128: SETBRT and SETGAMMA write their one register in every lifecycle state and nothing else; no stored pixel
changes. -/
def Obligations.SetbrtAndSetgammaWriteOneRegister : Prop :=
  (∀ bri : Byte, decode (0x0E#8 ++ 0#24 ++ (0#24 ++ bri)) = .ok (.setbrt bri)) ∧
  (∀ en : Bool, decode (0x0F#8 ++ 0#24 ++ (0#31 ++ BitVec.ofBool en)) = .ok (.setgamma en)) ∧
  (∀ (s : State) (bri : Byte), exec (.setbrt bri) s =
    .next (answering .ok 0 { s with group := { s.group with brightness := bri } })) ∧
  ∀ (s : State) (en : Bool), exec (.setgamma en) s =
    .next (answering .ok 0 { s with group := { s.group with gammaEn := en } })

/-- R129, R130, R131: the three pure conversions answer OK in every lifecycle state and change nothing. -/
def Obligations.ConversionsAnswerOkAndChangeNothing : Prop :=
  (∀ c : Color, decode (0x10#8 ++ 0#24 ++ (0#8 ++ (c.r ++ c.g ++ c.b))) = .ok (.cvtw c)) ∧
  (∀ c : ColorW, decode (0x11#8 ++ 0#24 ++ (c.w ++ c.r ++ c.g ++ c.b)) = .ok (.cvtrgb c)) ∧
  (∀ c : Byte, decode (0x12#8 ++ (0#16 ++ c) ++ 0#32) = .ok (.lutrd c)) ∧
  (∀ (s : State) (c : Color), exec (.cvtw c) s = .next (answering .ok
    ((rgbToRgbw c).w ++ (rgbToRgbw c).r ++ (rgbToRgbw c).g ++ (rgbToRgbw c).b) s)) ∧
  (∀ (s : State) (c : ColorW), exec (.cvtrgb c) s = .next (answering .ok
    (0#8 ++ (rgbwToRgb c).r ++ (rgbwToRgb c).g ++ (rgbwToRgb c).b) s)) ∧
  ∀ (s : State) (c : Byte), exec (.lutrd c) s = .next (answering .ok (0#24 ++ gammaLut c) s)

/-! ### Rules over all commands -/

/-- R96: `guard()`. With the guard ON and a transmission in flight each of the six buffer-mutating commands that passes its state and
index checks answers BUSY and changes nothing. -/
def Obligations.GuardAnswersBusyToEveryMutation : Prop :=
  ∀ (s : State) (i : Instr), s.lc = .live → s.cfg.inflightGuard = true → s.inflight ≠ 0 →
    ((∃ n raw, i = .setraw n raw ∧ n.toNat < s.length.toNat) ∨ (∃ n c, i = .setpix n c ∧ n.toNat < s.length.toNat) ∨
      (∃ n c, i = .setpixw n c ∧ n.toNat < s.length.toNat) ∨ (∃ c, i = .fill c) ∨ (∃ c, i = .fillw c) ∨ i = .clear) →
    exec i s = .next (answering .busy 0 s)

/-- R135, R137: the ten commands that need a live strip, and INIT outside UNINIT, answer INVALID_ARGUMENT and change nothing, before any
other check. -/
def Obligations.StripCommandsNeedTheirLifecycleState : Prop :=
  ∀ (s : State) (i : Instr),
    (s.lc ≠ .live → i.opcode ∈ [Opcode.refresh, .refresha, .isbusy, .setraw, .readpix, .setpix, .setpixw, .fill, .fillw, .clear] →
      exec i s = .next (answering .invalidArgument 0 s)) ∧
    (s.lc ≠ .uninit → i.opcode = .init → exec i s = .next (answering .invalidArgument 0 s))

/-- R138: a command that makes no channel transaction and answers an error has changed nothing but the response; so has any command
whose inbox brings no event. -/
def Obligations.ErrorsWithoutChannelAnswersArePrecise : Prop :=
  ∀ (s t : State) (i : Instr) (st : Status) (d : Word32), exec i s = .next t → t.responses = ⟨st, d⟩ :: s.responses → st ≠ .ok →
    (i.opcode ∉ [Opcode.init, .free, .refresh, .refresha, .fill, .fillw, .clear] ∨
      ((∀ e, .event e ∉ s.inbox) ∧ i.opcode ∉ [Opcode.fill, .fillw, .clear])) →
    t = answering st 0 s

/-- R18, R90, R161: where no reset is served, only an INIT that answers OK moves the lifecycle from UNINIT to LIVE, only FREE moves it to
FREED, and no step leaves FREED. -/
def Obligations.LifecycleMovesOnlyByInitAndFree : Prop :=
  (∀ (s t : State) (i : Instr), exec i s = .next t → NoResetServed s t →
    t.lc = s.lc ∨
    (i.opcode = .init ∧ s.lc = .uninit ∧ t.lc = .live ∧ t.responses = ⟨.ok, 0⟩ :: s.responses) ∨
    (i = .free ∧ s.lc ≠ .freed ∧ t.lc = .freed ∧ t.responses = ⟨.ok, 0⟩ :: s.responses)) ∧
  ∀ s t : State, s.Inv → s.lc = .freed → step s = .next t → NoResetServed s t → t.lc = .freed

/-- R20, R21, R26: where no reset is served, only an INIT that answers OK writes LENGTH, ORDER or PIN. -/
def Obligations.OnlyInitWritesLengthOrderAndPin : Prop :=
  ∀ (s t : State) (i : Instr), exec i s = .next t → NoResetServed s t →
    (t.length = s.length ∧ t.order = s.order ∧ t.pin = s.pin) ∨
    (i.opcode = .init ∧ t.lc = .live ∧ t.responses = ⟨.ok, 0⟩ :: s.responses)

/-- R22, R23, R24, R114: what writes the configuration group, where no reset and no write from outside is served. BRIGHTNESS: SETBRT
and INIT; GAMMA_EN: SETGAMMA; GAMMA_BUILT is never cleared, and is set only by the five commands that evaluate the pipeline with
GAMMA_EN = 1. -/
def Obligations.WritersOfTheConfigurationGroup : Prop :=
  ∀ (s t : State) (i : Instr), exec i s = .next t → NoResetServed s t → NoGroupWriteServed s t →
    (t.group.brightness = s.group.brightness ∨ i.opcode = .setbrt ∨ (i.opcode = .init ∧ t.group.brightness = 255)) ∧
    (t.group.gammaEn = s.group.gammaEn ∨ i.opcode = .setgamma) ∧
    (t.group.gammaBuilt = s.group.gammaBuilt ∨
      (t.group.gammaBuilt = true ∧ s.group.gammaEn = true ∧ i.opcode ∈ [Opcode.setpix, .setpixw, .fill, .fillw, .clear]))

/-- R41, R48, R57: the commands that write the buffer are INIT, SETRAW, SETPIX, SETPIXW, FILL, FILLW and CLEAR; every other one leaves
every byte of it, whatever else but a reset is served meanwhile. -/
def Obligations.OtherCommandsLeaveTheBuffer : Prop :=
  ∀ (s t : State) (i : Instr), exec i s = .next t → NoResetServed s t →
    i.opcode ∉ [Opcode.init, .setraw, .setpix, .setpixw, .fill, .fillw, .clear] → t.buf = s.buf

/-- R32, R153: the buffer's contents before a successful INIT cannot be observed: from two states that differ only in them INIT goes to
two states that agree on every other item and on every byte of the strip. -/
def Obligations.InitHidesTheOldBuffer : Prop :=
  ∀ (s : State) (m : Mem) (l : Word24) (o p : Byte) (t : State), Memory.wf s.buf = true → Memory.wf m = true →
    s.lc = .uninit → s.txq = [] → exec (.init l o p) s = .next t → t.lc = .live →
    ∃ t', exec (.init l o p) { s with buf := m } = .next t' ∧ t' = { t with buf := t'.buf } ∧
      ∀ a, a < 3 * l.toNat → memByte t'.buf a = memByte t.buf a ∧ memByte t.buf a = 0

/-! ### Events -/

/-- R95, R142: a completion event removes the head record and decrements INFLIGHT; with TXQ empty the block takes no step for it. -/
def Obligations.CompletionEventEndsTheOldestTransmission : Prop :=
  ∀ (s : State) (rest : List Input), s.engine = .idle → s.inbox = .event .chDone :: rest →
    (s.txq = [] → step s = .refused .doneWithNothingInFlight) ∧
    ∀ (x : Tx) (q : List Tx), s.txq = x :: q → s.chan = .enabled → x.k = 24 * x.len.toNat + 1 →
      step s = .next { s with
        txq := q, inflight := s.inflight - 1, streams := ⟨x.len, x.sent, true⟩ :: s.streams, inbox := rest }

/-- R34, R86: a pull is served by the oldest record with a symbol left; it hands over symbol `k` of that record, taken from the byte
the generator has read or reads now, and nothing but the record changes. With no such record it is not served. -/
def Obligations.PullServesTheOldestOpenRecord : Prop :=
  ∀ (s : State) (rest : List Input), s.engine = .idle → s.inbox = .event .symPull :: rest →
    ((∀ x ∈ s.txq, 24 * x.len.toNat + 1 ≤ x.k) → step s = .refused .pullWithNothingToServe) ∧
    ∀ (before after : List Tx) (x : Tx) (v : Byte), s.txq = before ++ x :: after →
      (∀ y ∈ before, 24 * y.len.toNat + 1 ≤ y.k) → x.k < 24 * x.len.toNat + 1 → Playable s → x.len = s.length →
      (x.reads.lookup (x.k / 8) = some v ∨ (x.reads.lookup (x.k / 8) = none ∧ v = memByte s.buf (x.k / 8))) →
      ∃ x' : Tx, step s = .next { s with txq := before ++ x' :: after, inbox := rest } ∧
        x'.len = x.len ∧ x'.k = x.k + 1 ∧
        (x.k < 24 * x.len.toNat →
          x'.sent = x.sent ++ [if v.getLsbD (7 - x.k % 8) then data1 s.cfg else data0 s.cfg] ∧
          x'.reads.lookup (x.k / 8) = some v ∧ ∀ j, j ≠ x.k / 8 → x'.reads.lookup j = x.reads.lookup j) ∧
        (x.k = 24 * x.len.toNat → x'.sent = x.sent ++ [resetSymbol s.cfg] ∧ x'.reads = x.reads)

/-- R52, R53: the record at each place of TXQ after an event is the one that stood there before it (one place further on before a
completion event), or the record the event appends. Its read bytes stay as they are, and a newly read byte is a byte of the
transmission and the whole byte that the buffer holds at that moment. -/
def Obligations.GeneratorReadsEachByteOnce : Prop :=
  ∀ (e : Event) (s t : State) (n : Nat) (x : Tx), serveEvent e s = .next t → t.txq[n]? = some x →
    (n = s.txq.length ∧ e = .answer .ok ∧ x = newTx s.length) ∨
    ∃ y, s.txq[if e = .chDone then n + 1 else n]? = some y ∧ x.len = y.len ∧ y.k ≤ x.k ∧
      (∀ j v, y.reads.lookup j = some v → x.reads.lookup j = some v) ∧
      ∀ j v, x.reads.lookup j = some v → y.reads.lookup j = some v ∨ (j < 3 * x.len.toNat ∧ v = memByte s.buf j)

/-- R52, R54: a transmission that races with a change of the buffer can carry every combination, byte by byte, of what the buffer held
before and after the change. With the buffer unchanged it carries the buffer's bytes. -/
def Obligations.RacingTransmissionAdmitsEveryCombination : Prop :=
  ∀ (s : State) (m : Mem) (pick : Nat → Bool), Playable s → s.txq = [newTx s.length] →
    ∃ (reads : List Event) (s1 s2 : State) (x : Tx), serveAll reads s = .next s1 ∧
      serveAll (List.replicate (24 * s.length.toNat + 1) .symPull) { s1 with buf := m } = .next s2 ∧ s2.txq = [x] ∧
      x.sent = encode s.cfg ((List.range (3 * s.length.toNat)).map
        (fun j => if pick j then memByte m j else memByte s.buf j)) ∧
      s2 = { s with buf := m, txq := [x] }

/-- R35, R100, R146: DONE starts the latch timer of a blocking refresh at TRST; while it is idle ticks change nothing; while it waits for
`r` more, fewer than `r` ticks are counted and nothing is answered. That `r` ticks or more end the wait is the model's reading of "at
least TRST ticks" (log 7, log 17). -/
def Obligations.LatchWaitLastsAtLeastItsTicks : Prop :=
  (∀ s : State, s.engine = .blockWait → s.txq = [] → serveEvent (.answer .done) s = .next { s with
    engine := .blockLatch, latchTimer := some s.cfg.trst, chanTrace := .answer .done :: s.chanTrace }) ∧
  ∀ (s : State) (n : Nat),
    (s.latchTimer = none → serveEvent (.ticks n) s = .next s) ∧
    ∀ r, s.latchTimer = some r →
      (n < r → serveEvent (.ticks n) s = .next { s with latchTimer := some (r - n) }) ∧
      (r ≤ n → serveEvent (.ticks n) s = .next (answering .ok 0 { s with latchTimer := none }))

/-- R151, R153: the reset input, in the middle of a command or between two: every item at its reset value, no response, no channel
request; the buffer holds what is drawn, which any contents of its bytes can be. A reset of the system resets every instance and its
group. That with `SHARED` a reset of one block alone leaves the group is the model's reading (log 8); that what was observed stays, a
cut stream as not completed, is its choice (log 12). -/
def Obligations.ResetInputAbandonsTheCommand : Prop :=
  (∀ (s : State) (contents : Mem) (rest : List Input), s.inbox = .event (.reset contents) :: rest →
    ∃ t : State, step s = .next t ∧ t = { State.resetWith s.cfg t.buf with
        group := t.group, responses := s.responses, chanTrace := s.chanTrace, streams := t.streams, inbox := rest } ∧
      (s.cfg.sharing = .perInstance → t.group = ⟨255, false, false⟩) ∧ (s.cfg.sharing = .shared → t.group = s.group) ∧
      t.streams = (s.txq.map (fun x => (⟨x.len, x.sent, false⟩ : EndedStream))).reverse ++ s.streams ∧ BufferInv t ∧
      (Memory.wf contents = true → (∀ c ∈ contents, c.1 < 3 * s.cfg.maxPixels) → t.buf = contents)) ∧
  ∀ (draw : Nat → Mem) (sys : List State), (systemReset draw sys).length = sys.length ∧
    ∀ (n : Nat) (s t : State), sys[n]? = some s → (systemReset draw sys)[n]? = some t →
      t = { State.resetWith s.cfg t.buf with
        responses := s.responses, chanTrace := s.chanTrace, streams := t.streams, inbox := s.inbox } ∧
      t.group = ⟨255, false, false⟩

/-- R38, R60, R148, R159: a step of one instance changes nothing of another but the configuration group, and that only with `SHARED`,
where the other then reads the same group. A write of the group from outside reaches an instance in the middle of a command or
between two, changes just what it writes, and that only with `SHARED`. -/
def Obligations.InstancesShareOnlyTheGroup : Prop :=
  (∀ (sys sys' : List State) (n k : Nat) (s s' a a' : State), systemStep n sys = .next sys' → k ≠ n →
    sys[k]? = some s → sys'[k]? = some s' → sys[n]? = some a → sys'[n]? = some a' →
    step a = .next a' ∧ s' = { s with group := s'.group } ∧
    (s.cfg.sharing = .perInstance → s' = s) ∧
    (s.cfg.sharing = .shared → a.cfg.sharing = .shared → s'.group = a'.group)) ∧
  ∀ s : State,
    (∀ w, s.cfg.sharing = .perInstance → serveEvent (.groupWrite w) s = .next s) ∧
    (s.cfg.sharing = .shared →
      (∀ bri, serveEvent (.groupWrite (.brightness bri)) s = .next { s with group := { s.group with brightness := bri } }) ∧
      (∀ en, serveEvent (.groupWrite (.gammaEnable en)) s = .next { s with group := { s.group with gammaEn := en } }) ∧
      serveEvent (.groupWrite .gammaUse) s =
        .next { s with group := { s.group with gammaBuilt := s.group.gammaBuilt || s.group.gammaEn } } ∧
      serveEvent (.groupWrite .systemReset) s = .next { s with group := ⟨255, false, false⟩ })

/-! ### The protocol encoder -/

/-- R75, R80: the three symbol words, for the default parameters and as formulas. -/
def Obligations.SymbolWordsAreThoseOfTheTable : Prop :=
  data0 Config.default = 0x00088004 ∧ data1 Config.default = 0x00048008 ∧ resetSymbol Config.default = 0x02580000 ∧
  ∀ cfg : Config,
    data0 cfg = 0#1 ++ BitVec.ofNat 15 cfg.t0l ++ 1#1 ++ 4#15 ∧ data1 cfg = 0#1 ++ BitVec.ofNat 15 cfg.t1l ++ 1#1 ++ 8#15 ∧
    resetSymbol cfg = 0#1 ++ BitVec.ofNat 15 cfg.trst ++ 0#1 ++ 0#15 ∧
    ∀ (bytes : List Byte), ∀ w ∈ encode cfg bytes, w = data0 cfg ∨ w = data1 cfg ∨ w = resetSymbol cfg

/-- R83: `encode` of `n` bytes has `8*n + 1` symbols; symbol `k < 8*n` encodes bit `7 - (k mod 8)` of byte `k / 8`, and symbol `8*n` is
RESET. -/
def Obligations.EncodeIndexesEveryBitOnce : Prop :=
  ∀ (cfg : Config) (bytes : List Byte),
    (encode cfg bytes).length = 8 * bytes.length + 1 ∧
    (∀ (k : Nat) (v : Byte), bytes[k / 8]? = some v →
      (encode cfg bytes)[k]? = some (if v.getLsbD (7 - k % 8) then data1 cfg else data0 cfg)) ∧
    (encode cfg bytes)[8 * bytes.length]? = some (resetSymbol cfg) ∧
    ∀ l : Word24, bytes.length = 3 * l.toNat → (encode cfg bytes).length = 24 * l.toNat + 1

/-- R74, R87: the waveform of a symbol sequence plays its symbols one after the other with no gap; a data symbol is high for its high
ticks and low for its low ticks, RESET is low for TRST ticks, and before the first symbol and after the last the line is low. Ticks
count from the start of the first symbol. -/
def Obligations.WaveformPlaysTheSymbolsWithoutGap : Prop :=
  (∀ (xs ys : List SymbolWord) (t : Int), lineLevel (waveform (xs ++ ys)) t =
    if t < waveformTicks (waveform xs) then lineLevel (waveform xs) t
    else lineLevel (waveform ys) (t - waveformTicks (waveform xs))) ∧
  (∀ (xs : List SymbolWord) (t : Int), (t < 0 ∨ waveformTicks (waveform xs) ≤ t) → lineLevel (waveform xs) t = false) ∧
  (∀ (w : SymbolWord) (t : Int), 0 ≤ t →
    lineLevel (waveform [w]) t =
      if t < (w.extractLsb' 0 15).toNat then w.getLsbD 15
      else if t < (w.extractLsb' 0 15).toNat + (w.extractLsb' 16 15).toNat then w.getLsbD 31 else false) ∧
  ∀ cfg : Config, cfg.wf →
    waveform [data0 cfg] = [(true, 4), (false, cfg.t0l)] ∧ waveform [data1 cfg] = [(true, 8), (false, cfg.t1l)] ∧
    waveform [resetSymbol cfg] = [(false, 0), (false, cfg.trst)] ∧ 600 ≤ cfg.trst

/-- R88: the periods of the two bits, the time of a byte and the time of a frame, as formulas and with the default parameters. -/
def Obligations.FrameTimeFollowsFromItsBits : Prop :=
  ∀ cfg : Config, cfg.wf →
    waveformTicks (waveform [data0 cfg]) = 4 + cfg.t0l ∧ waveformTicks (waveform [data1 cfg]) = 8 + cfg.t1l ∧
    (∀ v : Byte, waveformTicks (waveform (encodeByte cfg v)) = oneBits v * (8 + cfg.t1l) + (8 - oneBits v) * (4 + cfg.t0l)) ∧
    ∀ (bytes : List Byte) (l : Nat), bytes.length = 3 * l →
      waveformTicks (waveform (encode cfg bytes)) =
        (bytes.map oneBits).sum * (8 + cfg.t1l) + (24 * l - (bytes.map oneBits).sum) * (4 + cfg.t0l) + cfg.trst ∧
      (cfg = Config.default → waveformTicks (waveform (encode cfg bytes)) = 288 * l + 600)

/-! ### The colour functions -/

/-- R108: minimum-channel extraction; no subtraction underflows and at least one of the three results is 0. -/
def Obligations.RgbToRgbwExtractsTheMinimum : Prop :=
  ∀ c : Color,
    (rgbToRgbw c).w.toNat = min c.r.toNat (min c.g.toNat c.b.toNat) ∧
    (rgbToRgbw c).r.toNat + (rgbToRgbw c).w.toNat = c.r.toNat ∧ (rgbToRgbw c).g.toNat + (rgbToRgbw c).w.toNat = c.g.toNat ∧
    (rgbToRgbw c).b.toNat + (rgbToRgbw c).w.toNat = c.b.toNat ∧
    ((rgbToRgbw c).r = 0 ∨ (rgbToRgbw c).g = 0 ∨ (rgbToRgbw c).b = 0)

/-- R109, R121: additive recombination, each sum exact before it saturates at 255. -/
def Obligations.RgbwToRgbSaturatesEachSum : Prop :=
  ∀ c : ColorW,
    (rgbwToRgb c).r.toNat = min 255 (c.r.toNat + c.w.toNat) ∧ (rgbwToRgb c).g.toNat = min 255 (c.g.toNat + c.w.toNat) ∧
    (rgbwToRgb c).b.toNat = min 255 (c.b.toNat + c.w.toNat)

/-- R111: every entry of the LUT is `round_half_up(255 * (c/255)^2.2)` in exact real arithmetic; no value is an exact half; the table
starts at 0, ends at 255 and never decreases. -/
def Obligations.GammaTableIsTheRoundedPower : Prop :=
  (∀ c : Byte, ((gammaLut c).toNat : ℤ) = ⌊(255 : ℝ) * ((c.toNat : ℝ) / 255) ^ (2.2 : ℝ) + 1 / 2⌋) ∧
  (∀ (c : Byte) (n : ℤ), (255 : ℝ) * ((c.toNat : ℝ) / 255) ^ (2.2 : ℝ) ≠ (n : ℝ) + 1 / 2) ∧
  gammaLut 0 = 0 ∧ gammaLut 255 = 255 ∧
  ∀ c d : Byte, c.toNat ≤ d.toNat → (gammaLut c).toNat ≤ (gammaLut d).toNat

/-- R115, R116: the brightness step is the exact floor division by 255, at most its input, the identity at 255 and 0 at 0. -/
def Obligations.BrightnessStepIsExactFloorDivision : Prop :=
  ∀ bri c : Byte,
    (brightStep bri c).toNat = c.toNat * bri.toNat / 255 ∧ (brightStep bri c).toNat ≤ c.toNat ∧
    brightStep 255 c = c ∧ brightStep 0 c = 0 ∧ (bri ≠ 255 → c.toNat * bri.toNat ≤ 64770)

/-- R113, R117, R118, R119: the pipeline applies gamma if it is on, then brightness, to each lane alone, and puts the lanes in the
channel order; for c = 128 and BRIGHTNESS = 128 the two steps do not commute. -/
def Obligations.PipelineIsGammaThenBrightnessThenOrder : Prop :=
  (∀ (g : ConfigGroup) (c : Color), ∃ f : Byte → Byte,
    (∀ v, f v = if g.gammaEn then brightStep g.brightness (gammaLut v) else brightStep g.brightness v) ∧
    pipeline g .rgb c = ⟨f c.r, f c.g, f c.b⟩ ∧ pipeline g .grb c = ⟨f c.g, f c.r, f c.b⟩ ∧
    pipeline g .brg c = ⟨f c.b, f c.r, f c.g⟩) ∧
  brightStep 128 (gammaLut 128) = 28 ∧ gammaLut (brightStep 128 128) = 12

/-- R132: the source's four laws of the colour functions. -/
def Obligations.ColourLawsOfTheSourceHold : Prop :=
  (∀ c : Color, rgbwToRgb (rgbToRgbw c) = c ∧ rgbToRgbw (rgbwToRgb (rgbToRgbw c)) = rgbToRgbw c) ∧
  (∀ d : ColorW, (255 < d.r.toNat + d.w.toNat ∨ 255 < d.g.toNat + d.w.toNat ∨ 255 < d.b.toNat + d.w.toNat ∨
    (0 < d.w.toNat ∧ d.r ≠ 0 ∧ d.g ≠ 0 ∧ d.b ≠ 0)) → rgbToRgbw (rgbwToRgb d) ≠ d) ∧
  (∀ (e built : Bool) (o : ChannelOrder) (c : Color), pipeline ⟨255, e, built⟩ o c =
    permute o ⟨gammaStep e c.r, gammaStep e c.g, gammaStep e c.b⟩) ∧
  (∀ (e built : Bool) (o : ChannelOrder) (c : Color), pipeline ⟨0, e, built⟩ o c = ⟨0, 0, 0⟩) ∧
  (∀ built : Bool, pipeline ⟨255, false, built⟩ .grb ⟨10, 20, 30⟩ = ⟨20, 10, 30⟩) ∧
  ∀ built : Bool, pipeline ⟨255, true, built⟩ .grb ⟨10, 20, 30⟩ = ⟨1, 0, 2⟩

/-! ### The host's notation -/

/-- R72, R73: the assembler gives a command exactly for the forms of the two tables, each operand's number the whole value of its field;
so an operand that does not fit its field, in any form, gives no command. A line gives the command of its mnemonic and the numbers its
operands read as; a number reads digit by digit, with no digit dropped; and lines for each kind of form. That blanks around operands are
ignored, and that hexadecimal digits may be of either case, is the model's choice (log 10). -/
def Obligations.AssemblerRefusesWhatDoesNotFit : Prop :=
  (∀ (mnemonic : String) (operands : List Nat) (i : Instr),
    assembleNumeric mnemonic operands = some i ↔ AsmForm mnemonic operands i) ∧
  (∀ (line : List Char) (i : Instr), assemble line = some i ↔
    ∃ mnemonic operands, parseLine line = some (mnemonic, operands) ∧ AsmForm mnemonic operands i) ∧
  (∀ base : Nat, readDigits base 0 [] = some 0 ∧ ∀ (cs : List Char) (c : Char) (v d : Nat),
    readDigits base 0 cs = some v → digitValue c = some d → d < base → readDigits base 0 (cs ++ [c]) = some (base * v + d)) ∧
  assemble "INIT 3, RGB, 18".toList = some (.init 3 0 18) ∧ assemble "READREG TIMING0".toList = some (.readreg 9) ∧
  assemble "SETRAW 0, 0xABCDEF".toList = some (.setraw 0 0xABCDEF) ∧ assemble "SHOW".toList = some .refresh ∧
  assemble "FILLC 10, 20, 30".toList = some (.fill ⟨10, 20, 30⟩) ∧ assemble "SETBRT 256".toList = none ∧
  assemble "FILL 0x1000000".toList = none ∧ assemble "INIT 3, 256, 18".toList = none
end

