-- ==== Sys2Proof/Laws/Codec.lean ====
section
/-! SUPPORT. The laws of the fields: the three fields of an encoded command read back, and every packing unpacks to what it
packed. -/

namespace Sys2Proof.Laws

theorem fieldOpc_pack (o : Byte) (a : Word24) (b : Word32) : fieldOpc (o ++ a ++ b) = o := by
  unfold fieldOpc
  apply BitVec.eq_of_getLsbD_eq
  intro i hi
  simp only [BitVec.getLsbD_extractLsb', BitVec.getLsbD_append]
  rw [if_neg (by omega), if_neg (by omega)]
  simp [hi, show 56 + i - 32 - 24 = i by omega]

theorem fieldA_pack (o : Byte) (a : Word24) (b : Word32) : fieldA (o ++ a ++ b) = a := by
  unfold fieldA
  apply BitVec.eq_of_getLsbD_eq
  intro i hi
  simp only [BitVec.getLsbD_extractLsb', BitVec.getLsbD_append]
  rw [if_neg (by omega), if_pos (by omega)]
  simp [hi, show 32 + i - 32 = i by omega]

theorem fieldB_pack (o : Byte) (a : Word24) (b : Word32) : fieldB (o ++ a ++ b) = b := by
  unfold fieldB
  apply BitVec.eq_of_getLsbD_eq
  intro i hi
  simp only [BitVec.getLsbD_extractLsb', BitVec.getLsbD_append]
  rw [if_pos (by omega)]
  simp [hi]

theorem fieldOpc_encode (i : Instr) : fieldOpc (encode i) = opcodeValue i.opcode := fieldOpc_pack ..
theorem fieldA_encode (i : Instr) : fieldA (encode i) = operandA i := fieldA_pack ..
theorem fieldB_encode (i : Instr) : fieldB (encode i) = operandB i := fieldB_pack ..

/-- The low bytes below zeros read back. -/
theorem low_of_append {n m : Nat} (z : BitVec n) (v : BitVec m) : (z ++ v).extractLsb' 0 m = v := by
  apply BitVec.eq_of_getLsbD_eq
  intro i hi
  simp only [BitVec.getLsbD_extractLsb', BitVec.getLsbD_append]
  rw [if_pos (by omega)]
  simp [hi]

theorem unpackRgb24_pack (c : Color) : unpackRgb24 (packRgb24 c) = c := by
  obtain ⟨r, g, b⟩ := c
  simp only [unpackRgb24, packRgb24, Color.mk.injEq]
  refine ⟨?_, ?_, ?_⟩ <;> apply BitVec.eq_of_getLsbD_eq <;> intro i hi <;>
    simp only [BitVec.getLsbD_extractLsb', BitVec.getLsbD_append]
  · rw [if_neg (by omega), if_neg (by omega)]
    simp [hi, show 16 + i - 8 - 8 = i by omega]
  · rw [if_neg (by omega), if_pos (by omega)]
    simp [hi, show 8 + i - 8 = i by omega]
  · rw [if_pos (by omega)]
    simp [hi]

theorem unpackWrgb32_pack (c : ColorW) : unpackWrgb32 (packWrgb32 c) = c := by
  obtain ⟨r, g, b, w⟩ := c
  simp only [unpackWrgb32, packWrgb32, ColorW.mk.injEq]
  refine ⟨?_, ?_, ?_, ?_⟩ <;> apply BitVec.eq_of_getLsbD_eq <;> intro i hi <;>
    simp only [BitVec.getLsbD_extractLsb', BitVec.getLsbD_append]
  · rw [if_neg (by omega), if_neg (by omega), if_pos (by omega)]
    simp [hi, show 16 + i - 8 - 8 = i by omega]
  · rw [if_neg (by omega), if_pos (by omega)]
    simp [hi, show 8 + i - 8 = i by omega]
  · rw [if_pos (by omega)]
    simp [hi]
  · rw [if_neg (by omega), if_neg (by omega), if_neg (by omega)]
    simp [hi, show 24 + i - 8 - 8 - 8 = i by omega]

/-- The channels of an RGB24 word pack to the word. -/
theorem packRgb24_unpack (v : Word24) : packRgb24 (unpackRgb24 v) = v := by
  apply BitVec.eq_of_getLsbD_eq
  intro i hi
  simp only [packRgb24, unpackRgb24, BitVec.getLsbD_append, BitVec.getLsbD_extractLsb']
  split
  · simp [*]
  · split
    · simp [show 8 + (i - 8) = i by omega]; omega
    · simp [show 16 + (i - 8 - 8) = i by omega]; omega

/-- The channels of a WRGB32 word pack to the word. -/
theorem packWrgb32_unpack (v : Word32) : packWrgb32 (unpackWrgb32 v) = v := by
  apply BitVec.eq_of_getLsbD_eq
  intro i hi
  simp only [packWrgb32, unpackWrgb32, BitVec.getLsbD_append, BitVec.getLsbD_extractLsb']
  split
  · simp [*]
  · split
    · simp [show 8 + (i - 8) = i by omega]; omega
    · split
      · simp [show 16 + (i - 8 - 8) = i by omega]; omega
      · simp [show 24 + (i - 8 - 8 - 8) = i by omega]; omega

/-- Each OPC value names its own opcode (R67). -/
theorem opcodeOfValue_opcodeValue (op : Opcode) : opcodeOfValue (opcodeValue op) = some op := by
  cases op <;> decide

/-- An opcode that is found has that OPC value (R67). -/
theorem opcodeValue_of_found {c : Byte} {op : Opcode} (h : opcodeOfValue c = some op) : opcodeValue op = c := by
  have := List.find?_some h
  simpa using this

end Sys2Proof.Laws
end

