-- ==== Sys2Proof/Laws/State.lean ====
section
/-! SUPPORT. One lemma for each field of State and each shared update: what the field holds afterwards. -/

namespace Sys2Proof.Laws
open Sys2Proof.Machine

/-! ### respond -/

@[simp] theorem respond_cfg (status : Status) (data : Word32) (s : State) :
    (respond status data s).cfg = s.cfg := rfl

@[simp] theorem respond_lc (status : Status) (data : Word32) (s : State) :
    (respond status data s).lc = s.lc := rfl

@[simp] theorem respond_length (status : Status) (data : Word32) (s : State) :
    (respond status data s).length = s.length := rfl

@[simp] theorem respond_order (status : Status) (data : Word32) (s : State) :
    (respond status data s).order = s.order := rfl

@[simp] theorem respond_group (status : Status) (data : Word32) (s : State) :
    (respond status data s).group = s.group := rfl

@[simp] theorem respond_inflight (status : Status) (data : Word32) (s : State) :
    (respond status data s).inflight = s.inflight := rfl

@[simp] theorem respond_pin (status : Status) (data : Word32) (s : State) :
    (respond status data s).pin = s.pin := rfl

@[simp] theorem respond_chan (status : Status) (data : Word32) (s : State) :
    (respond status data s).chan = s.chan := rfl

@[simp] theorem respond_bufAlloc (status : Status) (data : Word32) (s : State) :
    (respond status data s).bufAlloc = s.bufAlloc := rfl

@[simp] theorem respond_buf (status : Status) (data : Word32) (s : State) :
    (respond status data s).buf = s.buf := rfl

@[simp] theorem respond_txq (status : Status) (data : Word32) (s : State) :
    (respond status data s).txq = s.txq := rfl

@[simp] theorem respond_latchTimer (status : Status) (data : Word32) (s : State) :
    (respond status data s).latchTimer = s.latchTimer := rfl

@[simp] theorem respond_engine (status : Status) (data : Word32) (s : State) :
    (respond status data s).engine = .idle := rfl

@[simp] theorem respond_responses (status : Status) (data : Word32) (s : State) :
    (respond status data s).responses = ⟨status, data⟩ :: s.responses := rfl

@[simp] theorem respond_chanTrace (status : Status) (data : Word32) (s : State) :
    (respond status data s).chanTrace = s.chanTrace := rfl

@[simp] theorem respond_streams (status : Status) (data : Word32) (s : State) :
    (respond status data s).streams = s.streams := rfl

@[simp] theorem respond_inbox (status : Status) (data : Word32) (s : State) :
    (respond status data s).inbox = s.inbox := rfl

/-! ### sendRequest -/

@[simp] theorem sendRequest_cfg (r : ChannelRequest) (p : Engine) (s : State) :
    (sendRequest r p s).cfg = s.cfg := rfl

@[simp] theorem sendRequest_lc (r : ChannelRequest) (p : Engine) (s : State) :
    (sendRequest r p s).lc = s.lc := rfl

@[simp] theorem sendRequest_length (r : ChannelRequest) (p : Engine) (s : State) :
    (sendRequest r p s).length = s.length := rfl

@[simp] theorem sendRequest_order (r : ChannelRequest) (p : Engine) (s : State) :
    (sendRequest r p s).order = s.order := rfl

@[simp] theorem sendRequest_group (r : ChannelRequest) (p : Engine) (s : State) :
    (sendRequest r p s).group = s.group := rfl

@[simp] theorem sendRequest_inflight (r : ChannelRequest) (p : Engine) (s : State) :
    (sendRequest r p s).inflight = s.inflight := rfl

@[simp] theorem sendRequest_pin (r : ChannelRequest) (p : Engine) (s : State) :
    (sendRequest r p s).pin = s.pin := rfl

@[simp] theorem sendRequest_chan (r : ChannelRequest) (p : Engine) (s : State) :
    (sendRequest r p s).chan = s.chan := rfl

@[simp] theorem sendRequest_bufAlloc (r : ChannelRequest) (p : Engine) (s : State) :
    (sendRequest r p s).bufAlloc = s.bufAlloc := rfl

@[simp] theorem sendRequest_buf (r : ChannelRequest) (p : Engine) (s : State) :
    (sendRequest r p s).buf = s.buf := rfl

@[simp] theorem sendRequest_txq (r : ChannelRequest) (p : Engine) (s : State) :
    (sendRequest r p s).txq = s.txq := rfl

@[simp] theorem sendRequest_latchTimer (r : ChannelRequest) (p : Engine) (s : State) :
    (sendRequest r p s).latchTimer = s.latchTimer := rfl

@[simp] theorem sendRequest_engine (r : ChannelRequest) (p : Engine) (s : State) :
    (sendRequest r p s).engine = p := rfl

@[simp] theorem sendRequest_responses (r : ChannelRequest) (p : Engine) (s : State) :
    (sendRequest r p s).responses = s.responses := rfl

@[simp] theorem sendRequest_chanTrace (r : ChannelRequest) (p : Engine) (s : State) :
    (sendRequest r p s).chanTrace = .request r :: s.chanTrace := rfl

@[simp] theorem sendRequest_streams (r : ChannelRequest) (p : Engine) (s : State) :
    (sendRequest r p s).streams = s.streams := rfl

@[simp] theorem sendRequest_inbox (r : ChannelRequest) (p : Engine) (s : State) :
    (sendRequest r p s).inbox = s.inbox := rfl

/-! ### acceptTransmission -/

@[simp] theorem acceptTransmission_cfg (s : State) :
    (acceptTransmission s).cfg = s.cfg := rfl

@[simp] theorem acceptTransmission_lc (s : State) :
    (acceptTransmission s).lc = s.lc := rfl

@[simp] theorem acceptTransmission_length (s : State) :
    (acceptTransmission s).length = s.length := rfl

@[simp] theorem acceptTransmission_order (s : State) :
    (acceptTransmission s).order = s.order := rfl

@[simp] theorem acceptTransmission_group (s : State) :
    (acceptTransmission s).group = s.group := rfl

@[simp] theorem acceptTransmission_inflight (s : State) :
    (acceptTransmission s).inflight = s.inflight + 1 := rfl

@[simp] theorem acceptTransmission_pin (s : State) :
    (acceptTransmission s).pin = s.pin := rfl

@[simp] theorem acceptTransmission_chan (s : State) :
    (acceptTransmission s).chan = s.chan := rfl

@[simp] theorem acceptTransmission_bufAlloc (s : State) :
    (acceptTransmission s).bufAlloc = s.bufAlloc := rfl

@[simp] theorem acceptTransmission_buf (s : State) :
    (acceptTransmission s).buf = s.buf := rfl

@[simp] theorem acceptTransmission_txq (s : State) :
    (acceptTransmission s).txq = s.txq ++ [newTx s.length] := rfl

@[simp] theorem acceptTransmission_latchTimer (s : State) :
    (acceptTransmission s).latchTimer = s.latchTimer := rfl

@[simp] theorem acceptTransmission_engine (s : State) :
    (acceptTransmission s).engine = s.engine := rfl

@[simp] theorem acceptTransmission_responses (s : State) :
    (acceptTransmission s).responses = s.responses := rfl

@[simp] theorem acceptTransmission_chanTrace (s : State) :
    (acceptTransmission s).chanTrace = s.chanTrace := rfl

@[simp] theorem acceptTransmission_streams (s : State) :
    (acceptTransmission s).streams = s.streams := rfl

@[simp] theorem acceptTransmission_inbox (s : State) :
    (acceptTransmission s).inbox = s.inbox := rfl

/-! ### finishInit -/

@[simp] theorem finishInit_cfg (l : Word24) (o p : Byte) (s : State) :
    (finishInit l o p s).cfg = s.cfg := rfl

@[simp] theorem finishInit_lc (l : Word24) (o p : Byte) (s : State) :
    (finishInit l o p s).lc = .live := rfl

@[simp] theorem finishInit_length (l : Word24) (o p : Byte) (s : State) :
    (finishInit l o p s).length = l := rfl

@[simp] theorem finishInit_order (l : Word24) (o p : Byte) (s : State) :
    (finishInit l o p s).order = orderOfOperand o := rfl

@[simp] theorem finishInit_group (l : Word24) (o p : Byte) (s : State) :
    (finishInit l o p s).group = { s.group with brightness := 255 } := rfl

@[simp] theorem finishInit_inflight (l : Word24) (o p : Byte) (s : State) :
    (finishInit l o p s).inflight = s.inflight := rfl

@[simp] theorem finishInit_pin (l : Word24) (o p : Byte) (s : State) :
    (finishInit l o p s).pin = p := rfl

@[simp] theorem finishInit_chan (l : Word24) (o p : Byte) (s : State) :
    (finishInit l o p s).chan = .enabled := rfl

@[simp] theorem finishInit_bufAlloc (l : Word24) (o p : Byte) (s : State) :
    (finishInit l o p s).bufAlloc = s.bufAlloc := rfl

@[simp] theorem finishInit_buf (l : Word24) (o p : Byte) (s : State) :
    (finishInit l o p s).buf = s.buf := rfl

@[simp] theorem finishInit_txq (l : Word24) (o p : Byte) (s : State) :
    (finishInit l o p s).txq = s.txq := rfl

@[simp] theorem finishInit_latchTimer (l : Word24) (o p : Byte) (s : State) :
    (finishInit l o p s).latchTimer = s.latchTimer := rfl

@[simp] theorem finishInit_engine (l : Word24) (o p : Byte) (s : State) :
    (finishInit l o p s).engine = .idle := rfl

@[simp] theorem finishInit_responses (l : Word24) (o p : Byte) (s : State) :
    (finishInit l o p s).responses = ⟨.ok, 0⟩ :: s.responses := rfl

@[simp] theorem finishInit_chanTrace (l : Word24) (o p : Byte) (s : State) :
    (finishInit l o p s).chanTrace = s.chanTrace := rfl

@[simp] theorem finishInit_streams (l : Word24) (o p : Byte) (s : State) :
    (finishInit l o p s).streams = s.streams := rfl

@[simp] theorem finishInit_inbox (l : Word24) (o p : Byte) (s : State) :
    (finishInit l o p s).inbox = s.inbox := rfl

/-! ### finishFree -/

@[simp] theorem finishFree_cfg (s : State) :
    (finishFree s).cfg = s.cfg := rfl

@[simp] theorem finishFree_lc (s : State) :
    (finishFree s).lc = .freed := rfl

@[simp] theorem finishFree_length (s : State) :
    (finishFree s).length = s.length := rfl

@[simp] theorem finishFree_order (s : State) :
    (finishFree s).order = s.order := rfl

@[simp] theorem finishFree_group (s : State) :
    (finishFree s).group = s.group := rfl

@[simp] theorem finishFree_inflight (s : State) :
    (finishFree s).inflight = 0 := rfl

@[simp] theorem finishFree_pin (s : State) :
    (finishFree s).pin = s.pin := rfl

@[simp] theorem finishFree_chan (s : State) :
    (finishFree s).chan = .none := rfl

@[simp] theorem finishFree_bufAlloc (s : State) :
    (finishFree s).bufAlloc = false := rfl

@[simp] theorem finishFree_buf (s : State) :
    (finishFree s).buf = s.buf := rfl

@[simp] theorem finishFree_txq (s : State) :
    (finishFree s).txq = [] := rfl

@[simp] theorem finishFree_latchTimer (s : State) :
    (finishFree s).latchTimer = s.latchTimer := rfl

@[simp] theorem finishFree_engine (s : State) :
    (finishFree s).engine = .idle := rfl

@[simp] theorem finishFree_responses (s : State) :
    (finishFree s).responses = ⟨.ok, 0⟩ :: s.responses := rfl

@[simp] theorem finishFree_chanTrace (s : State) :
    (finishFree s).chanTrace = s.chanTrace := rfl

@[simp] theorem finishFree_streams (s : State) :
    (finishFree s).streams = cutStreams s.txq ++ s.streams := rfl

@[simp] theorem finishFree_inbox (s : State) :
    (finishFree s).inbox = s.inbox := rfl

/-! ### storePixel -/

@[simp] theorem storePixel_cfg (i : Word24) (c : Color) (s : State) :
    (storePixel i c s).cfg = s.cfg := rfl

@[simp] theorem storePixel_lc (i : Word24) (c : Color) (s : State) :
    (storePixel i c s).lc = s.lc := rfl

@[simp] theorem storePixel_length (i : Word24) (c : Color) (s : State) :
    (storePixel i c s).length = s.length := rfl

@[simp] theorem storePixel_order (i : Word24) (c : Color) (s : State) :
    (storePixel i c s).order = s.order := rfl

@[simp] theorem storePixel_group (i : Word24) (c : Color) (s : State) :
    (storePixel i c s).group = groupAfterUse s.group := rfl

@[simp] theorem storePixel_inflight (i : Word24) (c : Color) (s : State) :
    (storePixel i c s).inflight = s.inflight := rfl

@[simp] theorem storePixel_pin (i : Word24) (c : Color) (s : State) :
    (storePixel i c s).pin = s.pin := rfl

@[simp] theorem storePixel_chan (i : Word24) (c : Color) (s : State) :
    (storePixel i c s).chan = s.chan := rfl

@[simp] theorem storePixel_bufAlloc (i : Word24) (c : Color) (s : State) :
    (storePixel i c s).bufAlloc = s.bufAlloc := rfl

@[simp] theorem storePixel_buf (i : Word24) (c : Color) (s : State) :
    (storePixel i c s).buf = setPixel s.buf i.toNat (pipeline s.group s.order c) := rfl

@[simp] theorem storePixel_txq (i : Word24) (c : Color) (s : State) :
    (storePixel i c s).txq = s.txq := rfl

@[simp] theorem storePixel_latchTimer (i : Word24) (c : Color) (s : State) :
    (storePixel i c s).latchTimer = s.latchTimer := rfl

@[simp] theorem storePixel_engine (i : Word24) (c : Color) (s : State) :
    (storePixel i c s).engine = s.engine := rfl

@[simp] theorem storePixel_responses (i : Word24) (c : Color) (s : State) :
    (storePixel i c s).responses = s.responses := rfl

@[simp] theorem storePixel_chanTrace (i : Word24) (c : Color) (s : State) :
    (storePixel i c s).chanTrace = s.chanTrace := rfl

@[simp] theorem storePixel_streams (i : Word24) (c : Color) (s : State) :
    (storePixel i c s).streams = s.streams := rfl

@[simp] theorem storePixel_inbox (i : Word24) (c : Color) (s : State) :
    (storePixel i c s).inbox = s.inbox := rfl

/-! ### storeAll -/

@[simp] theorem storeAll_cfg (c : Color) (s : State) :
    (storeAll c s).cfg = s.cfg := rfl

@[simp] theorem storeAll_lc (c : Color) (s : State) :
    (storeAll c s).lc = s.lc := rfl

@[simp] theorem storeAll_length (c : Color) (s : State) :
    (storeAll c s).length = s.length := rfl

@[simp] theorem storeAll_order (c : Color) (s : State) :
    (storeAll c s).order = s.order := rfl

@[simp] theorem storeAll_group (c : Color) (s : State) :
    (storeAll c s).group = groupAfterUse s.group := rfl

@[simp] theorem storeAll_inflight (c : Color) (s : State) :
    (storeAll c s).inflight = s.inflight := rfl

@[simp] theorem storeAll_pin (c : Color) (s : State) :
    (storeAll c s).pin = s.pin := rfl

@[simp] theorem storeAll_chan (c : Color) (s : State) :
    (storeAll c s).chan = s.chan := rfl

@[simp] theorem storeAll_bufAlloc (c : Color) (s : State) :
    (storeAll c s).bufAlloc = s.bufAlloc := rfl

@[simp] theorem storeAll_buf (c : Color) (s : State) :
    (storeAll c s).buf = fillPixels (pipeline s.group s.order c) s.length.toNat s.buf := rfl

@[simp] theorem storeAll_txq (c : Color) (s : State) :
    (storeAll c s).txq = s.txq := rfl

@[simp] theorem storeAll_latchTimer (c : Color) (s : State) :
    (storeAll c s).latchTimer = s.latchTimer := rfl

@[simp] theorem storeAll_engine (c : Color) (s : State) :
    (storeAll c s).engine = s.engine := rfl

@[simp] theorem storeAll_responses (c : Color) (s : State) :
    (storeAll c s).responses = s.responses := rfl

@[simp] theorem storeAll_chanTrace (c : Color) (s : State) :
    (storeAll c s).chanTrace = s.chanTrace := rfl

@[simp] theorem storeAll_streams (c : Color) (s : State) :
    (storeAll c s).streams = s.streams := rfl

@[simp] theorem storeAll_inbox (c : Color) (s : State) :
    (storeAll c s).inbox = s.inbox := rfl

/-! ### afterReset -/

@[simp] theorem afterReset_cfg (m : Mem) (s : State) :
    (afterReset m s).cfg = s.cfg := rfl

@[simp] theorem afterReset_lc (m : Mem) (s : State) :
    (afterReset m s).lc = .uninit := rfl

@[simp] theorem afterReset_length (m : Mem) (s : State) :
    (afterReset m s).length = 0 := rfl

@[simp] theorem afterReset_order (m : Mem) (s : State) :
    (afterReset m s).order = .grb := rfl

@[simp] theorem afterReset_group (m : Mem) (s : State) :
    (afterReset m s).group = if s.cfg.sharing = .shared then s.group else .reset := rfl

@[simp] theorem afterReset_inflight (m : Mem) (s : State) :
    (afterReset m s).inflight = 0 := rfl

@[simp] theorem afterReset_pin (m : Mem) (s : State) :
    (afterReset m s).pin = 0 := rfl

@[simp] theorem afterReset_chan (m : Mem) (s : State) :
    (afterReset m s).chan = .none := rfl

@[simp] theorem afterReset_bufAlloc (m : Mem) (s : State) :
    (afterReset m s).bufAlloc = false := rfl

@[simp] theorem afterReset_buf (m : Mem) (s : State) :
    (afterReset m s).buf = drawnBuffer (3 * s.cfg.maxPixels) m := rfl

@[simp] theorem afterReset_txq (m : Mem) (s : State) :
    (afterReset m s).txq = [] := rfl

@[simp] theorem afterReset_latchTimer (m : Mem) (s : State) :
    (afterReset m s).latchTimer = none := rfl

@[simp] theorem afterReset_engine (m : Mem) (s : State) :
    (afterReset m s).engine = .idle := rfl

@[simp] theorem afterReset_responses (m : Mem) (s : State) :
    (afterReset m s).responses = s.responses := rfl

@[simp] theorem afterReset_chanTrace (m : Mem) (s : State) :
    (afterReset m s).chanTrace = s.chanTrace := rfl

@[simp] theorem afterReset_streams (m : Mem) (s : State) :
    (afterReset m s).streams = cutStreams s.txq ++ s.streams := rfl

@[simp] theorem afterReset_inbox (m : Mem) (s : State) :
    (afterReset m s).inbox = s.inbox := rfl

/-! ### withFetchWord -/

@[simp] theorem withFetchWord_cfg (s : State) (n w : Nat) :
    (s.withFetchWord n w).cfg = s.cfg := rfl

@[simp] theorem withFetchWord_lc (s : State) (n w : Nat) :
    (s.withFetchWord n w).lc = s.lc := rfl

@[simp] theorem withFetchWord_length (s : State) (n w : Nat) :
    (s.withFetchWord n w).length = s.length := rfl

@[simp] theorem withFetchWord_order (s : State) (n w : Nat) :
    (s.withFetchWord n w).order = s.order := rfl

@[simp] theorem withFetchWord_group (s : State) (n w : Nat) :
    (s.withFetchWord n w).group = s.group := rfl

@[simp] theorem withFetchWord_inflight (s : State) (n w : Nat) :
    (s.withFetchWord n w).inflight = s.inflight := rfl

@[simp] theorem withFetchWord_pin (s : State) (n w : Nat) :
    (s.withFetchWord n w).pin = s.pin := rfl

@[simp] theorem withFetchWord_chan (s : State) (n w : Nat) :
    (s.withFetchWord n w).chan = s.chan := rfl

@[simp] theorem withFetchWord_bufAlloc (s : State) (n w : Nat) :
    (s.withFetchWord n w).bufAlloc = s.bufAlloc := rfl

@[simp] theorem withFetchWord_buf (s : State) (n w : Nat) :
    (s.withFetchWord n w).buf = s.buf := rfl

@[simp] theorem withFetchWord_txq (s : State) (n w : Nat) :
    (s.withFetchWord n w).txq = s.txq := rfl

@[simp] theorem withFetchWord_latchTimer (s : State) (n w : Nat) :
    (s.withFetchWord n w).latchTimer = none := rfl

@[simp] theorem withFetchWord_engine (s : State) (n w : Nat) :
    (s.withFetchWord n w).engine = .idle := rfl

@[simp] theorem withFetchWord_responses (s : State) (n w : Nat) :
    (s.withFetchWord n w).responses = s.responses := rfl

@[simp] theorem withFetchWord_chanTrace (s : State) (n w : Nat) :
    (s.withFetchWord n w).chanTrace = s.chanTrace := rfl

@[simp] theorem withFetchWord_streams (s : State) (n w : Nat) :
    (s.withFetchWord n w).streams = s.streams := rfl

@[simp] theorem withFetchWord_inbox (s : State) (n w : Nat) :
    (s.withFetchWord n w).inbox = .command (BitVec.ofNat 64 (w % 2 ^ n)) :: s.inbox := rfl

end Sys2Proof.Laws
end

