-- ==== Sys2Proof/Laws/Engine.lean ====
section
/-! SUPPORT. What each shared operation can do, said once: if it answers a next state, which one; and the induction over one run of
the command engine, packaged once. -/

namespace Sys2Proof.Laws
open Sys2Proof.Machine

theorem withBuffer_next {n : Nat} {s t : State} {r : StepResult} (h : withBuffer n s r = .next t) :
    s.bufAlloc = true ∧ n ≤ 3 * s.cfg.maxPixels ∧ r = .next t := by
  unfold withBuffer at h
  split at h
  · rename_i hc
    simp only [Bool.and_eq_true, decide_eq_true_eq] at hc
    exact ⟨hc.1, hc.2, h⟩
  · cases h

/-- Where the bytes are reachable, the access goes through (R41). -/
theorem withBuffer_eq {n : Nat} {s : State} {r : StepResult} (ha : s.bufAlloc = true) (hn : n ≤ 3 * s.cfg.maxPixels) :
    withBuffer n s r = r := by
  simp [withBuffer, ha, hn]

/-- A served pull (R86). -/
theorem servePull_next {s t : State} (h : servePull s = .next t) :
    ∃ x, s.txq.find? txOpen = some x ∧ s.chan = .enabled ∧ s.bufAlloc = true ∧
      3 * x.len.toNat ≤ 3 * s.cfg.maxPixels ∧ t = { s with txq := pullFirst s.cfg s.buf s.txq } := by
  unfold servePull at h
  split at h
  · cases h
  · rename_i x hx
    split at h
    · rename_i hc
      obtain ⟨ha, hn, h⟩ := withBuffer_next h
      cases h
      exact ⟨x, hx, hc, ha, hn, rfl⟩
    · cases h

/-- A served completion event (R95). -/
theorem serveDone_next {s t : State} (h : serveDone s = .next t) :
    ∃ x rest, s.txq = x :: rest ∧ s.chan = .enabled ∧ txOpen x = false ∧
      t = { s with txq := rest, inflight := s.inflight - 1, streams := endStream true x :: s.streams } := by
  unfold serveDone at h
  split at h
  · cases h
  · rename_i x rest hx
    split at h
    · split at h
      · cases h
      · rename_i hc ho
        cases h
        exact ⟨x, rest, hx, hc, by simpa using ho, rfl⟩
    · cases h

/-- A served early read (R52). -/
theorem serveGenRead_next {n j : Nat} {s t : State} (h : serveGenRead n j s = .next t) :
    ∃ x, s.txq[n]? = some x ∧ j < 3 * x.len.toNat ∧ x.k ≤ 8 * j ∧ x.reads.lookup j = none ∧
      t = { s with txq := s.txq.set n { x with reads := (j, memByte s.buf j) :: x.reads } } := by
  unfold serveGenRead at h
  split at h
  · cases h
  · rename_i x hx
    split at h
    · rename_i hc
      obtain ⟨-, -, h⟩ := withBuffer_next h
      cases h
      exact ⟨x, hx, hc.1, hc.2.1, hc.2.2, rfl⟩
    · cases h

/-- Ticks always pass, in one of three ways (R35). -/
theorem serveTicks_next {n : Nat} {s t : State} (h : serveTicks n s = .next t) :
    (s.latchTimer = none ∧ t = s) ∨
      (∃ r, s.latchTimer = some r ∧ n < r ∧ t = { s with latchTimer := some (r - n) }) ∨
      ∃ r, s.latchTimer = some r ∧ r ≤ n ∧ t = respond .ok 0 { s with latchTimer := none } := by
  unfold serveTicks at h
  split at h
  · rename_i hl
    cases h
    exact .inl ⟨hl, rfl⟩
  · rename_i r hl
    split at h
    · rename_i hn
      cases h
      exact .inr (.inl ⟨r, hl, hn, rfl⟩)
    · rename_i hn
      cases h
      exact .inr (.inr ⟨r, hl, by omega, rfl⟩)

/-- A write of the group from outside changes the group only (R38). -/
theorem serveGroupWrite_next {w : GroupWrite} {s t : State} (h : serveGroupWrite w s = .next t) :
    ∃ g, t = { s with group := g } ∧ (s.cfg.sharing = .perInstance → g = s.group) := by
  unfold serveGroupWrite at h
  split at h
  · rename_i hs
    cases h
    exact ⟨_, rfl, by simp [hs]⟩
  · cases h
    exact ⟨s.group, rfl, fun _ => rfl⟩

/-- The state in which an answer has been taken note of on the channel port. -/
abbrev noted (a : ChannelAnswer) (s : State) : State := { s with chanTrace := .answer a :: s.chanTrace }

/-- What an answer of the channel can do, one case for each outstanding request and each answer its contract allows (R92, R93, R98
to R101). -/
theorem serveAnswer_next {a : ChannelAnswer} {s t : State} (h : serveAnswer a s = .next t) :
    (∃ l o p, s.engine = .initConfigure l o p ∧
      ((a = .ok ∧ t = sendRequest .enable (.initEnable l o p) { noted a s with chan := .configured }) ∨
        (a = .error ∧ t = respond .resourceExhausted 0 { noted a s with bufAlloc := false }))) ∨
    (∃ l o p, s.engine = .initEnable l o p ∧ a = .ack ∧ t = finishInit l o p (noted a s)) ∨
    (s.engine = .freeWait ∧ ((a = .done ∧ s.txq = []) ∨ a = .error) ∧ t = sendRequest .disable .freeDisable (noted a s)) ∨
    (s.engine = .freeDisable ∧ a = .ack ∧ t = sendRequest .release .freeRelease { noted a s with chan := .configured }) ∨
    (s.engine = .freeRelease ∧ a = .ack ∧ t = finishFree (noted a s)) ∨
    (s.engine = .asyncTransmit ∧
      ((a = .ok ∧ t = respond .ok 0 (acceptTransmission (noted a s))) ∨
        (a = .error ∧ t = respond .transmitRejected 0 (noted a s)))) ∨
    (s.engine = .blockTransmit ∧
      ((a = .ok ∧ t = sendRequest (.waitAllDone s.cfg.refreshTimeout) .blockWait (acceptTransmission (noted a s))) ∨
        (a = .error ∧ t = respond .transmitRejected 0 (noted a s)))) ∨
    (s.engine = .blockWait ∧
      ((a = .done ∧ s.txq = [] ∧ t = { noted a s with latchTimer := some s.cfg.trst, engine := .blockLatch }) ∨
        (a = .timeout ∧ (∃ n, s.cfg.refreshTimeout = some n) ∧ t = respond .timeout 0 (noted a s)) ∨
        (a = .error ∧ t = respond .transmitRejected 0 (noted a s)))) := by
  simp only [serveAnswer] at h
  split at h
  · rename_i l o p he
    refine .inl ⟨l, o, p, he, ?_⟩
    cases a <;> simp only [onConfigure, raise] at h <;> cases h
    · exact .inl ⟨rfl, rfl⟩
    · exact .inr ⟨rfl, rfl⟩
  · rename_i l o p he
    refine .inr (.inl ⟨l, o, p, he, ?_⟩)
    cases a <;> simp only [onEnable] at h <;> cases h
    exact ⟨rfl, rfl⟩
  · rename_i he
    refine .inr (.inr (.inl ⟨he, ?_⟩))
    cases a <;> simp only [onFreeWait] at h <;> try cases h
    · exact ⟨.inr rfl, rfl⟩
    · split at h
      · rename_i hq
        cases h
        exact ⟨.inl ⟨rfl, hq⟩, rfl⟩
      · cases h
  · rename_i he
    refine .inr (.inr (.inr (.inl ⟨he, ?_⟩)))
    cases a <;> simp only [onDisable] at h <;> cases h
    exact ⟨rfl, rfl⟩
  · rename_i he
    refine .inr (.inr (.inr (.inr (.inl ⟨he, ?_⟩))))
    cases a <;> simp only [onRelease] at h <;> cases h
    exact ⟨rfl, rfl⟩
  · rename_i he
    refine .inr (.inr (.inr (.inr (.inr (.inl ⟨he, ?_⟩)))))
    cases a <;> simp only [onAsyncTransmit, raise] at h <;> cases h
    · exact .inl ⟨rfl, rfl⟩
    · exact .inr ⟨rfl, rfl⟩
  · rename_i he
    refine .inr (.inr (.inr (.inr (.inr (.inr (.inl ⟨he, ?_⟩))))))
    cases a <;> simp only [onBlockTransmit, raise] at h <;> cases h
    · exact .inl ⟨rfl, rfl⟩
    · exact .inr ⟨rfl, rfl⟩
  · rename_i he
    refine .inr (.inr (.inr (.inr (.inr (.inr (.inr ⟨he, ?_⟩))))))
    cases a <;> simp only [onBlockWait, raise] at h <;> try cases h
    · exact .inr (.inr ⟨rfl, rfl⟩)
    · split at h
      · rename_i hq
        cases h
        exact .inl ⟨rfl, hq, rfl⟩
      · cases h
    · split at h
      · rename_i n hn
        cases h
        exact .inr (.inl ⟨rfl, ⟨n, hn⟩, rfl⟩)
      · cases h
  · cases h
  · cases h

/-- What `submit` does: it refuses at 65535 with no request, or sends CH_TRANSMIT (R94). -/
theorem submit_cases (p : Engine) (s : State) :
    (s.inflight = 65535 ∧ submit p s = respond .transmitRejected 0 s) ∨
      (s.inflight ≠ 65535 ∧ submit p s = sendRequest (.transmit Config.loopCount) p s) := by
  unfold submit
  split
  · exact .inl ⟨‹_›, rfl⟩
  · exact .inr ⟨‹_›, rfl⟩

/-! ### The run of the command engine -/

/-- An event taken from an inbox leaves one input less, and the waiting command words as they were. -/
theorem takeEvent_some {inp rest : List Input} {e : Event} (h : takeEvent inp = some (e, rest)) :
    ∃ before after, inp = before ++ .event e :: after ∧ rest = before ++ after ∧
      ∀ i ∈ before, ∃ w, i = .command w := by
  induction inp generalizing rest with
  | nil => cases h
  | cons i is ih =>
    cases i with
    | event e' =>
      simp only [takeEvent, Option.some.injEq, Prod.mk.injEq] at h
      obtain ⟨rfl, rfl⟩ := h
      exact ⟨[], is, rfl, rfl, by simp⟩
    | command w =>
      simp only [takeEvent] at h
      split at h
      · cases h
      · rename_i e' rest' hr
        simp only [Option.some.injEq, Prod.mk.injEq] at h
        obtain ⟨rfl, rfl⟩ := h
        obtain ⟨b, a, rfl, rfl, hb⟩ := ih hr
        exact ⟨.command w :: b, a, rfl, rfl, by simpa using hb⟩

theorem runEngine_idle {s : State} (h : s.engine = .idle) (n : Nat) : runEngine n s = .next s := by
  cases n <;> simp [runEngine, h]

theorem runCommand_idle {s : State} (h : s.engine = .idle) : runCommand s = .next s := runEngine_idle h _

/-- With no event to come a command waits (R92, R162). -/
theorem runEngine_waits {s : State} (h : takeEvent s.inbox = none) (n : Nat) : runEngine n s = .next s := by
  cases n <;> simp [runEngine, h]

/-- While the engine is busy and the next input is an event, the run serves it and goes on. -/
theorem runCommand_event {s t : State} {e : Event} {rest : List Input} (hb : s.engine ≠ .idle)
    (hi : s.inbox = .event e :: rest) (hs : serveEvent e { s with inbox := rest } = .next t) :
    runCommand s = runEngine rest.length t := by
  simp [runCommand, runEngine, hi, hb, takeEvent, hs]

/-- The induction over a run: what every served event keeps, the run keeps. -/
theorem runEngine_keeps {P : State → Prop}
    (hp : ∀ e rest s t, P s → s.engine ≠ .idle → takeEvent s.inbox = some (e, rest) →
      serveEvent e { s with inbox := rest } = .next t → P t) :
    ∀ n s t, P s → runEngine n s = .next t → P t := by
  intro n
  induction n with
  | zero =>
    intro s t hs h
    cases h
    exact hs
  | succ n ih =>
    intro s t hs h
    simp only [runEngine] at h
    split at h
    · cases h
      exact hs
    · rename_i hb
      split at h
      · cases h
        exact hs
      · rename_i e rest he
        split at h
        · rename_i s' hs'
          exact ih s' t (hp e rest s s' hs hb he hs') h
        · cases h
        · cases h

/-- A run faults only where the serving of an event faults. -/
theorem runEngine_safe {P : State → Prop}
    (hp : ∀ e rest s t, P s → s.engine ≠ .idle → takeEvent s.inbox = some (e, rest) →
      serveEvent e { s with inbox := rest } = .next t → P t)
    (hf : ∀ e rest s f, P s → s.engine ≠ .idle → takeEvent s.inbox = some (e, rest) →
      serveEvent e { s with inbox := rest } ≠ .fault f) :
    ∀ n s f, P s → runEngine n s ≠ .fault f := by
  intro n
  induction n with
  | zero =>
    intro s f hs h
    cases h
  | succ n ih =>
    intro s f hs h
    simp only [runEngine] at h
    split at h
    · cases h
    · rename_i hb
      split at h
      · cases h
      · rename_i e rest he
        split at h
        · rename_i s' hs'
          exact ih s' f (hp e rest s s' hs hb he hs') h
        · rename_i f' hf'
          cases h
          exact hf e rest s _ hs hb he hf'
        · cases h

/-! ### The channel's two asynchronous inputs and the inbox -/

theorem servePull_inbox {s t : State} (r : List Input) (h : servePull s = .next t) :
    servePull { s with inbox := r } = .next { t with inbox := r } := by
  obtain ⟨x, hx, hc, ha, hn, rfl⟩ := servePull_next h
  simp only [servePull, hx, hc, if_true, withBuffer, ha, Bool.true_and, decide_eq_true_eq, hn]

theorem serveDone_inbox {s t : State} (r : List Input) (h : serveDone s = .next t) :
    serveDone { s with inbox := r } = .next { t with inbox := r } := by
  obtain ⟨x, q, hx, hc, ho, rfl⟩ := serveDone_next h
  simp [serveDone, hx, hc, ho]

/-- Serving several events is serving the first one and then the rest. -/
theorem serveAll_cons {e : Event} {es : List Event} {s u : State} (h : serveAll (e :: es) s = .next u) :
    ∃ t, serveEvent e s = .next t ∧ serveAll es t = .next u := by
  simp only [serveAll] at h
  split at h
  · rename_i s' hs'
    exact ⟨s', hs', h⟩
  · cases h
  · cases h

/-- While the engine is busy and the next input is an event, the run serves it. -/
theorem runEngine_event {e : Event} {s t : State} {rest : List Input} {fuel : Nat} (hb : s.engine ≠ .idle)
    (hi : s.inbox = .event e :: rest) (h : serveEvent e { s with inbox := rest } = .next t) :
    runEngine (fuel + 1) s = runEngine fuel t := by
  simp [runEngine, hb, hi, takeEvent, h]

end Sys2Proof.Laws
end

