-- ==== Sys2Proof/Laws/Encoder.lean ====
section
/-! SUPPORT. The laws of the encoder and of the records of TXQ: how long the data symbols of a byte sequence are and which symbol
stands where (40_protocol_encoder.md rules R81, R83), which record a pull serves, and what it reads (R86). -/

namespace Sys2Proof.Laws
open Sys2Proof.Machine

theorem encodeByte_length (cfg : Config) (v : Byte) : (encodeByte cfg v).length = 8 := by simp [encodeByte]

theorem dataSymbols_length (cfg : Config) (bytes : List Byte) :
    (bytes.flatMap (encodeByte cfg)).length = 8 * bytes.length := by
  induction bytes with
  | nil => rfl
  | cons b bs ih =>
    rw [List.flatMap_cons, List.length_append, ih, encodeByte_length, List.length_cons]
    omega

theorem dataSymbols_get (cfg : Config) (bytes : List Byte) (k : Nat) (v : Byte) (h : bytes[k / 8]? = some v) :
    (bytes.flatMap (encodeByte cfg))[k]? = some (dataSymbol cfg (v.getLsbD (7 - k % 8))) := by
  induction bytes generalizing k with
  | nil => simp at h
  | cons b bs ih =>
    rw [List.flatMap_cons]
    by_cases hk : k < 8
    · rw [List.getElem?_append_left (by rw [encodeByte_length]; exact hk)]
      rw [Nat.div_eq_of_lt hk] at h
      simp only [List.getElem?_cons_zero, Option.some.injEq] at h
      subst h
      simp [encodeByte, hk, Nat.mod_eq_of_lt hk]
    · rw [List.getElem?_append_right (by rw [encodeByte_length]; omega), encodeByte_length]
      rw [show k / 8 = (k - 8) / 8 + 1 by omega, List.getElem?_cons_succ] at h
      rw [ih _ h, show (k - 8) % 8 = k % 8 by omega]

theorem lookup_mem {l : List (Nat × Byte)} {j : Nat} {v : Byte} (h : l.lookup j = some v) : (j, v) ∈ l := by
  induction l with
  | nil => simp at h
  | cons c cs ih =>
    obtain ⟨a, b⟩ := c
    rw [List.lookup_cons] at h
    split at h
    · rename_i hj
      simp only [beq_iff_eq] at hj
      simp only [Option.some.injEq] at h
      subst hj
      subst h
      simp
    · exact List.mem_cons_of_mem _ (ih h)

/-- A pull is served by the first open record, and only that record changes (R34, R86). -/
theorem find_open {q : List Tx} {x : Tx} (h : q.find? txOpen = some x) :
    ∃ a b, q = a ++ x :: b ∧ (∀ y ∈ a, txOpen y = false) ∧ txOpen x = true ∧
      ∀ cfg m, pullFirst cfg m q = a ++ pullTx cfg m x :: b := by
  induction q with
  | nil => simp at h
  | cons y ys ih =>
    rw [List.find?_cons] at h
    split at h
    · rename_i ho
      simp only [Option.some.injEq] at h
      subst h
      exact ⟨[], ys, rfl, by simp, ho, by simp [pullFirst, ho]⟩
    · rename_i ho
      obtain ⟨a, b, rfl, h1, h2, h3⟩ := ih h
      exact ⟨y :: a, b, rfl, by simpa [ho] using h1, h2, by simp [pullFirst, ho, h3]⟩

/-- After the read that a pull makes, the record holds the byte that the pull uses (R52, R86). -/
theorem readsWith_lookup (m : Mem) (x : Tx) (j : Nat) : (readsWith m x j).lookup j = some (txByte m x j) := by
  unfold readsWith txByte
  cases hl : x.reads.lookup j with
  | some v => exact hl
  | none => simp

end Sys2Proof.Laws
end

