-- ==== Sys2Proof/Laws/Memory.lean ====
section
/-! SUPPORT. The laws of the pixel buffer: reading after writing, the canonical form and the address bound, each for every memory
operation. -/

namespace Sys2Proof.Laws
open Sys2Proof.Machine

theorem wf_cons {a : Nat} {v : Byte} {rest : Mem} :
    Memory.wf ((a, v) :: rest) = true ↔
      v ≠ unlistedByte a ∧ (∀ c ∈ rest, a < c.1) ∧ Memory.wf rest = true := by
  simp [Memory.wf, and_assoc]

/-- Below the first listed address nothing is listed. -/
theorem memByte_below {m : Mem} {a : Nat} (h : ∀ c ∈ m, a < c.1) : memByte m a = unlistedByte a := by
  induction m with
  | nil => rfl
  | cons c rest ih =>
    obtain ⟨b, w⟩ := c
    have hb : a < b := h (b, w) (by simp)
    simp only [memByte]
    rw [if_neg (by omega)]
    exact ih (fun c hc => h c (by simp [hc]))

/-- A read after a write: the written byte at its address, every other byte as before. -/
theorem memByte_memSet {m : Mem} (h : Memory.wf m = true) (a b : Nat) (v : Byte) :
    memByte (memSet m a v) b = if b = a then v else memByte m b := by
  induction m with
  | nil =>
    by_cases hv : v = unlistedByte a <;> by_cases hb : b = a
    · subst hb; simp [memSet, memByte, hv]
    · simp [memSet, memByte, hv, hb]
    · subst hb; simp [memSet, memByte, hv]
    · simp [memSet, memByte, hv, hb, Ne.symm hb]
  | cons c rest ih =>
    obtain ⟨k, w⟩ := c
    obtain ⟨-, hlt, hrest⟩ := wf_cons.1 h
    have ih := ih hrest
    simp only [memSet]
    by_cases hak : a < k
    · have hbelow : memByte ((k, w) :: rest) a = unlistedByte a :=
        memByte_below (by
          intro c hc
          rcases List.mem_cons.1 hc with rfl | hc
          · exact hak
          · exact lt_trans hak (hlt c hc))
      rw [if_pos hak]
      by_cases hv : v = unlistedByte a
      · rw [if_pos hv]
        by_cases hb : b = a
        · subst hb; rw [if_pos rfl, hbelow, hv]
        · rw [if_neg hb]
      · rw [if_neg hv]
        by_cases hb : b = a
        · subst hb; simp [memByte]
        · rw [if_neg hb]
          show (if a = b then v else memByte ((k, w) :: rest) b) = _
          rw [if_neg (Ne.symm hb)]
    · rw [if_neg hak]
      by_cases hak' : a = k
      · subst hak'
        rw [if_pos rfl]
        by_cases hv : v = unlistedByte a
        · rw [if_pos hv]
          by_cases hb : b = a
          · subst hb; rw [if_pos rfl, memByte_below hlt, hv]
          · rw [if_neg hb]; simp [memByte, Ne.symm hb]
        · rw [if_neg hv]
          by_cases hb : b = a
          · subst hb; simp [memByte]
          · rw [if_neg hb]; simp [memByte, Ne.symm hb]
      · rw [if_neg hak']
        simp only [memByte]
        by_cases hkb : k = b
        · subst hkb; rw [if_pos rfl, if_neg (Ne.symm hak'), if_pos rfl]
        · rw [if_neg hkb, ih, if_neg hkb]

/-- What a write lists: the written address, or what was listed. -/
theorem mem_memSet {m : Mem} {a : Nat} {v : Byte} {c : Host.Cell} (h : c ∈ memSet m a v) :
    c = (a, v) ∨ c ∈ m := by
  induction m with
  | nil =>
    simp only [memSet] at h
    split at h <;> simp_all
  | cons d rest ih =>
    obtain ⟨k, w⟩ := d
    simp only [memSet] at h
    split at h
    · split at h
      · exact .inr h
      · rcases List.mem_cons.1 h with h | h
        · exact .inl h
        · exact .inr h
    · split at h
      · split at h
        · exact .inr (List.mem_cons_of_mem _ h)
        · rcases List.mem_cons.1 h with h | h
          · exact .inl h
          · exact .inr (List.mem_cons_of_mem _ h)
      · rcases List.mem_cons.1 h with h | h
        · exact .inr (h ▸ List.mem_cons_self ..)
        · rcases ih h with h | h
          · exact .inl h
          · exact .inr (List.mem_cons_of_mem _ h)

/-- A write keeps the canonical form. -/
theorem memSet_wf {m : Mem} (h : Memory.wf m = true) (a : Nat) (v : Byte) : Memory.wf (memSet m a v) = true := by
  induction m with
  | nil =>
    simp only [memSet]
    split
    · rfl
    · rename_i hv
      exact wf_cons.2 ⟨hv, by simp, rfl⟩
  | cons c rest ih =>
    obtain ⟨k, w⟩ := c
    obtain ⟨hw, hlt, hrest⟩ := wf_cons.1 h
    simp only [memSet]
    split
    · rename_i hak
      split
      · exact h
      · rename_i hv
        refine wf_cons.2 ⟨hv, ?_, h⟩
        intro c hc
        rcases List.mem_cons.1 hc with rfl | hc
        · exact hak
        · exact lt_trans hak (hlt c hc)
    · split
      · rename_i hak
        subst hak
        split
        · exact hrest
        · rename_i hv
          exact wf_cons.2 ⟨hv, hlt, hrest⟩
      · rename_i hnl hne
        refine wf_cons.2 ⟨hw, ?_, ih hrest⟩
        intro c hc
        rcases mem_memSet hc with rfl | hc
        · show k < a
          omega
        · exact hlt c hc

/-- Every listed address is below `n`. -/
abbrev below (m : Mem) (n : Nat) : Prop := ∀ c ∈ m, c.1 < n

theorem memSet_below {m : Mem} {n a : Nat} (h : below m n) (ha : a < n) (v : Byte) : below (memSet m a v) n := by
  intro c hc
  rcases mem_memSet hc with rfl | hc
  · exact ha
  · exact h c hc

theorem memSetList_wf {m : Mem} (h : Memory.wf m = true) (a : Nat) (vs : List Byte) :
    Memory.wf (memSetList m a vs) = true := by
  induction vs generalizing m a with
  | nil => exact h
  | cons v vs ih => exact ih (memSet_wf h a v) (a + 1)

theorem memSetList_below {m : Mem} {n a : Nat} (vs : List Byte) (h : below m n) (ha : a + vs.length ≤ n) :
    below (memSetList m a vs) n := by
  induction vs generalizing m a with
  | nil => exact h
  | cons v vs ih =>
    simp only [List.length_cons] at ha
    exact ih (memSet_below h (by omega) v) (by omega)

/-- A read after a write of several bytes. -/
theorem memByte_memSetList {m : Mem} (h : Memory.wf m = true) (a b : Nat) (vs : List Byte) :
    memByte (memSetList m a vs) b = if a ≤ b ∧ b < a + vs.length then vs.getD (b - a) 0 else memByte m b := by
  induction vs generalizing m a with
  | nil =>
    rw [if_neg (by simp)]
    rfl
  | cons v vs ih =>
    simp only [memSetList, ih (memSet_wf h a v), memByte_memSet h, List.length_cons]
    by_cases hb : b = a
    · subst hb
      rw [if_neg (by omega), if_pos rfl, if_pos (by omega)]
      simp
    · by_cases hin : a + 1 ≤ b ∧ b < a + 1 + vs.length
      · rw [if_pos hin, if_pos (by omega), show b - a = (b - (a + 1)) + 1 by omega]
        simp
      · rw [if_neg hin, if_neg hb, if_neg (by omega)]

theorem setPixel_wf {m : Mem} (h : Memory.wf m = true) (i : Nat) (p : WirePixel) :
    Memory.wf (setPixel m i p) = true := memSetList_wf h _ _

theorem setPixel_below {m : Mem} {n i : Nat} (h : below m n) (hi : 3 * i + 3 ≤ n) (p : WirePixel) :
    below (setPixel m i p) n := memSetList_below _ h hi

/-- Byte `k` of a pixel's three. -/
theorem memByte_setPixel {m : Mem} (h : Memory.wf m = true) (i b : Nat) (p : WirePixel) :
    memByte (setPixel m i p) b =
      if b = 3 * i then p.b0 else if b = 3 * i + 1 then p.b1 else if b = 3 * i + 2 then p.b2 else memByte m b := by
  rw [setPixel, memByte_memSetList h]
  have hlen : (wireBytes p).length = 3 := rfl
  rw [hlen]
  by_cases h0 : b = 3 * i
  · subst h0; simp [wireBytes]
  · rw [if_neg h0]
    by_cases h1 : b = 3 * i + 1
    · subst h1; simp [wireBytes]
    · rw [if_neg h1]
      by_cases h2 : b = 3 * i + 2
      · subst h2; simp [wireBytes]
      · rw [if_neg h2, if_neg (by omega)]

/-- A write of pixel `i` leaves the bytes of every other pixel. -/
theorem memByte_setPixel_other {m : Mem} (h : Memory.wf m = true) {i j k : Nat} (hk : k < 3) (hj : j ≠ i) (p : WirePixel) :
    memByte (setPixel m i p) (3 * j + k) = memByte m (3 * j + k) := by
  rw [setPixel, memByte_memSetList h]
  refine if_neg fun hin => hj ?_
  have : (wireBytes p).length = 3 := rfl
  omega

/-- The written pixel reads back whole, and every other pixel is as before. -/
theorem pixelAt_setPixel {m : Mem} (h : Memory.wf m = true) (i j : Nat) (p : WirePixel) :
    pixelAt (setPixel m i p) j = if j = i then p else pixelAt m j := by
  by_cases hj : j = i
  · subst hj
    simp [pixelAt, memByte_setPixel h]
  · rw [if_neg hj, pixelAt, pixelAt, memByte_setPixel_other h (k := 1) (by decide) hj,
      memByte_setPixel_other h (k := 2) (by decide) hj]
    exact congrArg (WirePixel.mk · _ _) (memByte_setPixel_other h (k := 0) (by decide) hj p)

theorem fillPixels_wf {m : Mem} (h : Memory.wf m = true) (p : WirePixel) (n : Nat) :
    Memory.wf (fillPixels p n m) = true := by
  induction n with
  | zero => exact h
  | succ n ih => exact setPixel_wf ih n p

theorem fillPixels_below {m : Mem} {k : Nat} (h : below m k) (p : WirePixel) (n : Nat) (hn : 3 * n ≤ k) :
    below (fillPixels p n m) k := by
  induction n with
  | zero => exact h
  | succ n ih => exact setPixel_below (ih (by omega)) (by omega) p

/-- After a fill every pixel below `n` holds the filled bytes, and every other pixel is as before. -/
theorem pixelAt_fillPixels {m : Mem} (h : Memory.wf m = true) (p : WirePixel) (n j : Nat) :
    pixelAt (fillPixels p n m) j = if j < n then p else pixelAt m j := by
  induction n with
  | zero => simp [fillPixels]
  | succ n ih =>
    rw [fillPixels, pixelAt_setPixel (fillPixels_wf h p n), ih]
    by_cases hj : j = n
    · subst hj; simp
    · by_cases hlt : j < n
      · rw [if_neg hj, if_pos hlt, if_pos (by omega)]
      · rw [if_neg hj, if_neg hlt, if_neg (by omega)]

/-- A fill leaves every byte at or above `3*n` as before. -/
theorem memByte_fillPixels_above {m : Mem} (h : Memory.wf m = true) (p : WirePixel) (n a : Nat) (ha : 3 * n ≤ a) :
    memByte (fillPixels p n m) a = memByte m a := by
  induction n with
  | zero => rfl
  | succ n ih =>
    rw [fillPixels, memByte_setPixel (fillPixels_wf h p n), if_neg (by omega), if_neg (by omega), if_neg (by omega),
      ih (by omega)]

theorem zeroFill_wf {m : Mem} (h : Memory.wf m = true) (n : Nat) : Memory.wf (zeroFill n m) = true := by
  induction n with
  | zero => exact h
  | succ n ih => exact memSet_wf ih n 0

theorem zeroFill_below {m : Mem} {k : Nat} (h : below m k) (n : Nat) (hn : n ≤ k) : below (zeroFill n m) k := by
  induction n with
  | zero => exact h
  | succ n ih => exact memSet_below (ih (by omega)) (by omega) 0

/-- After a zero-fill every byte below `n` is 0, and every other byte is as before. -/
theorem memByte_zeroFill {m : Mem} (h : Memory.wf m = true) (n a : Nat) :
    memByte (zeroFill n m) a = if a < n then 0 else memByte m a := by
  induction n with
  | zero => simp [zeroFill]
  | succ n ih =>
    rw [zeroFill, memByte_memSet (zeroFill_wf h n), ih]
    by_cases hj : a = n
    · subst hj; simp
    · by_cases hlt : a < n
      · rw [if_neg hj, if_pos hlt, if_pos (by omega)]
      · rw [if_neg hj, if_neg hlt, if_neg (by omega)]

theorem drawnBuffer_wf (n : Nat) (contents : List Host.Cell) : Memory.wf (drawnBuffer n contents) = true := by
  induction contents with
  | nil => rfl
  | cons c rest ih =>
    simp only [drawnBuffer]
    split
    · exact memSet_wf ih _ _
    · exact ih

theorem drawnBuffer_below (n : Nat) (contents : List Host.Cell) : below (drawnBuffer n contents) n := by
  induction contents with
  | nil => exact fun c hc => absurd hc (by simp [drawnBuffer])
  | cons c rest ih =>
    simp only [drawnBuffer]
    split
    · exact memSet_below ih ‹_› _
    · exact ih

/-- A write below every listed address of a byte that must be listed lists it first. -/
theorem memSet_first {m : Mem} {a : Nat} {v : Byte} (hv : v ≠ unlistedByte a) (hlt : ∀ c ∈ m, a < c.1) :
    memSet m a v = (a, v) :: m := by
  cases m with
  | nil => exact if_neg hv
  | cons c rest =>
    have hc : a < c.1 := hlt c (by simp)
    simp [memSet, hc, hv]

/-- Every buffer there can be is drawn from its own list of bytes: a reset can leave any contents (R153). -/
theorem drawnBuffer_canonical {m : Mem} {n : Nat} (hm : Memory.wf m = true) (hb : below m n) : drawnBuffer n m = m := by
  induction m with
  | nil => rfl
  | cons c rest ih =>
    obtain ⟨hv, hlt, hrest⟩ := wf_cons.1 hm
    rw [drawnBuffer, if_pos (hb c (by simp)), ih hrest fun d hd => hb d (by simp [hd]), memSet_first hv hlt]

theorem memGet_length (m : Mem) (a n : Nat) : (memGet m a n).length = n := by simp [memGet]

theorem memGet_getElem? (m : Mem) (a n k : Nat) :
    (memGet m a n)[k]? = if k < n then some (memByte m (a + k)) else none := by
  by_cases hk : k < n <;> simp [memGet, hk]

end Sys2Proof.Laws
end

