-- ==== Sys2Proof/Laws/PerInstr.lean ====
section
/-! SUPPORT. The per-instruction family RowTest: the encoded command passes its row's test `(word & mask) = match` (R68). -/

namespace Sys2Proof.Laws.RowTest

/-- The encoded command passes the test of its row (R68). -/
def Statement (i : Instr) : Prop := encode i &&& rowMask i.opcode = rowMatch i.opcode

/-- The test field by field: OPC is kept whole, and the must-be-0 bits of A and B are 0. -/
theorem of_fields (i : Instr) (ma : Word24) (mb : Word32) (hm : rowMask i.opcode = (0xFF : Byte) ++ ma ++ mb)
    (ha : operandA i &&& ma = 0) (hb : operandB i &&& mb = 0) : Statement i := by
  have ho : opcodeValue i.opcode &&& 0xFF = opcodeValue i.opcode := by
    cases i.opcode <;> decide
  unfold Statement encode rowMatch
  rw [hm, BitVec.and_append, BitVec.and_append, ho, ha, hb, BitVec.append_assoc]
  rfl

/-- Zeros above an operand meet a mask of the bits above it. -/
theorem zeros_above {n m : Nat} (k : BitVec n) (v : BitVec m) : ((0 : BitVec n) ++ v) &&& (k ++ (0 : BitVec m)) = 0 := by
  rw [BitVec.and_append]
  simp

theorem b24 (v : Word24) : ((0 : BitVec 8) ++ v) &&& (0xFF000000 : Word32) = 0 := zeros_above (0xFF : BitVec 8) v
theorem b16 (v : BitVec 16) : ((0 : BitVec 16) ++ v) &&& (0xFFFF0000 : Word32) = 0 := zeros_above (0xFFFF : BitVec 16) v
theorem b8 (v : Byte) : ((0 : BitVec 24) ++ v) &&& (0xFFFFFF00 : Word32) = 0 := zeros_above (0xFFFFFF : BitVec 24) v
theorem b1 (v : BitVec 1) : ((0 : BitVec 31) ++ v) &&& (0xFFFFFFFE : Word32) = 0 := zeros_above (0x7FFFFFFF : BitVec 31) v
theorem a8 (v : Byte) : ((0 : BitVec 16) ++ v) &&& (0xFFFF00 : Word24) = 0 := zeros_above (0xFFFF : BitVec 16) v

theorem a0 (m : Word24) : (0 : Word24) &&& m = 0 := BitVec.zero_and
theorem b0 (m : Word32) : (0 : Word32) &&& m = 0 := BitVec.zero_and

theorem nop : Statement .nop := of_fields _ 0xFFFFFF 0xFFFFFFFF rfl rfl rfl
theorem init (l : Word24) (o p : Byte) : Statement (.init l o p) :=
  of_fields _ 0 0xFFFF0000 rfl (BitVec.and_zero ..) (by
    show ((0 : BitVec 16) ++ p ++ o) &&& (0xFFFF0000 : Word32) = 0
    rw [BitVec.append_assoc]
    exact b16 (p ++ o))
theorem free : Statement .free := of_fields _ 0xFFFFFF 0xFFFFFFFF rfl rfl rfl
theorem refresh : Statement .refresh := of_fields _ 0xFFFFFF 0xFFFFFFFF rfl rfl rfl
theorem refresha : Statement .refresha := of_fields _ 0xFFFFFF 0xFFFFFFFF rfl rfl rfl
theorem isbusy : Statement .isbusy := of_fields _ 0xFFFFFF 0xFFFFFFFF rfl rfl rfl
theorem setraw (i r : Word24) : Statement (.setraw i r) := of_fields _ 0 0xFF000000 rfl (BitVec.and_zero ..) (b24 r)
theorem readpix (i : Word24) : Statement (.readpix i) := of_fields _ 0 0xFFFFFFFF rfl (BitVec.and_zero ..) (b0 _)
theorem readreg (r : Word24) : Statement (.readreg r) := of_fields _ 0 0xFFFFFFFF rfl (BitVec.and_zero ..) (b0 _)
theorem setpix (i : Word24) (c : Color) : Statement (.setpix i c) :=
  of_fields _ 0 0xFF000000 rfl (BitVec.and_zero ..) (b24 _)
theorem setpixw (i : Word24) (c : ColorW) : Statement (.setpixw i c) :=
  of_fields _ 0 0 rfl (BitVec.and_zero ..) (BitVec.and_zero ..)
theorem fill (c : Color) : Statement (.fill c) := of_fields _ 0xFFFFFF 0xFF000000 (show rowMask .fill = _ by decide) (a0 _) (b24 _)
theorem fillw (c : ColorW) : Statement (.fillw c) := of_fields _ 0xFFFFFF 0 (show rowMask .fillw = _ by decide) (a0 _) (BitVec.and_zero ..)
theorem clear : Statement .clear := of_fields _ 0xFFFFFF 0xFFFFFFFF rfl rfl rfl
theorem setbrt (b : Byte) : Statement (.setbrt b) := of_fields _ 0xFFFFFF 0xFFFFFF00 (show rowMask .setbrt = _ by decide) (a0 _) (b8 b)
theorem setgamma (e : Bool) : Statement (.setgamma e) := of_fields _ 0xFFFFFF 0xFFFFFFFE (show rowMask .setgamma = _ by decide) (a0 _) (b1 _)
theorem cvtw (c : Color) : Statement (.cvtw c) := of_fields _ 0xFFFFFF 0xFF000000 (show rowMask .cvtw = _ by decide) (a0 _) (b24 _)
theorem cvtrgb (c : ColorW) : Statement (.cvtrgb c) := of_fields _ 0xFFFFFF 0 (show rowMask .cvtrgb = _ by decide) (a0 _) (BitVec.and_zero ..)
theorem lutrd (c : Byte) : Statement (.lutrd c) := of_fields _ 0xFFFF00 0xFFFFFFFF (show rowMask .lutrd = _ by decide) (a8 c) (b0 _)

end Sys2Proof.Laws.RowTest
end

