-- ==== Sys2Proof/Tests/Slice0.lean ====
section
/-! SUPPORT. The model's own tests: ill-formed words, the decoding of every command, one step of every command with the results of
95_test_vectors.md, and for every statement with hypotheses a concrete state and operands that meet them. -/

namespace Sys2Proof.Tests
open Sys2Proof Sys2Proof.Machine

/-! ### Helpers -/

/-- Whether an outcome is a next state that passes a test. -/
def nextIs (r : StepResult) (p : State → Bool) : Bool :=
  match r with
  | .next t => p t
  | .fault _ => false
  | .refused _ => false

theorem exists_next {r : StepResult} {P : State → Prop} [DecidablePred P] (h : nextIs r (fun t => decide (P t)) = true) :
    ∃ t, r = .next t ∧ P t := by
  cases r with
  | next t => exact ⟨t, rfl, by simpa [nextIs] using h⟩
  | fault f => cases h
  | refused f => cases h

/-- Whether a step answers this response and leads to a state that passes a test. -/
def replies (r : StepResult) (st : Status) (d : Word32) (p : State → Bool) : Bool :=
  nextIs r (fun t => t.responses.head? == some ⟨st, d⟩ && p t)

/-- One step: a command word is next, and these events after it. -/
def runWord (s : State) (w : CmdWord) (es : List Event) : StepResult :=
  step { s with inbox := .command w :: asInputs es }

/-- A strip as a successful INIT of `length` pixels on pin 0 leaves it. -/
def strip (length : Word24) (order : ChannelOrder) : State :=
  { State.reset with lc := .live, length := length, order := order, chan := .enabled, bufAlloc := true }

/-- The strip of one pixel with one REFRESHA in flight, of which nothing is pulled yet. -/
def flying : State := { strip 1 .rgb with txq := [newTx 1], inflight := 1 }

/-- The same with INFLIGHT_GUARD = ON. -/
def guarded : State := { flying with cfg := { Config.default with inflightGuard := true } }

/-- The same with REFRESH_TIMEOUT = 1000 and nothing in flight. -/
def timed : State := { strip 1 .rgb with cfg := { Config.default with refreshTimeout := some 1000 } }

/-- A freed strip: `INIT 5, BRG, 9` and then FREE. -/
def freed : State := { State.reset with lc := .freed, length := 5, order := .brg, pin := 9 }

/-- The channel plays one transmission of one pixel to its end. -/
def playOne : List Event := List.replicate 25 .symPull ++ [.chDone]

/-! ### Ill-formed words (R69, R70; the words of 95_test_vectors.md section 2.1 among them) -/

theorem test_wellFormed_refuses_noOperandCommands :
    CmdWord.wellFormed 0x0000000000000001 = false ∧ CmdWord.wellFormed 0x0000000100000000 = false ∧
    CmdWord.wellFormed 0x0200000000000001 = false ∧ CmdWord.wellFormed 0x0280000000000000 = false ∧
    CmdWord.wellFormed 0x0300000080000000 = false ∧ CmdWord.wellFormed 0x0300000100000000 = false ∧
    CmdWord.wellFormed 0x0400000000000002 = false ∧ CmdWord.wellFormed 0x0400000200000000 = false ∧
    CmdWord.wellFormed 0x0500000000000001 = false ∧ CmdWord.wellFormed 0x0500000100000000 = false ∧
    CmdWord.wellFormed 0x0D00000100000000 = false ∧ CmdWord.wellFormed 0x0D00000000000001 = false := by decide

theorem test_wellFormed_refuses_lifecycleOperands :
    CmdWord.wellFormed 0x0100000300011200 = false ∧ CmdWord.wellFormed 0x0100000000FF0000 = false ∧
    CmdWord.wellFormed 0x0600000001000000 = false ∧ CmdWord.wellFormed 0x0700000001000000 = false ∧
    CmdWord.wellFormed 0x0800000900000001 = false := by decide

theorem test_wellFormed_refuses_colourOperands :
    CmdWord.wellFormed 0x0900000080000000 = false ∧ CmdWord.wellFormed 0x0B00000100FF0000 = false ∧
    CmdWord.wellFormed 0x0B00000001000000 = false ∧ CmdWord.wellFormed 0x0C00000100000000 = false ∧
    CmdWord.wellFormed 0x0E00000000000100 = false ∧ CmdWord.wellFormed 0x0E00000100000000 = false ∧
    CmdWord.wellFormed 0x0F00000000000002 = false ∧ CmdWord.wellFormed 0x0F80000000000000 = false ∧
    CmdWord.wellFormed 0x1000000001000000 = false ∧ CmdWord.wellFormed 0x1000000100000000 = false ∧
    CmdWord.wellFormed 0x1100000100000000 = false ∧ CmdWord.wellFormed 0x1200010000000000 = false ∧
    CmdWord.wellFormed 0x12000000FF000000 = false := by decide

theorem test_wellFormed_refuses_reservedOpcodes :
    CmdWord.wellFormed 0x1300000000000000 = false ∧ CmdWord.wellFormed 0xFF00000000000000 = false := by decide

theorem test_wellFormed_accepts :
    CmdWord.wellFormed 0x0A000001FFFFFFFF = true ∧ CmdWord.wellFormed 0x0C000000FFFFFFFF = true ∧
    CmdWord.wellFormed 0x0100000300001207 = true ∧ CmdWord.wellFormed 0x0800FFFF00000000 = true := by decide

/-! ### Decoding (R67; the words of the examples of R97 to R131 and of 95_test_vectors.md) -/

theorem test_decode_noOperandCommands :
    decode 0x0000000000000000 = .ok .nop ∧ decode 0x0200000000000000 = .ok .free ∧
    decode 0x0300000000000000 = .ok .refresh ∧ decode 0x0400000000000000 = .ok .refresha ∧
    decode 0x0500000000000000 = .ok .isbusy ∧ decode 0x0D00000000000000 = .ok .clear := by decide

theorem test_decode_init :
    decode 0x0100000300001200 = .ok (.init 3 0 18) ∧ decode 0x0100000000000402 = .ok (.init 0 2 4) := by decide

theorem test_decode_pixelCommands :
    decode 0x0600000300112233 = .ok (.setraw 3 0x112233) ∧ decode 0x0700000200000000 = .ok (.readpix 2) ∧
    decode 0x0800FFFF00000000 = .ok (.readreg 0xFFFF) := by decide

theorem test_decode_setpix :
    decode 0x09000000000A141E = .ok (.setpix 0 ⟨10, 20, 30⟩) ∧
    decode 0x0A00000164C80000 = .ok (.setpixw 1 ⟨200, 0, 0, 100⟩) := by decide

theorem test_decode_fill :
    decode 0x0B0000000000FF00 = .ok (.fill ⟨0, 255, 0⟩) ∧
    decode 0x0C0000000A010203 = .ok (.fillw ⟨1, 2, 3, 10⟩) := by decide

theorem test_decode_settings :
    decode 0x0E00000000000080 = .ok (.setbrt 128) ∧ decode 0x0F00000000000001 = .ok (.setgamma true) ∧
    decode 0x0F00000000000000 = .ok (.setgamma false) := by decide

theorem test_decode_conversions :
    decode 0x10000000000A141E = .ok (.cvtw ⟨10, 20, 30⟩) ∧ decode 0x1100000064C80000 = .ok (.cvtrgb ⟨200, 0, 0, 100⟩) ∧
    decode 0x120000C800000000 = .ok (.lutrd 200) := by decide

theorem test_decode_rejects :
    decode 0x0B00000100FF0000 = .error (.mustBeZeroBitSet .fill) ∧
    decode 0x12000000FF000000 = .error (.mustBeZeroBitSet .lutrd) ∧
    decode 0xFF00000000000000 = .error (.reservedOpcode 0xFF) := by decide

theorem test_decodeTableWord :
    decodeTableWord 64 0x0A00000164C80000 = some (.setpixw 1 ⟨200, 0, 0, 100⟩) ∧
    decodeTableWord 64 0x1300000000000000 = none := by decide

theorem test_withFetchWord :
    replies (step (State.reset.withFetchWord 64 0x1200008000000000)) .ok 0x38 (fun t => t.inbox == []) = true := by decide

/-! ### One step of each command (95_test_vectors.md sections 2.3 and 2.4) -/

theorem test_step_nop :
    replies (runWord State.reset 0 []) .ok 0 (fun t => t == { State.reset with responses := [⟨.ok, 0⟩] }) = true := by decide

theorem test_step_illegal :
    replies (runWord flying 0x0D00000100000000 []) .illegalCommand 0
      (fun t => t == { flying with responses := [⟨.illegalCommand, 0⟩] }) = true := by decide

/-- The zero-fill covers the bytes of the strip and no more. -/
theorem test_step_init :
    replies (runWord { State.reset with buf := [(0, 7), (8, 6), (9, 5)] } 0x0100000300001200 [.answer .ok, .answer .ack]) .ok 0
      (fun t => t.lc == .live && stateCode t == 1 && t.length == 3 && t.order == .rgb && t.pin == 18 &&
        t.chan == .enabled && t.bufAlloc && t.buf == [(9, 5)]) = true := by decide

theorem test_step_init_fails :
    replies (runWord State.reset 0x0100001000000001 [.answer .error]) .resourceExhausted 0
      (fun t => t.lc == .uninit && t.chan == .none && !t.bufAlloc) = true ∧
    replies (runWord State.reset 0x0100001100000001 []) .resourceExhausted 0 (fun t => t.chanTrace == []) = true := by decide

theorem test_step_free_waits :
    replies (runWord flying 0x0200000000000000 (playOne ++ [.answer .done, .answer .ack, .answer .ack])) .ok 0
      (fun t => stateCode t == 3 && t.inflight == 0 && t.chan == .none && t.length == 1) = true := by decide

theorem test_step_free_twice :
    replies (runWord freed 0x0200000000000000 []) .ok 0 (fun t => t.chanTrace == [] && t.length == 5) = true := by decide

/-- The pixel 0x80 0x00 0x01 of R86: DATA1, 22 times DATA0, DATA1, RESET. -/
theorem test_step_refresh :
    replies (runWord { strip 1 .rgb with buf := [(0, 0x80), (2, 0x01)] } 0x0300000000000000
        ([.answer .ok] ++ playOne ++ [.answer .done, .ticks 599, .ticks 1])) .ok 0
      (fun t => stateCode t == 1 && t.streams ==
        [⟨1, [0x00048008] ++ List.replicate 22 0x00088004 ++ [0x00048008, 0x02580000], true⟩]) = true := by decide

theorem test_step_refresh_timeout :
    replies (runWord timed 0x0300000000000000 [.answer .ok, .answer .timeout]) .timeout 0
      (fun t => stateCode t == 2 && t.inflight == 1) = true := by decide

theorem test_step_refresha :
    replies (runWord flying 0x0400000000000000 [.answer .ok]) .ok 0 (fun t => t.inflight == 2 && t.txq == [newTx 1, newTx 1]) = true ∧
    replies (runWord { flying with inflight := 65535 } 0x0400000000000000 []) .transmitRejected 0
      (fun t => t.chanTrace == [] && t.inflight == 65535) = true := by decide

theorem test_step_isbusy :
    replies (runWord flying 0x0500000000000000 []) .ok 1 (fun _ => true) = true ∧
    replies (runWord (strip 1 .rgb) 0x0500000000000000 []) .ok 0 (fun _ => true) = true := by decide

theorem test_step_setraw :
    replies (runWord (strip 2 .rgb) 0x0600000100010203 []) .ok 0 (fun t => t.buf == [(3, 1), (4, 2), (5, 3)]) = true := by decide

theorem test_step_setraw_guard :
    replies (runWord guarded 0x0600000000010203 []) .busy 0 (fun t => t.buf == []) = true ∧
    replies (runWord guarded 0x0600000100010203 []) .invalidArgument 0 (fun t => t.buf == []) = true := by decide

theorem test_step_readpix :
    replies (runWord { strip 2 .rgb with buf := [(3, 1), (4, 2), (5, 3)] } 0x0700000100000000 []) .ok 0x00010203
      (fun t => t.buf == [(3, 1), (4, 2), (5, 3)]) = true := by decide

theorem test_step_readreg :
    replies (runWord State.reset 0x0800000900000000 []) .ok 0x04080804 (fun _ => true) = true ∧
    replies (runWord freed 0x0800000100000000 []) .ok 5 (fun _ => true) = true := by decide

theorem test_step_readreg_reserved :
    replies (runWord State.reset 0x0800000C00000000 []) .invalidArgument 0 (fun _ => true) = true := by decide

theorem test_step_setpix :
    replies (runWord (strip 1 .grb) 0x09000000000A141E []) .ok 0 (fun t => t.buf == [(0, 0x14), (1, 0x0A), (2, 0x1E)]) = true := by
  decide

theorem test_step_setpix_gamma :
    replies (runWord { strip 2 .rgb with group := ⟨128, true, false⟩ } 0x0900000100808080 []) .ok 0
      (fun t => t.group.gammaBuilt && t.buf == [(3, 0x1C), (4, 0x1C), (5, 0x1C)]) = true := by decide

theorem test_step_setpixw :
    replies (runWord (strip 2 .rgb) 0x0A00000164C80000 []) .ok 0 (fun t => t.buf == [(3, 0xFF), (4, 0x64), (5, 0x64)]) = true := by
  decide

theorem test_step_fill_timeout :
    replies (runWord timed 0x0B0000000000FF00 [.answer .ok, .answer .timeout]) .timeout 0
      (fun t => t.buf == [(1, 0xFF)] && t.inflight == 1) = true := by decide

theorem test_step_fillw :
    replies (runWord (strip 2 .brg) 0x0C0000000A010203 [.answer .error]) .transmitRejected 0
      (fun t => pixelAt t.buf 0 == ⟨0x0D, 0x0B, 0x0C⟩ && pixelAt t.buf 1 == ⟨0x0D, 0x0B, 0x0C⟩) = true := by decide

theorem test_step_clear :
    replies (runWord { strip 1 .rgb with group := ⟨255, true, false⟩, buf := [(1, 9)] } 0x0D00000000000000
        ([.answer .ok] ++ playOne ++ [.answer .done, .ticks 600])) .ok 0
      (fun t => t.buf == [] && t.group.gammaBuilt &&
        t.streams == [⟨1, List.replicate 24 0x00088004 ++ [0x02580000], true⟩]) = true := by decide

theorem test_step_setbrt :
    replies (runWord State.reset 0x0E00000000000080 []) .ok 0 (fun t => t.group == ⟨128, false, false⟩) = true := by decide

theorem test_step_setgamma :
    replies (runWord State.reset 0x0F00000000000001 []) .ok 0 (fun t => t.group == ⟨255, true, false⟩) = true := by decide

theorem test_step_cvtw : replies (runWord freed 0x10000000000A141E []) .ok 0x0A000A14 (fun _ => true) = true := by decide

theorem test_step_cvtrgb : replies (runWord freed 0x1100000064C80000 []) .ok 0x00FF6464 (fun _ => true) = true := by decide

theorem test_step_lutrd :
    replies (runWord { strip 2 .rgb with group := ⟨255, true, false⟩ } 0x120000C800000000 []) .ok 0x95
      (fun t => !t.group.gammaBuilt) = true := by decide

/-! ### The events, and the contract of the channel (R93, R95, R142, R153) -/

theorem test_event_refused :
    step { strip 1 .rgb with inbox := [.event .chDone] } = .refused .doneWithNothingInFlight ∧
    step { State.reset with inbox := [.event .symPull] } = .refused .pullWithNothingToServe ∧
    step { flying with inbox := [.event .chDone] } = .refused .doneBeforeResetSymbol := ⟨rfl, rfl, rfl⟩

/-- A waiting command word is not accepted while the block is busy, and keeps its place (R61, R62). -/
theorem test_event_busyPort :
    nextIs (step { strip 1 .rgb with inbox := [.command 0x0400000000000000, .command 0x0500000000000000, .event (.answer .ok)] })
      (fun t => t.inbox == [.command 0x0500000000000000] && t.inflight == 1) = true := by decide

theorem test_event_stuck :
    nextIs (step { strip 1 .rgb with inbox := [.command 0x0300000000000000, .event (.answer .ok)] })
      (fun t => portBusy t && t.responses == []) = true := by decide

theorem test_event_reset :
    nextIs (step { flying with engine := .freeWait, inbox := [.event (.reset [(48, 1), (47, 8), (0, 7)])] })
      (fun t => t == { State.resetWith Config.default [(0, 7), (47, 8)] with streams := [⟨1, [], false⟩] }) = true := by decide

theorem test_encode_A5 :
    Machine.encode Config.default [0xA5] =
      [0x00048008, 0x00088004, 0x00048008, 0x00088004, 0x00088004, 0x00048008, 0x00088004, 0x00048008, 0x02580000] := by decide

theorem test_encode_empty : Machine.encode Config.default [] = [0x02580000] := by decide

/-- The sum of all entries (R112), row by row. -/
theorem test_gammaTable_sum :
    ([gammaRow0, gammaRow1, gammaRow2, gammaRow3, gammaRow4, gammaRow5, gammaRow6, gammaRow7].map List.sum).sum +
      ([gammaRow8, gammaRow9, gammaRowA, gammaRowB, gammaRowC, gammaRowD, gammaRowE, gammaRowF].map List.sum).sum = 20443 := by
  decide

theorem test_system_shared :
    (match systemStep 1 [{ strip 1 .rgb with cfg := { Config.default with sharing := .shared } },
        { State.reset with cfg := { Config.default with sharing := .shared }, inbox := [.command 0x0E00000000000064] }] with
      | .next sys => sys.map (fun s => s.group.brightness) == [100, 100]
      | .fault _ => false
      | .refused _ => false) = true := by decide

/-! ### Witnesses: for each statement with hypotheses, a concrete state and operands that meet them, clause by clause -/

/-- A strip in flight with its first symbol handed over and a NOP next. -/
def halfSent : State :=
  { strip 1 .rgb with
    buf := [(0, 0x80)]
    txq := [{ len := 1, k := 1, reads := [(0, 0x80)], sent := [data1 Config.default] }]
    inflight := 1
    inbox := [.command 0] }

theorem halfSent_inv : halfSent.Inv := by
  refine ⟨by decide, ⟨by decide, by decide⟩, ?_, by decide, ?_, ?_, ?_⟩
  · exact ⟨rfl, .inl ⟨⟨rfl, rfl, by decide, by decide⟩, rfl⟩⟩
  · intro x hx
    simp only [halfSent, List.mem_singleton] at hx
    subst hx
    refine ⟨rfl, by decide, by decide, by decide, [0x80, 0, 0], by decide, ?_, by decide⟩
    intro j v h
    rw [List.lookup_cons] at h
    split at h
    · rename_i hj
      simp only [beq_iff_eq] at hj
      subst hj
      exact h
    · simp at h
  · simp [halfSent]
  · intro e he
    simp [halfSent, strip, State.reset, State.resetWith] at he

theorem freed_inv : State.Inv { freed with inbox := [.command 0x0100000100000400] } := by
  refine ⟨by decide, ⟨by decide, by decide⟩, ?_, by decide, ?_, ?_, ?_⟩
  · exact ⟨rfl, .inr ⟨by decide, rfl, rfl, rfl⟩⟩
  · intro x hx
    simp [freed, State.reset, State.resetWith] at hx
  · simp [freed, State.reset, State.resetWith]
  · intro e he
    simp [freed, State.reset, State.resetWith] at he

theorem witness_ResetMeetsTheInvariant :
    Config.default.wf ∧ Config.wf { Config.default with t0l := 9, t1l := 5, trst := 32767, maxPixels := 2 ^ 24 - 1 } ∧
    Memory.wf [(0, 7), (47, 8)] = true ∧ ∀ c ∈ [((0, 7) : Host.Cell), (47, 8)], c.1 < 3 * Config.default.maxPixels := by decide

theorem witness_StepKeepsTheInvariant : halfSent.Inv ∧ ∃ t, step halfSent = .next t ∧ t.responses = [⟨.ok, 0⟩] :=
  ⟨halfSent_inv, exists_next (by decide)⟩

theorem witness_NoStepFaultsFromTheInvariant : halfSent.Inv := halfSent_inv

theorem witness_BetweenCommandsTheFourItemsHold :
    Config.default.wf ∧
    (∃ t, step { State.reset with inbox := .command 0x0100001000000001 :: asInputs [.answer .ok, .answer .ack] } = .next t ∧
      portBusy t = false ∧ t.lc = .live ∧ t.length.toNat = t.cfg.maxPixels) ∧
    portBusy State.reset = false ∧ State.reset.lc ≠ .live :=
  ⟨by decide, exists_next (by decide), by decide, by decide⟩

/-- The run of the statement above, of one step, from a drawn buffer. -/
theorem witness_BetweenCommandsTheFourItemsHold_run :
    Memory.wf [(47, 8)] = true ∧ (∀ c ∈ [((47, 8) : Host.Cell)], c.1 < 3 * Config.default.maxPixels) ∧
    ∃ t, Host.Core.run Sys2Proof.core 1
      ({ State.resetWith Config.default [(47, 8)] with
        inbox := .command 0x0100001000000001 :: asInputs [.answer .ok, .answer .ack] } : State) = .next t :=
  ⟨by decide, by decide, ⟨_, rfl⟩⟩

theorem witness_StepKeepsTheParameters : ∃ t, step halfSent = .next t ∧ t.cfg = Config.default := exists_next (by decide)

theorem witness_EncodeOfDecodeIsTheWord : decode 0x0100000300001207 = .ok (.init 3 7 18) := by decide

theorem witness_IdleBlockExecutesTheDecodedCommand :
    halfSent.engine = .idle ∧ halfSent.inbox = .command 0 :: [] ∧ decode 0 = .ok .nop := by decide

theorem witness_SetReservedBitAnswersIllegalCommand :
    fieldOpc 0x0D00000100000000 = opcodeValue .clear ∧ (0x0D00000100000000 : CmdWord) &&& mustBeZero .clear ≠ 0 ∧
    halfSent.engine = .idle ∧
    ({ halfSent with inbox := [.command 0x0D00000100000000] } : State).inbox = .command 0x0D00000100000000 :: [] := by decide

theorem witness_ReservedOpcodeAnswersIllegalCommand :
    0x13 ≤ (fieldOpc 0x1300000000000000).toNat ∧ (fieldOpc 1 = 0 ∧ (1 : CmdWord) ≠ 0) ∧ State.reset.engine = .idle ∧
    ({ State.reset with inbox := [.command 0x1300000000000000] } : State).inbox = .command 0x1300000000000000 :: [] ∧
    ({ State.reset with inbox := [.command 1] } : State).inbox = .command 1 :: [] := by decide

/-- A block in the middle of a FREE that hears nothing more from its channel, with a command word waiting. -/
def hanging : State := { flying with engine := .freeWait, inbox := [.command 0] }

theorem witness_BusyBlockAcceptsNoCommandAndMayBeStuck :
    hanging.engine ≠ .idle ∧ (∃ t, step hanging = .next t ∧ t.inbox = hanging.inbox) ∧ ∀ e, .event e ∉ hanging.inbox :=
  ⟨by decide, exists_next (by decide), by simp [hanging]⟩

theorem witness_EveryAnswerIsInTheTable :
    (∃ t, exec .refresh { timed with inbox := asInputs [.answer .ok, .answer .timeout] } = .next t ∧
      t.responses = [⟨.timeout, 0⟩]) ∧
    (∃ t, exec (.setraw 0 1) guarded = .next t ∧ t.responses = [⟨.busy, 0⟩]) ∧
    (∃ t, exec .refresh flying = .next t ∧ t.responses = [] ∧ portBusy t = true) ∧
    ∃ t, exec .refresh { flying with inbox := [.event (.reset [])] } = .next t ∧ t.responses = [] ∧ portBusy t = false ∧
      ¬NoResetServed { flying with inbox := [.event (.reset [])] } t :=
  ⟨exists_next (by decide), exists_next (by decide), exists_next (by decide), exists_next (by decide)⟩

theorem witness_NopAnswersOkAndChangesNothing : fieldOpc 0x0080000000000000 = 0 ∧ (0x0080000000000000 : CmdWord) ≠ 0 := by
  decide

theorem witness_InitChecksConfiguresAndGoesLive :
    (State.reset.lc ≠ .uninit ∨ (0 : Word24) = 0) ∧ (freed.lc ≠ .uninit) ∧
    (State.reset.lc = .uninit ∧ State.reset.cfg.maxPixels < (17 : Word24).toNat) ∧
    ((16 : Word24) ≠ 0 ∧ (16 : Word24).toNat ≤ State.reset.cfg.maxPixels ∧ Memory.wf [(0, 7), (48, 9)] = true) ∧
    ({ State.reset with inbox := asInputs [.answer .error] } : State).inbox = asInputs [.answer .error] ++ [] ∧
    ({ State.reset with inbox := asInputs [.answer .ok, .answer .ack] } : State).inbox =
      asInputs [.answer .ok, .answer .ack] ++ [] := by decide

theorem witness_FreeEndsTheStrip :
    freed.lc = .freed ∧ State.reset.lc = .uninit ∧ ((strip 1 .rgb).lc = .live ∧ (strip 1 .rgb).inflight = 0) ∧
    ({ strip 1 .rgb with inbox := asInputs [.answer .ack, .answer .ack] } : State).inbox =
      asInputs [.answer .ack, .answer .ack] ++ [] := by decide

theorem witness_FreeEndsTheStrip_inFlight :
    flying.lc = .live ∧ flying.inflight ≠ 0 ∧ playOne.all channelInput = true ∧
    (∃ u, serveAll playOne
      { flying with engine := .freeWait, chanTrace := .request (.waitAllDone none) :: flying.chanTrace, inbox := [] } = .next u ∧
        u.txq = []) ∧
    ∃ u, serveAll []
      { flying with engine := .freeWait, chanTrace := .request (.waitAllDone none) :: flying.chanTrace, inbox := [] } = .next u :=
  ⟨by decide, by decide, by decide, exists_next (by decide), ⟨_, rfl⟩⟩

theorem witness_RefreshWaitsForTheChannel :
    freed.lc ≠ .live ∧ ({ flying with inflight := 65535 } : State).inflight = 65535 ∧ flying.lc = .live ∧
    flying.inflight ≠ 65535 ∧ playOne.all channelInput = true ∧ timed.cfg.refreshTimeout ≠ none ∧ timed.cfg.trst ≤ 600 ∧
    (∃ u, serveAll playOne { timed with
      engine := .blockWait
      txq := timed.txq ++ [{ len := timed.length, k := 0, reads := [], sent := [] }]
      inflight := timed.inflight + 1
      chanTrace := [.request (.waitAllDone timed.cfg.refreshTimeout), .answer .ok, .request (.transmit 0)] ++ timed.chanTrace
      inbox := [] } = .next u ∧ u.txq = []) :=
  ⟨by decide, by decide, by decide, by decide, by decide, by decide, by decide, exists_next (by decide)⟩

/-- The latch wait's clauses at their boundary: 599 ticks leave one to wait, and a command word may be waiting meanwhile. -/
theorem witness_RefreshWaitsForTheChannel_latch :
    (∀ e, .event e ∉ [Input.command 0]) ∧ 599 < timed.cfg.trst ∧ timed.cfg.trst ≤ 600 ∧
    ∃ t, exec .refresh { timed with
      inbox := asInputs ([.answer .ok] ++ playOne ++ [.answer .done, .ticks 599]) ++ [.command 0] } = .next t ∧
      t.latchTimer = some 1 ∧ t.responses = [] :=
  ⟨by simp, by decide, by decide, exists_next (by decide)⟩

theorem strip_inv : (strip 1 .rgb).Inv := by
  refine ⟨by decide, ⟨by decide, by decide⟩, ⟨rfl, .inl ⟨⟨rfl, rfl, by decide, by decide⟩, rfl⟩⟩, by decide, ?_, ?_, ?_⟩
  · intro x hx
    simp [strip, State.reset, State.resetWith] at hx
  · simp [strip, State.reset, State.resetWith]
  · intro e he
    simp [strip, State.reset, State.resetWith] at he

/-- The strip in the last tick of a blocking refresh's latch wait. -/
def lastTick : State := { strip 1 .rgb with engine := .blockLatch, latchTimer := some 1, inbox := [.event (.ticks 1)] }

/-- A blocking refresh that answers OK, in the step that accepts it and in a later one. -/
theorem witness_RefreshWaitsForTheChannel_ok :
    State.Inv { strip 1 .rgb with inbox := asInputs (refreshEvents 1 600) } ∧ portBusy (strip 1 .rgb) = false ∧
    (∃ t, exec .refresh { strip 1 .rgb with inbox := asInputs (refreshEvents 1 600) } = .next t ∧ t.responses = [⟨.ok, 0⟩]) ∧
    lastTick.Inv ∧ lastTick.engine ∈ [Engine.blockTransmit, .blockWait, .blockLatch] ∧
    ∃ t, step lastTick = .next t ∧ t.responses = [⟨.ok, 0⟩] :=
  ⟨strip_inv, by decide, exists_next (by decide),
    ⟨strip_inv.1, strip_inv.2.1, ⟨⟨rfl, rfl, by decide, by decide⟩, rfl, rfl, 1, rfl, by decide, by decide⟩, strip_inv.2.2.2⟩,
    by decide, exists_next (by decide)⟩

theorem witness_UndisturbedRefreshSendsTheWholeBuffer :
    Playable (strip 1 .rgb) ∧ (strip 1 .rgb).inflight = 0 ∧ (strip 1 .rgb).txq = [] ∧ (strip 1 .rgb).cfg.trst ≤ 600 ∧
    Memory.wf (strip 1 .rgb).buf = true ∧
    ({ strip 1 .rgb with inbox := asInputs (refreshEvents 1 600) } : State).inbox = asInputs (refreshEvents 1 600) ++ [] := by
  decide

theorem witness_UndisturbedFillsComplete :
    (∃ d : ColorW, Instr.fillw ⟨200, 0, 0, 100⟩ = .fillw d ∧ (⟨255, 100, 100⟩ : Color) = rgbwToRgb d) ∧
    (Instr.clear = .clear ∧ (⟨0, 0, 0⟩ : Color) = ⟨0, 0, 0⟩) ∧ Playable (strip 16 .rgb) ∧ (strip 16 .rgb).inflight = 0 :=
  ⟨⟨_, rfl, by decide⟩, by decide, by decide, by decide⟩

theorem witness_RefreshaSubmitsAndReturns :
    State.reset.lc ≠ .live ∧ ({ flying with inflight := 65535 } : State).lc = .live ∧ flying.inflight ≠ 65535 ∧
    ({ flying with inbox := asInputs [.answer .error] } : State).inbox = asInputs [.answer .error] ++ [] ∧
    ({ flying with inbox := asInputs [.answer .ok] } : State).inbox = asInputs [.answer .ok] ++ [] := by decide

theorem witness_IsbusyAnswersWhetherAnythingIsInFlight :
    freed.lc ≠ .live ∧ (strip 1 .rgb).lc = .live ∧ 0 < flying.inflight.toNat := by decide

/-- The clauses of SETRAW, SETPIX and SETPIXW (and, without the guard, of READPIX) at the first and the last pixel. -/
theorem witness_pixelCommands :
    ((strip 2 .rgb).length.toNat ≤ (2 : Word24).toNat ∧ State.reset.lc ≠ .live) ∧
    (guarded.lc = .live ∧ (0 : Word24).toNat < guarded.length.toNat ∧ guarded.cfg.inflightGuard = true ∧ guarded.inflight ≠ 0) ∧
    (Playable (strip 2 .rgb) ∧ (1 : Word24).toNat < (strip 2 .rgb).length.toNat ∧ (0 : Word24).toNat < (strip 2 .rgb).length.toNat ∧
      ((strip 2 .rgb).cfg.inflightGuard = false ∨ (strip 2 .rgb).inflight = 0) ∧ Memory.wf (strip 2 .rgb).buf = true) := by decide

theorem witness_ReadregAnswersTheRegisterMap : 0x0B < (0x0C : Word24).toNat ∧ 0x0B < (0xFFFFFF : Word24).toNat := by decide

theorem witness_FillStoresEveryPixelThenRefreshes :
    freed.lc ≠ .live ∧ (guarded.lc = .live ∧ guarded.cfg.inflightGuard = true ∧ guarded.inflight ≠ 0) ∧
    (Playable flying ∧ flying.cfg.inflightGuard = false ∧ Memory.wf flying.buf = true) := by decide

theorem witness_FillEqualsSetpixOnEveryPixel :
    Playable (strip 1 .rgb) ∧
    (∃ t, exec (.fill ⟨1, 2, 3⟩) (strip 1 .rgb) = .next t ∧ NoResetServed (strip 1 .rgb) t ∧ memByte t.buf 2 = 3) ∧
    ∃ u, exec (.setpix 0 ⟨1, 2, 3⟩) (strip 1 .rgb) = .next u ∧ memByte u.buf 2 = 3 :=
  ⟨by decide, exists_next (by decide), exists_next (by decide)⟩

theorem witness_GuardAnswersBusyToEveryMutation :
    guarded.lc = .live ∧ guarded.cfg.inflightGuard = true ∧ guarded.inflight ≠ 0 ∧
    (∃ n raw, Instr.setraw 0 1 = .setraw n raw ∧ n.toNat < guarded.length.toNat) ∧
    (∃ n c, Instr.setpix 0 ⟨1, 2, 3⟩ = .setpix n c ∧ n.toNat < guarded.length.toNat) ∧
    (∃ n c, Instr.setpixw 0 ⟨1, 2, 3, 4⟩ = .setpixw n c ∧ n.toNat < guarded.length.toNat) :=
  ⟨by decide, by decide, by decide, ⟨_, _, rfl, by decide⟩, ⟨_, _, rfl, by decide⟩, ⟨_, _, rfl, by decide⟩⟩

theorem witness_StripCommandsNeedTheirLifecycleState :
    State.reset.lc ≠ .live ∧ freed.lc ≠ .live ∧ (strip 1 .rgb).lc ≠ .uninit ∧ (Instr.init 1 0 4).opcode = .init ∧
    Instr.isbusy.opcode ∈ [Opcode.refresh, .refresha, .isbusy, .setraw, .readpix, .setpix, .setpixw, .fill, .fillw, .clear] := by
  decide

theorem witness_ErrorsWithoutChannelAnswersArePrecise :
    (∃ t, exec (.setraw 1 0) guarded = .next t ∧ t.responses = ⟨.invalidArgument, 0⟩ :: guarded.responses) ∧
    (∃ t, exec .refresh { flying with inflight := 65535 } = .next t ∧
      t.responses = ⟨.transmitRejected, 0⟩ :: flying.responses) ∧
    (Instr.setraw 1 0).opcode ∉ [Opcode.init, .free, .refresh, .refresha, .fill, .fillw, .clear] ∧
    (∀ e, .event e ∉ ({ flying with inflight := 65535 } : State).inbox) ∧
    Instr.refresh.opcode ∉ [Opcode.fill, .fillw, .clear] :=
  ⟨exists_next (by decide), exists_next (by decide), by decide, by simp [flying, strip, State.reset, State.resetWith], by decide⟩

/-- A group write is served meanwhile, and a reset is still to come. -/
theorem witness_LifecycleMovesOnlyByInitAndFree :
    (∃ t, exec (.init 1 0 4)
        { State.reset with inbox := asInputs [.groupWrite .gammaUse, .answer .ok, .answer .ack, .reset []] } = .next t ∧
      t.lc = .live ∧
      NoResetServed { State.reset with inbox := asInputs [.groupWrite .gammaUse, .answer .ok, .answer .ack, .reset []] } t) ∧
    (∃ t, exec .free State.reset = .next t ∧ t.lc = .freed ∧ NoResetServed State.reset t) ∧
    State.Inv { freed with inbox := [.command 0x0100000100000400] } ∧ freed.lc = .freed ∧
    ∃ t, step { freed with inbox := [.command 0x0100000100000400] } = .next t ∧ t.responses = [⟨.invalidArgument, 0⟩] ∧
      NoResetServed { freed with inbox := [.command 0x0100000100000400] } t :=
  ⟨exists_next (by decide), exists_next (by decide), freed_inv, rfl, exists_next (by decide)⟩

theorem witness_OnlyInitWritesLengthOrderAndPin :
    ∃ t, exec (.init 16 7 255) { State.reset with inbox := asInputs [.answer .ok, .answer .ack] } = .next t ∧
      t.length = 16 ∧ t.order = .grb ∧ t.pin = 255 ∧
      NoResetServed { State.reset with inbox := asInputs [.answer .ok, .answer .ack] } t :=
  exists_next (by decide)

theorem witness_WritersOfTheConfigurationGroup :
    ∃ t, exec (.setpix 0 ⟨1, 2, 3⟩) { strip 1 .rgb with group := ⟨7, true, false⟩ } = .next t ∧ t.group = ⟨7, true, true⟩ ∧
      NoResetServed (strip 1 .rgb) t ∧ NoGroupWriteServed (strip 1 .rgb) t :=
  exists_next (by decide)

theorem witness_OtherCommandsLeaveTheBuffer :
    (∃ t, exec .refresh { strip 1 .rgb with buf := [(0, 9)], inbox := asInputs [.answer .ok, .symPull] } = .next t ∧
      t.buf = [(0, 9)] ∧ NoResetServed { strip 1 .rgb with inbox := asInputs [.answer .ok, .symPull] } t) ∧
    Instr.refresh.opcode ∉ [Opcode.init, .setraw, .setpix, .setpixw, .fill, .fillw, .clear] :=
  ⟨exists_next (by decide), by decide⟩

theorem witness_InitHidesTheOldBuffer :
    Memory.wf [(0, 7), (47, 8)] = true ∧ Memory.wf [(2, 1)] = true ∧ State.reset.lc = .uninit ∧ State.reset.txq = [] ∧
    ∃ t, exec (.init 16 0 0) { State.reset with buf := [(0, 7), (47, 8)], inbox := asInputs [.answer .ok, .answer .ack] } =
      .next t ∧ t.lc = .live :=
  ⟨by decide, by decide, rfl, rfl, exists_next (by decide)⟩

theorem witness_CompletionEventEndsTheOldestTransmission :
    (strip 1 .rgb).engine = .idle ∧ (strip 1 .rgb).txq = [] ∧ flying.chan = .enabled ∧
    ({ len := 1, k := 25, reads := [], sent := [] } : Tx).k = 24 * (1 : Word24).toNat + 1 ∧
    ({ flying with inbox := [.event .chDone] } : State).inbox = .event .chDone :: [] := by decide

/-- The three clauses of a pull: nothing open, the first data symbol of an unread byte, a later one of a read byte, and RESET. -/
theorem witness_PullServesTheOldestOpenRecord :
    (∀ x ∈ (strip 1 .rgb).txq, 24 * x.len.toNat + 1 ≤ x.k) ∧ Playable flying ∧ flying.txq = [] ++ newTx 1 :: [] ∧
    ((newTx 1).k < 24 * (newTx 1).len.toNat ∧ (newTx 1).reads.lookup 0 = none) ∧
    (halfSent.txq = [] ++ { len := 1, k := 1, reads := [(0, 0x80)], sent := [data1 Config.default] } :: [] ∧
      [(0, (0x80 : Byte))].lookup (1 / 8) = some 0x80) ∧
    ({ len := 1, k := 24, reads := [], sent := [] } : Tx).k = 24 * (1 : Word24).toNat ∧ (newTx 1).len = flying.length ∧
    ({ flying with inbox := [.event .symPull] } : State).inbox = .event .symPull :: [] := by decide

/-- A pull, an accepted transmission behind one in flight, and a completion event before another in flight. -/
theorem witness_GeneratorReadsEachByteOnce :
    (∃ t, serveEvent .symPull flying = .next t ∧
      t.txq[0]? = some { len := 1, k := 1, reads := [(0, 0)], sent := [data0 Config.default] }) ∧
    (∃ t, serveEvent (.answer .ok) { flying with engine := .asyncTransmit } = .next t ∧
      t.txq[1]? = some (newTx flying.length) ∧ flying.txq.length = 1) ∧
    ∃ t, serveEvent .chDone { flying with txq := [{ newTx 1 with k := 25 }, newTx 1] } = .next t ∧ t.txq[0]? = some (newTx 1) :=
  ⟨exists_next (by decide), exists_next (by decide), exists_next (by decide)⟩

theorem witness_RacingTransmissionAdmitsEveryCombination : Playable flying ∧ flying.txq = [newTx flying.length] := by decide

theorem witness_LatchWaitLastsAtLeastItsTicks :
    ({ strip 1 .rgb with engine := .blockWait } : State).engine = .blockWait ∧ (strip 1 .rgb).txq = [] ∧
    flying.latchTimer = none ∧ ({ flying with latchTimer := some 600 } : State).latchTimer = some 600 ∧ 599 < 600 ∧ 600 ≤ 600 := by
  decide

theorem witness_ResetInputAbandonsTheCommand :
    ({ hanging with inbox := [.event (.reset [(47, 8)]), .command 0] } : State).inbox =
      .event (.reset [(47, 8)]) :: [.command 0] ∧
    Memory.wf [(47, 8)] = true ∧ (∀ c ∈ [((47, 8) : Host.Cell)], c.1 < 3 * hanging.cfg.maxPixels) ∧
    hanging.cfg.sharing = .perInstance ∧
    ({ hanging with cfg := { Config.default with sharing := .shared } } : State).cfg.sharing = .shared ∧
    [hanging, flying][1]? = some flying ∧
    (systemReset (fun _ => []) [hanging, flying])[1]? = some { State.reset with streams := [⟨1, [], false⟩] } := by decide

/-- Two instances in `SHARED` mode, the second with a SETBRT next. -/
def twoShared : List State :=
  [{ strip 1 .rgb with cfg := { Config.default with sharing := .shared } },
    { State.reset with cfg := { Config.default with sharing := .shared }, inbox := [.command 0x0E00000000000064] }]

theorem witness_InstancesShareOnlyTheGroup :
    (∃ sys', systemStep 1 twoShared = .next sys' ∧
      (∃ s s', twoShared[0]? = some s ∧ sys'[0]? = some s' ∧ s.cfg.sharing = .shared ∧ s'.group.brightness = 100) ∧
      ∃ a a', twoShared[1]? = some a ∧ sys'[1]? = some a' ∧ a.cfg.sharing = .shared) ∧
    flying.cfg.sharing = .perInstance :=
  ⟨⟨_, rfl, ⟨_, _, rfl, rfl, rfl, by decide⟩, ⟨_, _, rfl, rfl, rfl⟩⟩, by decide⟩

theorem witness_SymbolWordsAreThoseOfTheTable : data1 Config.default ∈ Machine.encode Config.default [0x80] := by decide

theorem witness_EncodeIndexesEveryBitOnce :
    [(0xAB : Byte), 0xCD][13 / 8]? = some 0xCD ∧ [(0x80 : Byte), 0, 1].length = 3 * (1 : Word24).toNat := by decide

/-- The tick before the first symbol, the first tick of the wave and the first one after it. -/
theorem witness_WaveformPlaysTheSymbolsWithoutGap :
    Config.default.wf ∧ (-1 : Int) < 0 ∧ (0 : Int) ≤ 0 ∧ (waveformTicks (waveform [data0 Config.default]) : Int) ≤ 12 ∧
    lineLevel (waveform [data0 Config.default]) (-1) = false ∧ lineLevel (waveform [data0 Config.default]) 0 = true := by decide

theorem witness_FrameTimeFollowsFromItsBits :
    Config.wf { Config.default with t0l := 9 } ∧ [(0 : Byte), 0, 0].length = 3 * 1 := by decide

theorem witness_GammaTableIsTheRoundedPower : (15 : Byte).toNat ≤ (255 : Byte).toNat := by decide

theorem witness_BrightnessStepIsExactFloorDivision : (254 : Byte) ≠ 255 := by decide

theorem witness_ColourLawsOfTheSourceHold :
    255 < (200 : Byte).toNat + (100 : Byte).toNat ∧
    (0 < (10 : Byte).toNat ∧ (1 : Byte) ≠ 0 ∧ (2 : Byte) ≠ 0 ∧ (3 : Byte) ≠ 0) := by decide

theorem witness_AssemblerRefusesWhatDoesNotFit :
    AsmForm "INIT" [3, 255, 18] (.init 3 255 18) ∧ assembleNumeric "INIT" [3, 255, 18] = some (.init 3 255 18) ∧
    assembleNumeric "FILLW" [2 ^ 32] = none ∧ assembleNumeric "READPIX" [2 ^ 24] = none ∧ assembleNumeric "LUTRD" [256] = none ∧
    readDigits 16 0 ['A'] = some 10 ∧ digitValue 'f' = some 15 ∧ 15 < 16 :=
  ⟨.init 3 255 18, by decide⟩

end Sys2Proof.Tests
end

