-- ==== Sys2Proof/Proofs/Parameters.lean ====
section
/-! The parameters of R7 through one step. `Answers` is the shape of a statement about the next state of an operation that may
also fault or refuse; its rules follow the operations that the meanings of the commands are built from. -/

namespace Sys2Proof.Proofs
open Sys2Proof.Machine Sys2Proof.Laws

/-! ### What holds of every answer of an operation -/

/-- If the operation answers a next state, `P` holds of it. -/
def Answers (P : State → Prop) (r : StepResult) : Prop := ∀ t, r = .next t → P t

variable {P : State → Prop} {s : State}

@[simp] theorem answers_next : Answers P (.next s) ↔ P s :=
  ⟨fun h => h s rfl, fun h _ ht => by cases ht; exact h⟩

@[simp] theorem answers_raise {status : Status} : Answers P (raise status s) ↔ P (respond status 0 s) := answers_next

/-- An access to the buffer answers only what it guards. -/
theorem answers_withBuffer {n : Nat} {r : StepResult} (h : Answers P r) : Answers P (withBuffer n s r) :=
  fun t ht => h t (withBuffer_next ht).2.2

/-! ### Serving events and running a command -/

/-- No event writes a parameter, not even a reset (R151). -/
theorem serveEvent_cfg {e : Event} {s t : State} (h : serveEvent e s = .next t) : t.cfg = s.cfg := by
  cases e with
  | answer a =>
    obtain ⟨l, o, p, -, ⟨-, rfl⟩ | ⟨-, rfl⟩⟩ | ⟨l, o, p, -, -, rfl⟩ | ⟨-, -, rfl⟩ | ⟨-, -, rfl⟩ | ⟨-, -, rfl⟩ |
      ⟨-, ⟨-, rfl⟩ | ⟨-, rfl⟩⟩ | ⟨-, ⟨-, rfl⟩ | ⟨-, rfl⟩⟩ | ⟨-, ⟨-, -, rfl⟩ | ⟨-, -, rfl⟩ | ⟨-, rfl⟩⟩ :=
      serveAnswer_next h <;> simp
  | chDone =>
    obtain ⟨x, rest, -, -, -, rfl⟩ := serveDone_next h
    rfl
  | symPull =>
    obtain ⟨x, -, -, -, -, rfl⟩ := servePull_next h
    rfl
  | genRead n j =>
    obtain ⟨x, -, -, -, -, rfl⟩ := serveGenRead_next h
    rfl
  | ticks n =>
    obtain ⟨-, rfl⟩ | ⟨r, -, -, rfl⟩ | ⟨r, -, -, rfl⟩ := serveTicks_next h <;> simp
  | groupWrite w =>
    obtain ⟨g, rfl, -⟩ := serveGroupWrite_next h
    rfl
  | reset contents =>
    cases h
    exact afterReset_cfg contents s

/-- The run of the command engine keeps the parameters, by the induction over its events. -/
theorem runCommand_cfg {c : Config} (h : s.cfg = c) : Answers (·.cfg = c) (runCommand s) :=
  fun t ht => @runEngine_keeps (·.cfg = c) (fun _ _ _ _ hs _ _ he => (serveEvent_cfg he).trans hs) _ s t h ht

@[simp] theorem submit_cfg (p : Engine) (s : State) : (submit p s).cfg = s.cfg := by
  obtain ⟨-, h⟩ | ⟨-, h⟩ := submit_cases p s <;> simp [h]

theorem blockingRefresh_cfg {c : Config} (h : s.cfg = c) : Answers (·.cfg = c) (blockingRefresh s) :=
  runCommand_cfg ((submit_cfg _ s).trans h)

/-! ### The meanings of the commands -/

/-- A check that refuses the command keeps the parameters where what follows it does (R137). -/
theorem check_cfg {c : Prop} [Decidable c] {status : Status} {r : StepResult} (h : Answers (·.cfg = s.cfg) r) :
    Answers (·.cfg = s.cfg) (if c then raise status s else r) := by
  split
  · simp
  · exact h

theorem execInit_cfg (l : Word24) (o p : Byte) (s : State) : Answers (·.cfg = s.cfg) (execInit l o p s) :=
  check_cfg (check_cfg (check_cfg (runCommand_cfg rfl)))

theorem execFree_cfg (s : State) : Answers (·.cfg = s.cfg) (execFree s) := by
  unfold execFree
  split
  · simp
  · simp
  · split <;> exact runCommand_cfg rfl

theorem execReadreg_cfg (n : Word24) (s : State) : Answers (·.cfg = s.cfg) (execReadreg n s) := by
  unfold execReadreg
  split <;> simp

theorem setPixelColor_cfg (i : Word24) (col : Color) (s : State) : Answers (·.cfg = s.cfg) (setPixelColor i col s) :=
  check_cfg (check_cfg (check_cfg (answers_withBuffer (answers_next.mpr rfl))))

theorem fillColor_cfg (col : Color) (s : State) : Answers (·.cfg = s.cfg) (fillColor col s) :=
  check_cfg (check_cfg (answers_withBuffer (blockingRefresh_cfg rfl)))

/-- No command writes a parameter (R77). -/
theorem exec_cfg (i : Instr) (s : State) : Answers (·.cfg = s.cfg) (exec i s) := by
  cases i with
  | init l o p => exact execInit_cfg l o p s
  | free => exact execFree_cfg s
  | refresh => exact check_cfg (blockingRefresh_cfg rfl)
  | refresha => exact check_cfg (runCommand_cfg (submit_cfg _ s))
  | isbusy => exact check_cfg (answers_next.mpr rfl)
  | setraw i raw => exact check_cfg (check_cfg (check_cfg (answers_withBuffer (answers_next.mpr rfl))))
  | readpix i => exact check_cfg (check_cfg (answers_withBuffer (answers_next.mpr rfl)))
  | readreg n => exact execReadreg_cfg n s
  | setpix i col => exact setPixelColor_cfg i col s
  | setpixw i col => exact setPixelColor_cfg i (rgbwToRgb col) s
  | fill col => exact fillColor_cfg col s
  | fillw col => exact fillColor_cfg (rgbwToRgb col) s
  | clear => exact fillColor_cfg { r := 0, g := 0, b := 0 } s
  | nop | setbrt _ | setgamma _ | cvtw _ | cvtrgb _ | lutrd _ => exact answers_next.mpr rfl

/-- Settles O6: an idle block serves an event or runs a command or answers an error, and a busy one runs its command on; none of
these writes `cfg`. -/
theorem stepKeepsTheParameters : Obligations.StepKeepsTheParameters := by
  intro s t h
  unfold step at h
  split at h
  · split at h
    · cases h
      rfl
    · rename_i w rest _
      split at h
      · exact exec_cfg _ { s with inbox := rest } t h
      · cases h
        rfl
    · rename_i e rest _
      have he : t.cfg = ({ s with inbox := rest } : State).cfg := serveEvent_cfg h
      exact he
  · exact runCommand_cfg rfl t h

end Sys2Proof.Proofs
end

