-- ==== Sys2Proof/Proofs/Transmissions.lean ====
section
/-! The invariant of a record of TXQ (R34, R52, R86) under what happens to a record: its submission, a read by the generator, the
hand-over of a symbol, and its leaving TXQ. -/

namespace Sys2Proof.Proofs
open Sys2Proof.Machine Sys2Proof.Laws

/-! ### The encoding of a byte sequence, symbol by symbol (R82, R83) -/

/-- `encode` gives eight symbols a byte and RESET. -/
theorem encode_length (cfg : Config) (bytes : List Byte) : (Machine.encode cfg bytes).length = 8 * bytes.length + 1 := by
  rw [Machine.encode, List.length_append, dataSymbols_length, List.length_singleton]

/-- A data symbol of the encoding is that of its byte and bit (R81). -/
theorem encode_getElem?_data {cfg : Config} {bytes : List Byte} {k : Nat} {v : Byte} (h : bytes[k / 8]? = some v) :
    (Machine.encode cfg bytes)[k]? = some (dataSymbol cfg (v.getLsbD (7 - k % 8))) := by
  have hk : k / 8 < bytes.length := (List.getElem?_eq_some_iff.mp h).1
  rw [Machine.encode, List.getElem?_append_left (by rw [dataSymbols_length]; omega)]
  exact dataSymbols_get cfg bytes k v h

/-- After the data symbols stands RESET (R80, R82). -/
theorem encode_getElem?_reset (cfg : Config) (bytes : List Byte) :
    (Machine.encode cfg bytes)[8 * bytes.length]? = some (resetSymbol cfg) := by
  simp [Machine.encode, ← dataSymbols_length cfg]

/-- The symbols of the first `j` bytes do not depend on byte `j`. -/
theorem encode_take_set (cfg : Config) {bytes : List Byte} {j k : Nat} (v : Byte) (hj : j < bytes.length) (hk : k ≤ 8 * j) :
    (Machine.encode cfg (bytes.set j v)).take k = (Machine.encode cfg bytes).take k := by
  have cut (bs : List Byte) (h : j < bs.length) :
      (Machine.encode cfg bs).take k = ((bs.take j).flatMap (encodeByte cfg)).take k := by
    conv_lhs => rw [Machine.encode, ← List.take_append_drop j bs, List.flatMap_append, List.append_assoc]
    refine List.take_append_of_le_length ?_
    rw [dataSymbols_length, List.length_take]
    omega
  rw [cut _ (by simpa using hj), cut _ hj, List.take_set_of_le (Nat.le_refl j)]

/-! ### What happens to a record -/

variable {cfg : Config} {x : Tx}

/-- A record is open while one of its `24*L + 1` symbols is left (R34, R83). -/
theorem txOpen_eq_true : txOpen x = true ↔ x.k < 24 * x.len.toNat + 1 := by simp [txOpen, frameSymbols]

theorem txOpen_eq_false : txOpen x = false ↔ 24 * x.len.toNat + 1 ≤ x.k := by simp [txOpen, frameSymbols]

/-- A submitted record has read nothing and handed over nothing (R94). -/
theorem txInv_newTx (cfg : Config) (l : Word24) : TxInv cfg (newTx l) :=
  ⟨Nat.zero_le _, by simp [newTx], by simp [newTx], List.replicate (3 * l.toNat) 0, by simp [newTx], by simp [newTx],
    by simp [newTx]⟩

/-- The generator may read any byte of the record that it has not read and of which it has handed over nothing (R52): whatever it
reads, the symbols handed over are the first ones of an encoding of what it has read. -/
theorem txInv_read {j : Nat} (v : Byte) (h : TxInv cfg x) (hj : j < 3 * x.len.toNat) (hk : x.k ≤ 8 * j)
    (hn : x.reads.lookup j = none) : TxInv cfg { x with reads := (j, v) :: x.reads } := by
  obtain ⟨hle, hmem, hread, bytes, hlen, hbytes, hsent⟩ := h
  refine ⟨hle, ?_, ?_, bytes.set j v, by simpa using hlen, ?_, ?_⟩
  · rintro c (_ | ⟨_, hc⟩)
    · exact hj
    · exact hmem c hc
  · intro i hi (hik : 8 * i < x.k)
    have hne : (i == j) = false := by simpa using (by omega : i ≠ j)
    simpa [List.lookup_cons, hne] using hread i hi hik
  · intro i w hw
    by_cases hij : i = j
    · subst hij
      simp only [List.lookup_cons, beq_self_eq_true, Option.some.injEq] at hw
      simp [hw, hlen, hj]
    · have hne : (i == j) = false := by simpa using hij
      simp only [List.lookup_cons, hne] at hw
      rw [List.getElem?_set_ne (Ne.symm hij)]
      exact hbytes i w hw
  · rw [encode_take_set cfg v (by omega) hk]
    exact hsent

/-- The same for the read that a pull makes, which reads nothing when the byte is read already (R86). -/
theorem txInv_readsWith {j : Nat} (m : Mem) (h : TxInv cfg x) (hj : j < 3 * x.len.toNat)
    (hk : x.k ≤ 8 * j ∨ (x.reads.lookup j).isSome) : TxInv cfg { x with reads := readsWith m x j } := by
  unfold readsWith
  split
  · exact h
  · rename_i hn
    exact txInv_read _ h hj (hk.resolve_right (by simp [hn])) hn

/-- Symbol `k` may be handed over once its byte is read (R83, R86). -/
theorem txInv_handOver {sym : SymbolWord} (h : TxInv cfg x) (hopen : x.k < 24 * x.len.toNat + 1)
    (hdata : x.k < 24 * x.len.toNat →
      ∃ v, x.reads.lookup (x.k / 8) = some v ∧ sym = dataSymbol cfg (v.getLsbD (7 - x.k % 8)))
    (hreset : ¬ x.k < 24 * x.len.toNat → sym = resetSymbol cfg) :
    TxInv cfg { x with k := x.k + 1, sent := x.sent ++ [sym] } := by
  obtain ⟨-, hmem, hread, bytes, hlen, hbytes, hsent⟩ := h
  refine ⟨hopen, hmem, ?_, bytes, hlen, hbytes, ?_⟩
  · intro j (hj : j < 3 * x.len.toNat) (hjk : 8 * j < x.k + 1)
    by_cases hlt : 8 * j < x.k
    · exact hread j hj hlt
    · obtain ⟨v, hv, -⟩ := hdata (by omega)
      rw [show j = x.k / 8 by omega, hv]
      rfl
  · have hsym : (Machine.encode cfg bytes)[x.k]? = some sym := by
      by_cases hk : x.k < 24 * x.len.toNat
      · obtain ⟨v, hv, rfl⟩ := hdata hk
        exact encode_getElem?_data (hbytes _ _ hv)
      · rw [hreset hk, ← encode_getElem?_reset cfg bytes]
        congr 1
        omega
    simp [List.take_add_one, hsym, hsent]

/-- A pull keeps the invariant of the record that serves it (R86). -/
theorem txInv_pullTx (m : Mem) (h : TxInv cfg x) (hopen : txOpen x = true) : TxInv cfg (pullTx cfg m x) := by
  have hopen : x.k < 24 * x.len.toNat + 1 := txOpen_eq_true.mp hopen
  unfold pullTx nextSymbol
  split
  · rename_i hk
    have hread : x.k ≤ 8 * (x.k / 8) ∨ (x.reads.lookup (x.k / 8)).isSome := by
      by_cases hlt : 8 * (x.k / 8) < x.k
      · exact .inr (h.2.2.1 _ (by omega) hlt)
      · exact .inl (by omega)
    exact txInv_handOver (txInv_readsWith m h (by omega) hread) hopen
      (fun _ => ⟨_, readsWith_lookup m x _, rfl⟩) (absurd hk)
  · rename_i hk
    exact txInv_handOver h hopen (fun h => absurd h hk) (fun _ => rfl)

/-- A record that is cut has handed over the beginning of an encoding (R84). -/
theorem streamInv_cut (h : TxInv cfg x) : StreamInv cfg (endStream false x) := by
  obtain ⟨-, -, -, bytes, hlen, -, hsent⟩ := h
  refine ⟨bytes, hlen, ?_⟩
  simp only [endStream, hsent]
  exact List.take_prefix _ _

/-- A record that completes has handed over a whole encoding (R84, R93 item 5). -/
theorem streamInv_completed (h : TxInv cfg x) (hclosed : txOpen x = false) : StreamInv cfg (endStream true x) := by
  obtain ⟨-, -, -, bytes, hlen, -, hsent⟩ := h
  have hk : (Machine.encode cfg bytes).length ≤ x.k := by
    have := txOpen_eq_false.mp hclosed
    rw [encode_length]
    omega
  exact ⟨bytes, hlen, hsent.trans (List.take_of_length_le hk)⟩

theorem streamInv_cutStreams {q : List Tx} (h : ∀ x ∈ q, TxInv cfg x) : ∀ e ∈ cutStreams q, StreamInv cfg e := by
  intro e he
  simp only [cutStreams, List.mem_reverse, List.mem_map] at he
  obtain ⟨x, hx, rfl⟩ := he
  exact streamInv_cut (h x hx)

end Sys2Proof.Proofs
end

