-- ==== Sys2Proof/Proofs/Commands.lean ====
section
/-! What a served event and a decoded command can do, said once for the statements about single items of state: an event other than
a reset leaves the strip as it is but for the last answers of INIT and FREE, and a command writes what its own rule says before it
answers or waits for the channel. -/

namespace Sys2Proof.Proofs
open Sys2Proof.Machine Sys2Proof.Laws

/-! ### A served event -/

/-- The command that the engine is in the middle of; a blocking refresh stands for the four commands that use it (R92, R100). -/
def commandOf : Engine → Option Opcode
  | .idle => none
  | .initConfigure _ _ _ | .initEnable _ _ _ => some .init
  | .freeWait | .freeDisable | .freeRelease => some .free
  | .asyncTransmit => some .refresha
  | .blockTransmit | .blockWait | .blockLatch => some .refresh

/-- The lifecycle and the items that only INIT writes are the same (R18, R20, R21, R26). -/
structure SameStrip (s t : State) : Prop where
  lc : t.lc = s.lc
  length : t.length = s.length
  order : t.order = s.order
  pin : t.pin = s.pin

/-- The command is still the same one and has sent no response, or the engine is idle again. -/
def StillIn (s t : State) : Prop :=
  t.engine = .idle ∨ (commandOf t.engine = commandOf s.engine ∧ t.responses = s.responses)

/-- The event leaves the strip, the buffer and the inbox, and the group unless the event is a write of it. -/
structure LeavesStrip (e : Event) (s t : State) : Prop extends SameStrip s t where
  group : isGroupWrite (.event e) = false → t.group = s.group
  buf : t.buf = s.buf
  inbox : t.inbox = s.inbox
  stillIn : StillIn s t

variable {i : Instr} {e : Event} {s t u : State}

theorem serveAnswer_cases {a : ChannelAnswer} (h : serveAnswer a s = .next t) :
    (∃ l o p, s.engine = .initEnable l o p ∧ t = finishInit l o p (noted .ack s)) ∨
    (s.engine = .freeRelease ∧ t = finishFree (noted .ack s)) ∨ LeavesStrip (.answer a) s t := by
  obtain ⟨l, o, p, he, ⟨-, rfl⟩ | ⟨-, rfl⟩⟩ | ⟨l, o, p, he, rfl, rfl⟩ | ⟨he, -, rfl⟩ | ⟨he, -, rfl⟩ | ⟨he, rfl, rfl⟩ |
    ⟨-, ⟨-, rfl⟩ | ⟨-, rfl⟩⟩ | ⟨he, ⟨-, rfl⟩ | ⟨-, rfl⟩⟩ | ⟨he, ⟨-, -, rfl⟩ | ⟨-, -, rfl⟩ | ⟨-, rfl⟩⟩ := serveAnswer_next h
  -- the answers that end INIT and FREE
  case inr.inl => exact .inl ⟨l, o, p, he, rfl⟩
  case inr.inr.inr.inr.inl => exact .inr (.inl ⟨he, rfl⟩)
  all_goals
    refine .inr (.inr ⟨⟨rfl, rfl, rfl, rfl⟩, fun _ => rfl, rfl, rfl, ?_⟩)
    simp [StillIn, commandOf, *]

/-- An event other than a reset is the last answer of INIT or of FREE, or it leaves the strip. -/
theorem serveEvent_cases (hr : isReset (.event e) = false) (h : serveEvent e s = .next t) :
    (∃ l o p, s.engine = .initEnable l o p ∧ t = finishInit l o p (noted .ack s)) ∨
    (s.engine = .freeRelease ∧ t = finishFree (noted .ack s)) ∨ LeavesStrip e s t := by
  cases e with
  | answer a => exact serveAnswer_cases h
  | chDone =>
    obtain ⟨x, rest, -, -, -, rfl⟩ := serveDone_next h
    exact .inr (.inr ⟨⟨rfl, rfl, rfl, rfl⟩, fun _ => rfl, rfl, rfl, .inr ⟨rfl, rfl⟩⟩)
  | symPull =>
    obtain ⟨x, -, -, -, -, rfl⟩ := servePull_next h
    exact .inr (.inr ⟨⟨rfl, rfl, rfl, rfl⟩, fun _ => rfl, rfl, rfl, .inr ⟨rfl, rfl⟩⟩)
  | genRead n j =>
    obtain ⟨x, -, -, -, -, rfl⟩ := serveGenRead_next h
    exact .inr (.inr ⟨⟨rfl, rfl, rfl, rfl⟩, fun _ => rfl, rfl, rfl, .inr ⟨rfl, rfl⟩⟩)
  | ticks n =>
    refine .inr (.inr ?_)
    obtain ⟨-, rfl⟩ | ⟨r, -, -, rfl⟩ | ⟨r, -, -, rfl⟩ := serveTicks_next h
    · exact ⟨⟨rfl, rfl, rfl, rfl⟩, fun _ => rfl, rfl, rfl, .inr ⟨rfl, rfl⟩⟩
    · exact ⟨⟨rfl, rfl, rfl, rfl⟩, fun _ => rfl, rfl, rfl, .inr ⟨rfl, rfl⟩⟩
    · exact ⟨⟨rfl, rfl, rfl, rfl⟩, fun _ => rfl, rfl, rfl, .inl rfl⟩
  | groupWrite w =>
    obtain ⟨g, rfl, -⟩ := serveGroupWrite_next h
    exact .inr (.inr ⟨⟨rfl, rfl, rfl, rfl⟩, nofun, rfl, rfl, .inr ⟨rfl, rfl⟩⟩)
  | reset contents => cases hr

/-- What is served has left the inbox, and the block puts nothing into it. -/
theorem serveEvent_inbox (h : serveEvent e s = .next t) : t.inbox = s.inbox := by
  by_cases hr : isReset (.event e) = false
  · obtain ⟨l, o, p, -, rfl⟩ | ⟨-, rfl⟩ | hl := serveEvent_cases hr h
    · rfl
    · rfl
    · exact hl.inbox
  · cases e with
    | reset contents => cases h; rfl
    | _ => exact absurd rfl hr

/-! ### The run of a command, event by event -/

/-- What one round of the run does: nothing, for an idle engine or with no event to come, or an event is served and the run goes on. -/
theorem runEngine_succ_next {n : Nat} (h : runEngine (n + 1) s = .next t) :
    (t = s ∧ (s.engine = .idle ∨ takeEvent s.inbox = none)) ∨
    ∃ e rest u, s.engine ≠ .idle ∧ takeEvent s.inbox = some (e, rest) ∧
      serveEvent e { s with inbox := rest } = .next u ∧ runEngine n u = .next t := by
  simp only [runEngine] at h
  split at h
  · cases h
    exact .inl ⟨rfl, .inl ‹_›⟩
  · split at h
    · cases h
      exact .inl ⟨rfl, .inr ‹_›⟩
    · split at h
      · exact .inr ⟨_, _, _, ‹_›, ‹_›, ‹_›, h⟩
      · cases h
      · cases h

theorem runEngine_serves {rest : List Input} {n : Nat} (hb : s.engine ≠ .idle) (ht : takeEvent s.inbox = some (e, rest))
    (hs : serveEvent e { s with inbox := rest } = .next t) : runEngine (n + 1) s = runEngine n t := by
  simp [runEngine, hb, ht, hs]

/-! ### A run in which inputs of some kind are not served -/

/-- At most `n` inputs of kind `p` are still to come, and if they are `n`, `Q` holds. -/
def UnlessServed (p : Input → Bool) (n : Nat) (Q : State → Prop) (u : State) : Prop :=
  u.inbox.countP p ≤ n ∧ (u.inbox.countP p = n → Q u)

/-- What every event of another kind keeps, a run keeps in which no input of kind `p` is served. -/
theorem runCommand_keeps_unserved {p : Input → Bool} {Q : State → Prop}
    (hq : ∀ e rest s t, Q s → s.engine ≠ .idle → p (.event e) = false → serveEvent e { s with inbox := rest } = .next t → Q t)
    (hs : Q s) (h : runCommand s = .next t) (hc : t.inbox.countP p = s.inbox.countP p) : Q t := by
  have keeps : UnlessServed p (s.inbox.countP p) Q t := by
    refine runEngine_keeps (P := UnlessServed p (s.inbox.countP p) Q) ?_ _ s t ⟨le_rfl, fun _ => hs⟩ h
    intro e rest u v ⟨hle, hu⟩ hbusy htake hserve
    obtain ⟨before, after, hin, rfl, -⟩ := takeEvent_some htake
    have hv : v.inbox = before ++ after := serveEvent_inbox hserve
    have hcount : u.inbox.countP p = v.inbox.countP p + if p (.event e) then 1 else 0 := by
      simp only [hin, hv, List.countP_append, List.countP_cons]
      omega
    by_cases hp : p (.event e) = true
    · rw [if_pos hp] at hcount
      exact ⟨by omega, fun h => by omega⟩
    · rw [if_neg hp] at hcount
      exact ⟨by omega, fun h => hq e _ u v (hu (by omega)) hbusy (by simpa using hp) hserve⟩
  exact keeps.2 hc

/-! ### A command -/

/-- What a command does when it is executed: its own writes, and then its response or the run on through the channel's answers. -/
inductive ExecCase (s : State) : Instr → State → Prop
  /-- An answer with no other change: a refused check, or a command that only reads. -/
  | answers (i : Instr) (status : Status) (data : Word32) : ExecCase s i (respond status data s)
  /-- INIT past its checks (R98). -/
  | inits {t : State} {l : Word24} {o p : Byte} : s.lc = .uninit → l ≠ 0 → l.toNat ≤ s.cfg.maxPixels →
    runCommand (sendRequest (.configure p Config.resHz s.cfg.chBufferDepth) (.initConfigure l o p)
      { s with buf := zeroFill (3 * l.toNat) s.buf, bufAlloc := true }) = .next t → ExecCase s (.init l o p) t
  /-- FREE in UNINIT (R99). -/
  | freesUninit : s.lc = .uninit → ExecCase s .free (respond .ok 0 { s with lc := .freed })
  /-- FREE of a live strip (R99). -/
  | frees {t : State} {r : ChannelRequest} {p : Engine} : s.lc = .live → p = .freeWait ∨ p = .freeDisable → runCommand (sendRequest r p s) = .next t →
    ExecCase s .free t
  /-- REFRESH (R100). -/
  | refreshes {t : State} : s.lc = .live → runCommand (submit .blockTransmit s) = .next t → ExecCase s .refresh t
  /-- REFRESHA (R101). -/
  | refreshesAsync {t : State} : s.lc = .live → runCommand (submit .asyncTransmit s) = .next t → ExecCase s .refresha t
  /-- SETRAW past its checks (R103). -/
  | storesRaw {index raw : Word24} : s.lc = .live → 3 * index.toNat + 3 ≤ 3 * s.cfg.maxPixels →
    ExecCase s (.setraw index raw) (respond .ok 0 { s with buf := setPixel s.buf index.toNat (unpackRaw24 raw) })
  /-- SETPIX or SETPIXW past its checks (R122, R123). -/
  | stores {i : Instr} {index : Word24} (c : Color) : i.opcode = .setpix ∨ i.opcode = .setpixw → s.lc = .live →
    3 * index.toNat + 3 ≤ 3 * s.cfg.maxPixels → ExecCase s i (respond .ok 0 (storePixel index c s))
  /-- FILL, FILLW or CLEAR past its checks (R124 to R126). -/
  | fills {i : Instr} {t : State} (c : Color) : i.opcode = .fill ∨ i.opcode = .fillw ∨ i.opcode = .clear → s.lc = .live →
    3 * s.length.toNat ≤ 3 * s.cfg.maxPixels → runCommand (submit .blockTransmit (storeAll c s)) = .next t → ExecCase s i t
  /-- SETBRT (R127). -/
  | setsBrightness (bri : Byte) :
    ExecCase s (.setbrt bri) (respond .ok 0 { s with group := { s.group with brightness := bri } })
  /-- SETGAMMA (R128). -/
  | setsGamma (en : Bool) : ExecCase s (.setgamma en) (respond .ok 0 { s with group := { s.group with gammaEn := en } })

/-- A check refuses the command, or it passes (R137). -/
theorem check_next {c : Prop} [Decidable c] {status : Status} {r : StepResult}
    (h : (if c then raise status s else r) = .next t) : t = respond status 0 s ∨ (¬c ∧ r = .next t) := by
  split at h
  · cases h
    exact .inl rfl
  · exact .inr ⟨‹_›, h⟩

theorem setPixelColor_case {index : Word24} {c : Color} (hi : i.opcode = .setpix ∨ i.opcode = .setpixw)
    (h : setPixelColor index c s = .next t) : ExecCase s i t := by
  obtain rfl | ⟨hlive, h⟩ := check_next h
  · exact .answers ..
  obtain rfl | ⟨-, h⟩ := check_next h
  · exact .answers ..
  obtain rfl | ⟨-, h⟩ := check_next h
  · exact .answers ..
  obtain ⟨-, hn, h⟩ := withBuffer_next h
  cases h
  exact .stores c hi (not_not.mp hlive) hn

theorem fillColor_case {c : Color} (hi : i.opcode = .fill ∨ i.opcode = .fillw ∨ i.opcode = .clear)
    (h : fillColor c s = .next t) : ExecCase s i t := by
  obtain rfl | ⟨hlive, h⟩ := check_next h
  · exact .answers ..
  obtain rfl | ⟨-, h⟩ := check_next h
  · exact .answers ..
  obtain ⟨-, hn, h⟩ := withBuffer_next h
  exact .fills c hi (not_not.mp hlive) hn h

theorem execInit_case {l : Word24} {o p : Byte} (h : execInit l o p s = .next t) : ExecCase s (.init l o p) t := by
  obtain rfl | ⟨hlc, h⟩ := check_next h
  · exact .answers ..
  obtain rfl | ⟨hl, h⟩ := check_next h
  · exact .answers ..
  obtain rfl | ⟨hmax, h⟩ := check_next h
  · exact .answers ..
  exact .inits (not_not.mp hlc) hl (not_lt.mp hmax) h

theorem execFree_case (h : execFree s = .next t) : ExecCase s .free t := by
  unfold execFree at h
  split at h
  · cases h
    exact .answers ..
  · cases h
    exact .freesUninit ‹_›
  · split at h
    · exact .frees ‹_› (.inl rfl) h
    · exact .frees ‹_› (.inr rfl) h

theorem execSetraw_case {index raw : Word24} (h : execSetraw index raw s = .next t) : ExecCase s (.setraw index raw) t := by
  obtain rfl | ⟨hlive, h⟩ := check_next h
  · exact .answers ..
  obtain rfl | ⟨-, h⟩ := check_next h
  · exact .answers ..
  obtain rfl | ⟨-, h⟩ := check_next h
  · exact .answers ..
  obtain ⟨-, hn, h⟩ := withBuffer_next h
  cases h
  exact .storesRaw (not_not.mp hlive) hn

theorem execReadpix_case {index : Word24} (h : execReadpix index s = .next t) : ExecCase s (.readpix index) t := by
  obtain rfl | ⟨-, h⟩ := check_next h
  · exact .answers ..
  obtain rfl | ⟨-, h⟩ := check_next h
  · exact .answers ..
  obtain ⟨-, -, h⟩ := withBuffer_next h
  cases h
  exact .answers ..

theorem execReadreg_case {regnum : Word24} (h : execReadreg regnum s = .next t) : ExecCase s (.readreg regnum) t := by
  unfold execReadreg at h
  split at h
  · cases h
    exact .answers ..
  · cases h
    exact .answers ..

/-- Every command does one of these. -/
theorem exec_case (h : exec i s = .next t) : ExecCase s i t := by
  cases i with
  | init l o p => exact execInit_case h
  | free => exact execFree_case h
  | refresh =>
    obtain rfl | ⟨hlive, h⟩ := check_next h
    · exact .answers ..
    · exact .refreshes (not_not.mp hlive) h
  | refresha =>
    obtain rfl | ⟨hlive, h⟩ := check_next h
    · exact .answers ..
    · exact .refreshesAsync (not_not.mp hlive) h
  | isbusy =>
    obtain rfl | ⟨-, h⟩ := check_next h
    · exact .answers ..
    · cases h
      exact .answers ..
  | setraw index raw => exact execSetraw_case h
  | readpix index => exact execReadpix_case h
  | readreg regnum => exact execReadreg_case h
  | setpix index c => exact setPixelColor_case (.inl rfl) h
  | setpixw index c => exact setPixelColor_case (.inr rfl) h
  | fill c => exact fillColor_case (.inl rfl) h
  | fillw c => exact fillColor_case (.inr (.inl rfl)) h
  | clear => exact fillColor_case (.inr (.inr rfl)) h
  | setbrt bri => cases h; exact .setsBrightness bri
  | setgamma en => cases h; exact .setsGamma en
  | nop | cvtw _ | cvtrgb _ | lutrd _ => cases h; exact .answers ..

/-- INIT past its checks configures the channel (R98). -/
theorem exec_init_of_checks {l : Word24} (o p : Byte) (hlc : s.lc = .uninit) (hl : l ≠ 0) (hmax : l.toNat ≤ s.cfg.maxPixels) :
    exec (.init l o p) s =
      runCommand (sendRequest (.configure p Config.resHz s.cfg.chBufferDepth) (.initConfigure l o p)
        { s with buf := zeroFill (3 * l.toNat) s.buf, bufAlloc := true }) := by
  rw [exec, execInit, if_neg (not_not.mpr hlc), if_neg hl, if_neg (not_lt.mpr hmax)]

/-- A submission is refused, or the command runs on from its request (R94). -/
theorem runCommand_submit {p : Engine} (h : runCommand (submit p s) = .next t) :
    t = respond .transmitRejected 0 s ∨
      (s.inflight ≠ 65535 ∧ runCommand (sendRequest (.transmit Config.loopCount) p s) = .next t) := by
  obtain ⟨-, hs⟩ | ⟨hn, hs⟩ := submit_cases p s
  · rw [hs, runCommand_idle rfl] at h
    cases h
    exact .inl rfl
  · exact .inr ⟨hn, hs ▸ h⟩

end Sys2Proof.Proofs
end

