-- ==== Sys2Proof/Proofs/Invariant.lean ====
section
/-! The invariant of the block is kept by every step (R25, R27, R33, R34, R40). Its parts are kept apart: the parameters
(`serveEvent_cfg`), the buffer, the position of the command engine, and TXQ with the streams that have left it. -/

namespace Sys2Proof.Proofs
open Sys2Proof.Machine Sys2Proof.Laws

variable {e : Event} {s t : State}

/-- The part of the invariant that speaks of TXQ and of the streams that have left it (R25, R34, R84, R86). -/
def QueueInv (s : State) : Prop :=
  s.inflight.toNat = s.txq.length ∧
  (∀ x ∈ s.txq, x.len = s.length ∧ TxInv s.cfg x) ∧
  s.txq.Pairwise (fun x y => txOpen x = true → y.k = 0) ∧
  ∀ e ∈ s.streams, StreamInv s.cfg e

theorem inv_iff : s.Inv ↔ s.cfg.wf ∧ BufferInv s ∧ EngineInv s ∧ QueueInv s := Iff.rfl

/-! ### The buffer -/

theorem bufferInv_of_eq (h : BufferInv s) (hb : t.buf = s.buf) (hc : t.cfg = s.cfg) : BufferInv t := by
  unfold BufferInv
  rw [hb, hc]
  exact h

/-- No event writes the buffer but a reset, which draws a canonical one (R41, R153). -/
theorem serveEvent_bufferInv (h : BufferInv s) (hs : serveEvent e s = .next t) : BufferInv t := by
  by_cases hr : isReset (.event e) = false
  · refine bufferInv_of_eq h ?_ (serveEvent_cfg hs)
    obtain ⟨l, o, p, -, rfl⟩ | ⟨-, rfl⟩ | hl := serveEvent_cases hr hs
    · rfl
    · rfl
    · exact hl.buf
  · cases e with
    | reset contents => cases hs; exact ⟨drawnBuffer_wf _ _, drawnBuffer_below _ _⟩
    | _ => exact absurd rfl hr

/-! ### The command engine -/

/-- Between commands (R40). -/
theorem engineInv_idle (he : s.engine = .idle) : EngineInv s ↔ s.latchTimer = none ∧
    ((StripInv s ∧ s.chan = .enabled) ∨ (s.lc ≠ .live ∧ s.bufAlloc = false ∧ s.chan = .none ∧ s.txq = [])) := by
  rw [EngineInv, he]

/-- The latch timer runs in the latch wait only (R35, R100). -/
theorem engineInv_latch {r : Nat} (h : EngineInv s) (hr : s.latchTimer = some r) :
    s.engine = .blockLatch ∧ StripInv s ∧ s.chan = .enabled ∧ s.txq = [] ∧ 1 ≤ r ∧ r ≤ s.cfg.trst := by
  unfold EngineInv at h
  split at h <;> simp_all

/-- A position of the engine asks of TXQ only that it is empty or not full, so it stays good where TXQ has not grown. -/
theorem engineInv_queue {q : List Tx} {n : BitVec 16} {ended : List EndedStream} (h : EngineInv s)
    (hq : q.length ≤ s.txq.length) : EngineInv { s with txq := q, inflight := n, streams := ended } := by
  have hnil : s.txq = [] → q = [] := fun h => List.length_eq_zero_iff.mp (by simpa [h] using hq)
  unfold EngineInv at h ⊢
  cases he : s.engine <;> simp only [he, StripInv] at h ⊢ <;> grind

/-- Each answer that the contract allows leads to the next position of its command, or ends it (R92, R98 to R101). -/
theorem serveAnswer_engineInv {a : ChannelAnswer} (hc : s.cfg.wf) (h : EngineInv s) (hs : serveAnswer a s = .next t) :
    EngineInv t := by
  obtain ⟨l, o, p, he, ⟨-, rfl⟩ | ⟨-, rfl⟩⟩ | ⟨l, o, p, he, rfl, rfl⟩ | ⟨he, -, rfl⟩ | ⟨he, -, rfl⟩ | ⟨he, rfl, rfl⟩ |
    ⟨he, ⟨-, rfl⟩ | ⟨-, rfl⟩⟩ | ⟨he, ⟨-, rfl⟩ | ⟨-, rfl⟩⟩ | ⟨he, ⟨-, hq, rfl⟩ | ⟨-, -, rfl⟩ | ⟨-, rfl⟩⟩ :=
    serveAnswer_next hs
  all_goals rw [EngineInv, he] at h
  · obtain ⟨ht, hlc, ha, -, hq, hpos, hmax⟩ := h
    exact ⟨ht, hlc, ha, rfl, hq, hpos, hmax⟩
  · obtain ⟨ht, hlc, -, hchan, hq, -⟩ := h
    exact ⟨ht, .inr ⟨by simp [hlc], rfl, hchan, hq⟩⟩
  · obtain ⟨ht, -, ha, -, -, hpos, hmax⟩ := h
    exact ⟨ht, .inl ⟨⟨rfl, ha, hpos, hmax⟩, rfl⟩⟩
  · exact h
  · obtain ⟨ht, hstrip, -⟩ := h
    exact ⟨ht, hstrip, rfl⟩
  · exact ⟨h.1, .inr ⟨nofun, rfl, rfl, rfl⟩⟩
  -- a blocking refresh is accepted, and its channel is done
  case inr.inr.inr.inr.inr.inr.inl.inl =>
    obtain ⟨ht, hstrip, hchan, -⟩ := h
    exact ⟨ht, hstrip, hchan⟩
  case inr.inr.inr.inr.inr.inr.inr.inl =>
    obtain ⟨-, hstrip, hchan⟩ := h
    exact ⟨hstrip, hchan, hq, s.cfg.trst, rfl, by omega, le_rfl⟩
  -- a submission ends the command: REFRESHA is accepted, or the channel rejects it
  case inr.inr.inr.inr.inr.inl.inl | inr.inr.inr.inr.inr.inl.inr | inr.inr.inr.inr.inr.inr.inl.inr =>
    obtain ⟨ht, hstrip, hchan, -⟩ := h
    exact ⟨ht, .inl ⟨hstrip, hchan⟩⟩
  -- a blocking refresh ends with TIMEOUT or ERROR
  all_goals exact ⟨h.1, .inl h.2⟩

theorem serveTicks_engineInv {n : Nat} (h : EngineInv s) (hs : serveTicks n s = .next t) : EngineInv t := by
  obtain ⟨-, rfl⟩ | ⟨r, hr, hn, rfl⟩ | ⟨r, hr, -, rfl⟩ := serveTicks_next hs
  · exact h
  · obtain ⟨he, hstrip, hchan, hq, -, htrst⟩ := engineInv_latch h hr
    simp only [EngineInv, he]
    exact ⟨hstrip, hchan, hq, r - n, rfl, by omega, by omega⟩
  · obtain ⟨-, hstrip, hchan, -⟩ := engineInv_latch h hr
    exact (engineInv_idle rfl).mpr ⟨rfl, .inl ⟨hstrip, hchan⟩⟩

/-! ### TXQ -/

/-- A record changes in place: its L stays, it is still a good one, and if another symbol of it is handed over, every record before it
is closed and it was open. -/
theorem queueInv_replace {before after : List Tx} {x x' : Tx} (h : QueueInv s) (hq : s.txq = before ++ x :: after)
    (hlen : x'.len = x.len) (hx : TxInv s.cfg x → TxInv s.cfg x')
    (hbefore : x'.k = x.k ∨ ∀ y ∈ before, txOpen y = false) (hopen : txOpen x' = true → txOpen x = true) :
    QueueInv { s with txq := before ++ x' :: after } := by
  obtain ⟨hn, hall, hpair, hstreams⟩ := h
  rw [hq] at hn hall hpair
  refine ⟨by simpa using hn, ?_, ?_, hstreams⟩
  · intro y hy
    obtain hy | rfl | hy := by simpa using hy
    · exact hall y (by simp [hy])
    · obtain ⟨hl, hi⟩ := hall x (by simp)
      exact ⟨hlen.trans hl, hx hi⟩
    · exact hall y (by simp [hy])
  · simp only [List.pairwise_append, List.pairwise_cons, List.mem_cons] at hpair ⊢
    obtain ⟨hb, ⟨hxa, ha⟩, hba⟩ := hpair
    refine ⟨hb, ⟨fun y hy hy' => hxa y hy (hopen hy'), ha⟩, ?_⟩
    rintro y hy z (rfl | hz) hyo
    · obtain hk | hclosed := hbefore
      · exact hk.trans (hba y hy x (.inl rfl) hyo)
      · simp [hclosed y hy] at hyo
    · exact hba y hy z (.inr hz) hyo

theorem servePull_queueInv (h : QueueInv s) (hs : servePull s = .next t) : QueueInv t := by
  obtain ⟨x, hx, -, -, -, rfl⟩ := servePull_next hs
  obtain ⟨before, after, hq, hclosed, hopen, hpull⟩ := find_open hx
  rw [hpull]
  exact queueInv_replace h hq rfl (fun hi => txInv_pullTx _ hi hopen) (.inr hclosed) (fun _ => hopen)

theorem serveGenRead_queueInv {n j : Nat} (h : QueueInv s) (hs : serveGenRead n j s = .next t) : QueueInv t := by
  obtain ⟨x, hx, hj, hk, hnone, rfl⟩ := serveGenRead_next hs
  obtain ⟨hn, hget⟩ := List.getElem?_eq_some_iff.mp hx
  have hq : s.txq = s.txq.take n ++ x :: s.txq.drop (n + 1) := by
    rw [← hget, List.getElem_cons_drop, List.take_append_drop]
  rw [List.set_eq_take_append_cons_drop, if_pos hn]
  exact queueInv_replace h hq rfl (fun hi => txInv_read _ hi hj hk hnone) (.inl rfl) id

theorem serveDone_queueInv (h : QueueInv s) (hs : serveDone s = .next t) : QueueInv t := by
  obtain ⟨x, rest, hq, -, hclosed, rfl⟩ := serveDone_next hs
  obtain ⟨hn, hall, hpair, hstreams⟩ := h
  rw [hq] at hn hall hpair
  simp only [List.length_cons] at hn
  refine ⟨?_, fun y hy => hall y (by simp [hy]), (List.pairwise_cons.mp hpair).2, ?_⟩
  · show (s.inflight - 1).toNat = rest.length
    bv_omega
  · rintro e (_ | ⟨_, he⟩)
    · exact streamInv_completed (hall x (by simp)).2 hclosed
    · exact hstreams e he

/-- An accepted transmission goes behind the others, with nothing handed over (R94). -/
theorem queueInv_accept (h : QueueInv s) (hlt : s.txq.length < 65535) : QueueInv (acceptTransmission s) := by
  obtain ⟨hn, hall, hpair, hstreams⟩ := h
  refine ⟨?_, ?_, ?_, hstreams⟩
  · simp only [acceptTransmission_inflight, acceptTransmission_txq, List.length_append, List.length_singleton]
    bv_omega
  · intro x hx
    obtain hx | rfl := by simpa using hx
    · exact hall x hx
    · exact ⟨rfl, txInv_newTx _ _⟩
  · refine List.pairwise_append.mpr ⟨hpair, List.pairwise_singleton _ _, ?_⟩
    rintro x - y hy -
    rw [List.mem_singleton.mp hy]
    rfl

/-- FREE and a reset cut what is still in TXQ (R99, R151). -/
theorem queueInv_cut (h : QueueInv s) : ∀ e ∈ cutStreams s.txq ++ s.streams, StreamInv s.cfg e := by
  intro e he
  obtain he | he := List.mem_append.mp he
  · exact streamInv_cutStreams (fun x hx => (h.2.1 x hx).2) e he
  · exact h.2.2.2 e he

/-- An empty TXQ meets the invariant whatever LENGTH is. -/
theorem queueInv_nil (hn : s.inflight = 0) (hq : s.txq = []) (hs : ∀ e ∈ s.streams, StreamInv s.cfg e) : QueueInv s := by
  refine ⟨by simp [hn, hq], by simp [hq], by simp [hq], hs⟩

/-- Only the answers that accept a transmission or end INIT or FREE touch TXQ or LENGTH (R94, R98, R99). -/
theorem serveAnswer_queueInv {a : ChannelAnswer} (he : EngineInv s) (h : QueueInv s) (hs : serveAnswer a s = .next t) :
    QueueInv t := by
  have room (hp : s.engine = .asyncTransmit ∨ s.engine = .blockTransmit) : s.txq.length < 65535 := by
    obtain hp | hp := hp <;> · rw [EngineInv, hp] at he; exact he.2.2.2
  have hnoted : QueueInv (noted a s) := h
  obtain ⟨l, o, p, -, ⟨-, rfl⟩ | ⟨-, rfl⟩⟩ | ⟨l, o, p, hp, rfl, rfl⟩ | ⟨-, -, rfl⟩ | ⟨-, -, rfl⟩ | ⟨-, rfl, rfl⟩ |
    ⟨hp, ⟨-, rfl⟩ | ⟨-, rfl⟩⟩ | ⟨hp, ⟨-, rfl⟩ | ⟨-, rfl⟩⟩ | ⟨-, ⟨-, -, rfl⟩ | ⟨-, -, rfl⟩ | ⟨-, rfl⟩⟩ :=
    serveAnswer_next hs
  -- INIT writes LENGTH while TXQ is empty
  case inr.inl =>
    rw [EngineInv, hp] at he
    obtain ⟨-, -, -, -, hq, -⟩ := he
    have hn : s.inflight = 0 := BitVec.eq_of_toNat_eq (by simp [h.1, hq])
    exact queueInv_nil hn hq h.2.2.2
  -- FREE empties TXQ
  case inr.inr.inr.inr.inl => exact queueInv_nil rfl rfl (queueInv_cut h)
  -- REFRESHA's or a blocking refresh's transmission is accepted
  case inr.inr.inr.inr.inr.inl.inl => exact queueInv_accept hnoted (room (.inl hp))
  case inr.inr.inr.inr.inr.inr.inl.inl => exact queueInv_accept hnoted (room (.inr hp))
  all_goals exact h

/-! ### Every event -/

theorem serveEvent_engineInv (hc : s.cfg.wf) (h : EngineInv s) (hs : serveEvent e s = .next t) : EngineInv t := by
  cases e with
  | answer a => exact serveAnswer_engineInv hc h hs
  | chDone =>
    obtain ⟨x, rest, hq, -, -, rfl⟩ := serveDone_next hs
    exact engineInv_queue h (by simp [hq])
  | symPull =>
    obtain ⟨x, hx, -, -, -, rfl⟩ := servePull_next hs
    obtain ⟨before, after, hq, -, -, hpull⟩ := find_open hx
    exact engineInv_queue h (by rw [hpull, hq]; simp)
  | genRead n j =>
    obtain ⟨x, -, -, -, -, rfl⟩ := serveGenRead_next hs
    exact engineInv_queue h (by simp)
  | ticks n => exact serveTicks_engineInv h hs
  | groupWrite w =>
    obtain ⟨g, rfl, -⟩ := serveGroupWrite_next hs
    exact h
  | reset contents =>
    cases hs
    exact (engineInv_idle rfl).mpr ⟨rfl, .inr ⟨by simp, rfl, rfl, rfl⟩⟩

theorem serveEvent_queueInv (he : EngineInv s) (h : QueueInv s) (hs : serveEvent e s = .next t) : QueueInv t := by
  cases e with
  | answer a => exact serveAnswer_queueInv he h hs
  | chDone => exact serveDone_queueInv h hs
  | symPull => exact servePull_queueInv h hs
  | genRead n j => exact serveGenRead_queueInv h hs
  | ticks n =>
    obtain ⟨-, rfl⟩ | ⟨r, -, -, rfl⟩ | ⟨r, -, -, rfl⟩ := serveTicks_next hs <;> exact h
  | groupWrite w =>
    obtain ⟨g, rfl, -⟩ := serveGroupWrite_next hs
    exact h
  | reset contents =>
    cases hs
    exact queueInv_nil rfl rfl (queueInv_cut h)

/-- Every event keeps the invariant, in the middle of a command and between two. -/
theorem serveEvent_inv (h : s.Inv) (hs : serveEvent e s = .next t) : t.Inv := by
  obtain ⟨hc, hb, he, hq⟩ := inv_iff.mp h
  exact inv_iff.mpr ⟨serveEvent_cfg hs ▸ hc, serveEvent_bufferInv hb hs, serveEvent_engineInv hc he hs,
    serveEvent_queueInv he hq hs⟩

/-- The invariant does not speak of what is still to come. -/
theorem inv_inbox {inbox : List Input} (h : s.Inv) : State.Inv { s with inbox := inbox } := h

theorem runCommand_inv (h : s.Inv) (hs : runCommand s = .next t) : t.Inv :=
  runEngine_keeps (P := State.Inv) (fun _ _ _ _ hu _ _ hv => serveEvent_inv (inv_inbox hu) hv) _ s t h hs

/-! ### Every command -/

/-- What the invariant says of an idle block with a live strip (R40). -/
theorem strip_of_inv (h : s.Inv) (hi : s.engine = .idle) (hl : s.lc = .live) :
    s.latchTimer = none ∧ StripInv s ∧ s.chan = .enabled := by
  obtain ⟨-, -, he, -⟩ := inv_iff.mp h
  obtain ⟨ht, ⟨hstrip, hchan⟩ | ⟨hn, -⟩⟩ := (engineInv_idle hi).mp he
  · exact ⟨ht, hstrip, hchan⟩
  · exact absurd hl hn

/-- What the invariant says of an idle block whose strip is not live (R40). -/
theorem empty_of_inv (h : s.Inv) (hi : s.engine = .idle) (hl : s.lc ≠ .live) :
    s.latchTimer = none ∧ s.bufAlloc = false ∧ s.chan = .none ∧ s.txq = [] := by
  obtain ⟨-, -, he, -⟩ := inv_iff.mp h
  obtain ⟨ht, ⟨hstrip, -⟩ | ⟨-, ha, hchan, hq⟩⟩ := (engineInv_idle hi).mp he
  · exact absurd hstrip.1 hl
  · exact ⟨ht, ha, hchan, hq⟩

/-- An idle block answers: nothing the invariant speaks of changes. -/
theorem respond_inv {status : Status} {data : Word32} (h : s.Inv) (hi : s.engine = .idle) : (respond status data s).Inv := by
  obtain ⟨hc, hb, he, hq⟩ := inv_iff.mp h
  exact inv_iff.mpr ⟨hc, hb, (engineInv_idle rfl).mpr ((engineInv_idle hi).mp he), hq⟩

/-- A write of the buffer's bytes that exist, or of the group, keeps the invariant (R41). -/
theorem write_inv {m : Mem} {g : ConfigGroup} (h : s.Inv) (hm : Memory.wf m = true) (hb : below m (3 * s.cfg.maxPixels)) :
    State.Inv { s with buf := m, group := g } := by
  obtain ⟨hc, -, he, hq⟩ := inv_iff.mp h
  exact inv_iff.mpr ⟨hc, ⟨hm, hb⟩, he, hq⟩

theorem runCommand_submit_inv {p : Engine} (hp : p = .asyncTransmit ∨ p = .blockTransmit) (h : s.Inv) (hi : s.engine = .idle)
    (hl : s.lc = .live) (hs : runCommand (submit p s) = .next t) : t.Inv := by
  obtain rfl | ⟨hne, hs⟩ := runCommand_submit hs
  · exact respond_inv h hi
  refine runCommand_inv ?_ hs
  obtain ⟨hc, hb, -, hq⟩ := inv_iff.mp h
  obtain ⟨ht, hstrip, hchan⟩ := strip_of_inv h hi hl
  have room : s.txq.length < 65535 := by
    have := hq.1
    bv_omega
  refine inv_iff.mpr ⟨hc, hb, ?_, hq⟩
  obtain rfl | rfl := hp <;> exact ⟨ht, hstrip, hchan, room⟩

theorem exec_inv {i : Instr} (h : s.Inv) (hi : s.engine = .idle) (hs : exec i s = .next t) : t.Inv := by
  obtain ⟨hc, ⟨hwf, hbelow⟩, -, hq⟩ := inv_iff.mp h
  cases exec_case hs with
  | answers => exact respond_inv h hi
  | @inits _ l _ _ hlc hl hmax hrun =>
    obtain ⟨ht, -, hchan, htxq⟩ := empty_of_inv h hi (by simp [hlc])
    have hpos : 1 ≤ l.toNat := by bv_omega
    have hfill : 3 * l.toNat ≤ 3 * s.cfg.maxPixels := by omega
    refine runCommand_inv ?_ hrun
    exact inv_iff.mpr ⟨hc, ⟨zeroFill_wf hwf _, zeroFill_below hbelow _ hfill⟩, ⟨ht, hlc, rfl, hchan, htxq, hpos, hmax⟩, hq⟩
  | freesUninit hlc =>
    obtain ⟨ht, ha, hchan, htxq⟩ := empty_of_inv h hi (by simp [hlc])
    exact inv_iff.mpr ⟨hc, ⟨hwf, hbelow⟩, (engineInv_idle rfl).mpr ⟨ht, .inr ⟨by simp, ha, hchan, htxq⟩⟩, hq⟩
  | frees hlc hp hrun =>
    refine runCommand_inv ?_ hrun
    refine inv_iff.mpr ⟨hc, ⟨hwf, hbelow⟩, ?_, hq⟩
    have strip := strip_of_inv h hi hlc
    obtain rfl | rfl := hp <;> exact strip
  | refreshes hlc hrun => exact runCommand_submit_inv (.inr rfl) h hi hlc hrun
  | refreshesAsync hlc hrun => exact runCommand_submit_inv (.inl rfl) h hi hlc hrun
  | storesRaw hlc hn => exact respond_inv (write_inv h (setPixel_wf hwf _ _) (setPixel_below hbelow hn _)) hi
  | stores c hop hlc hn => exact respond_inv (write_inv h (setPixel_wf hwf _ _) (setPixel_below hbelow hn _)) hi
  | fills c hop hlc hn hrun =>
    exact runCommand_submit_inv (.inr rfl) (write_inv h (fillPixels_wf hwf _ _) (fillPixels_below hbelow _ _ hn)) hi hlc hrun
  | setsBrightness bri => exact respond_inv (write_inv h hwf hbelow) hi
  | setsGamma en => exact respond_inv (write_inv h hwf hbelow) hi

/-- What a step does: an idle block waits, runs a command, refuses a word or serves an event, and a busy one runs its command on
(R61, R62, R92, R144). -/
theorem step_next (h : step s = .next t) :
    (s.engine = .idle ∧ (t = s ∨
      (∃ w rest i, s.inbox = .command w :: rest ∧ exec i { s with inbox := rest } = .next t) ∨
      (∃ w rest, s.inbox = .command w :: rest ∧ t = respond .illegalCommand 0 { s with inbox := rest }) ∨
      ∃ e rest, s.inbox = .event e :: rest ∧ serveEvent e { s with inbox := rest } = .next t)) ∨
    (s.engine ≠ .idle ∧ runCommand s = .next t) := by
  unfold step at h
  split at h
  · rename_i hi
    refine .inl ⟨hi, ?_⟩
    split at h
    · cases h
      exact .inl rfl
    · rename_i w rest hin
      split at h
      · exact .inr (.inl ⟨w, rest, _, hin, h⟩)
      · cases h
        exact .inr (.inr (.inl ⟨w, rest, hin, rfl⟩))
    · rename_i e rest hin
      exact .inr (.inr (.inr ⟨e, rest, hin, h⟩))
  · exact .inr ⟨‹_›, h⟩

theorem step_inv (h : s.Inv) (hs : step s = .next t) : t.Inv := by
  obtain ⟨hi, rfl | ⟨w, rest, i, -, he⟩ | ⟨w, rest, -, rfl⟩ | ⟨e, rest, -, he⟩⟩ | ⟨-, hr⟩ := step_next hs
  · exact h
  · exact exec_inv (inv_inbox (inbox := rest) h) hi he
  · exact respond_inv (inv_inbox h) hi
  · exact serveEvent_inv (inv_inbox h) he
  · exact runCommand_inv h hr

/-- Settles O3: each part of the invariant is kept by every event, hence by the run of a command, and each command starts that run
in a state that meets it. -/
theorem stepKeepsTheInvariant : Obligations.StepKeepsTheInvariant := fun _ _ h hs => step_inv h hs

end Sys2Proof.Proofs
end

