-- ==== Sys2Proof/Proofs/Reset.lean ====
section
/-! The state after reset, and what holds after every run from it (R17, R40, R151, R153). -/

namespace Sys2Proof.Proofs
open Sys2Proof.Machine Sys2Proof.Laws

/-- Settles O1: each item is read off the reset state. -/
theorem resetLeavesEveryItemAtItsResetValue : Obligations.ResetLeavesEveryItemAtItsResetValue := by
  refine ⟨?_, rfl⟩
  rintro cfg contents s rfl
  exact ⟨rfl, rfl, rfl, rfl, rfl, rfl, rfl, rfl, rfl, rfl, rfl, rfl, rfl, rfl, rfl, rfl⟩

theorem resetWith_inv {cfg : Config} {contents : Mem} (inbox : List Input) (hc : cfg.wf) (hm : Memory.wf contents = true)
    (hb : below contents (3 * cfg.maxPixels)) : State.Inv { State.resetWith cfg contents with inbox := inbox } :=
  inv_iff.mpr ⟨hc, ⟨hm, hb⟩, (engineInv_idle rfl).mpr ⟨rfl, .inr ⟨nofun, rfl, rfl, rfl⟩⟩, queueInv_nil rfl rfl nofun⟩

/-- Settles O2: the block is idle and not live, nothing is in flight, and the buffer is the canonical one drawn. -/
theorem resetMeetsTheInvariant : Obligations.ResetMeetsTheInvariant :=
  fun _ _ inbox hc hm hb => resetWith_inv inbox hc hm hb

/-- What every step keeps holds after every run. -/
theorem run_keeps {P : State → Prop} (hp : ∀ s t, P s → step s = .next t → P t) {n : Nat} {s t : State} (hs : P s)
    (h : Host.Core.run Sys2Proof.core n s = .next t) : P t := by
  induction n generalizing s with
  | zero => cases h; exact hs
  | succ n ih =>
    simp only [Host.Core.run] at h
    split at h
    · rename_i u hu
      exact ih (hp s u hs hu) h
    · cases h
    · cases h

theorem portBusy_eq_false {s : State} : portBusy s = false ↔ s.engine = .idle := by simp [portBusy]

theorem orderCode_le (o : ChannelOrder) : (orderCode o).toNat ≤ 2 := by cases o <;> decide

/-- Settles O5: the invariant holds at reset (O2) and every step keeps it (O3); the four items are what it says of an idle block. -/
theorem betweenCommandsTheFourItemsHold : Obligations.BetweenCommandsTheFourItemsHold := by
  intro cfg contents inbox n t hc hm hb hrun hport
  have hinv : t.Inv := run_keeps (fun _ _ => step_inv) (resetWith_inv inbox hc hm hb) hrun
  have hidle := portBusy_eq_false.mp hport
  obtain ⟨-, -, -, hn, hall, -⟩ := inv_iff.mp hinv
  refine ⟨fun hl => ?_, fun hl => ?_, ⟨hn, by omega⟩, fun x hx => (hall x hx).1⟩
  · obtain ⟨-, ⟨-, ha, hpos, hmax⟩, hchan⟩ := strip_of_inv hinv hidle hl
    exact ⟨ha, by rw [hchan]; rfl, hpos, hmax, orderCode_le _⟩
  · obtain ⟨-, ha, hchan, hq⟩ := empty_of_inv hinv hidle hl
    exact ⟨ha, by rw [hchan]; rfl, BitVec.eq_of_toNat_eq (by simp [hn, hq]), hq⟩

end Sys2Proof.Proofs
end

