-- ==== Sys2Proof/Proofs/Writers.lean ====
section
/-! Which commands write the lifecycle, the strip's description and the configuration group (R18, R20 to R24, R26, R114, R161). -/

namespace Sys2Proof.Proofs
open Sys2Proof.Machine Sys2Proof.Laws

variable {e : Event} {i : Instr} {s t u : State}

/-! ### The lifecycle and the strip's description -/

theorem SameStrip.refl (s : State) : SameStrip s s := ⟨rfl, rfl, rfl, rfl⟩

theorem SameStrip.trans (h : SameStrip s t) (h' : SameStrip t u) : SameStrip s u :=
  ⟨h'.lc.trans h.lc, h'.length.trans h.length, h'.order.trans h.order, h'.pin.trans h.pin⟩

/-- The command goes on or has answered; only the last answers of INIT and of FREE have made the strip live or freed (R98, R99). -/
inductive StripRun (s u : State) : Prop
  | same : SameStrip s u → StillIn s u → StripRun s u
  | live : commandOf s.engine = some .init → u.engine = .idle → u.lc = .live → u.responses = ⟨.ok, 0⟩ :: s.responses →
    StripRun s u
  | freed : commandOf s.engine = some .free → u.engine = .idle → u.lc = .freed → u.responses = ⟨.ok, 0⟩ :: s.responses →
    u.length = s.length → u.order = s.order → u.pin = s.pin → StripRun s u

theorem serveEvent_stripRun {rest : List Input} (h : StripRun s u) (hb : u.engine ≠ .idle)
    (hr : isReset (.event e) = false) (hs : serveEvent e { u with inbox := rest } = .next t) : StripRun s t := by
  cases h with
  | live _ hi => exact absurd hi hb
  | freed _ hi => exact absurd hi hb
  | same hsame hin =>
    obtain ⟨hcmd, hresp⟩ := hin.resolve_left hb
    obtain ⟨l, o, p, he, rfl⟩ | ⟨he, rfl⟩ | hl := serveEvent_cases hr hs
    · have he : u.engine = _ := he
      exact .live (by rw [← hcmd, he]; rfl) rfl rfl (by simp [hresp])
    · have he : u.engine = _ := he
      exact .freed (by rw [← hcmd, he]; rfl) rfl rfl (by simp [hresp]) hsame.length hsame.order hsame.pin
    · refine .same (hsame.trans ⟨hl.lc, hl.length, hl.order, hl.pin⟩) ?_
      exact hl.stillIn.imp id fun ⟨hc, hrs⟩ => ⟨hc.trans hcmd, hrs.trans hresp⟩

theorem runCommand_stripRun (h : runCommand s = .next t) (hr : NoResetServed s t) : StripRun s t :=
  runCommand_keeps_unserved (fun _ _ _ _ hu hb hp hs => serveEvent_stripRun hu hb hp hs)
    (.same (.refl s) (.inr ⟨rfl, rfl⟩)) h hr

/-- A run of any other command than INIT and FREE leaves the strip. -/
theorem runCommand_sameStrip (h : runCommand s = .next t) (hr : NoResetServed s t)
    (hi : commandOf s.engine ≠ some .init) (hf : commandOf s.engine ≠ some .free) : SameStrip s t := by
  cases runCommand_stripRun h hr with
  | same hsame _ => exact hsame
  | live hc => exact absurd hc hi
  | freed hc => exact absurd hc hf

theorem runCommand_submit_sameStrip {p : Engine} (h : runCommand (submit p s) = .next t) (hr : NoResetServed s t)
    (hi : commandOf p ≠ some .init) (hf : commandOf p ≠ some .free) : SameStrip s t := by
  obtain rfl | ⟨-, h⟩ := runCommand_submit h
  · exact ⟨rfl, rfl, rfl, rfl⟩
  · have hsame := runCommand_sameStrip h hr hi hf
    exact ⟨hsame.lc, hsame.length, hsame.order, hsame.pin⟩

/-- The two positions in which FREE of a live strip starts its run (R99). -/
theorem commandOf_free {p : Engine} (hp : p = .freeWait ∨ p = .freeDisable) : commandOf p = some .free := by
  obtain rfl | rfl := hp <;> rfl

/-- Where no reset is served, a command leaves the strip, or it is an INIT or a FREE that answers OK. -/
theorem exec_strip (h : exec i s = .next t) (hr : NoResetServed s t) :
    SameStrip s t ∨
    (i.opcode = .init ∧ s.lc = .uninit ∧ t.lc = .live ∧ t.responses = ⟨.ok, 0⟩ :: s.responses) ∨
    (i = .free ∧ s.lc ≠ .freed ∧ t.lc = .freed ∧ t.responses = ⟨.ok, 0⟩ :: s.responses ∧
      t.length = s.length ∧ t.order = s.order ∧ t.pin = s.pin) := by
  cases exec_case h with
  | inits hlc hl hmax hrun =>
    cases runCommand_stripRun hrun hr with
    | same hsame _ => exact .inl ⟨hsame.lc, hsame.length, hsame.order, hsame.pin⟩
    | live _ _ ht hresp => exact .inr (.inl ⟨rfl, hlc, ht, hresp⟩)
    | freed hc => cases hc
  | freesUninit hlc => exact .inr (.inr ⟨rfl, by simp [hlc], rfl, rfl, rfl, rfl, rfl⟩)
  | frees hlc hp hrun =>
    have hfree := commandOf_free hp
    cases runCommand_stripRun hrun hr with
    | same hsame _ => exact .inl ⟨hsame.lc, hsame.length, hsame.order, hsame.pin⟩
    | live hc => exact absurd (hfree.symm.trans hc) (by decide)
    | freed _ _ ht hresp hlen hord hpin => exact .inr (.inr ⟨rfl, by simp [hlc], ht, hresp, hlen, hord, hpin⟩)
  | refreshes _ hrun => exact .inl (runCommand_submit_sameStrip hrun hr (by decide) (by decide))
  | refreshesAsync _ hrun => exact .inl (runCommand_submit_sameStrip hrun hr (by decide) (by decide))
  | fills c _ _ _ hrun =>
    have hsame := runCommand_submit_sameStrip hrun hr (by decide) (by decide)
    exact .inl ⟨hsame.lc, hsame.length, hsame.order, hsame.pin⟩
  | answers | storesRaw | stores | setsBrightness | setsGamma => exact .inl ⟨rfl, rfl, rfl, rfl⟩

/-- A block that is freed is between commands (R40, R99). -/
theorem idle_of_freed (h : s.Inv) (hl : s.lc = .freed) : s.engine = .idle := by
  obtain ⟨-, -, he, -⟩ := inv_iff.mp h
  unfold EngineInv at he
  split at he <;> simp_all [StripInv]

/-- An event that is served between two commands is no answer of the channel, so it leaves the strip. -/
theorem serveEvent_idle_sameStrip (hi : s.engine = .idle) (hr : isReset (.event e) = false) (h : serveEvent e s = .next t) :
    SameStrip s t := by
  obtain ⟨l, o, p, he, -⟩ | ⟨he, -⟩ | hl := serveEvent_cases hr h
  · simp [hi] at he
  · simp [hi] at he
  · exact hl.toSameStrip

/-- No step but a reset leaves FREED (R161). -/
theorem step_freed (h : s.Inv) (hl : s.lc = .freed) (hs : step s = .next t) (hr : NoResetServed s t) : t.lc = .freed := by
  have hi := idle_of_freed h hl
  obtain ⟨-, rfl | ⟨w, rest, i, hin, he⟩ | ⟨w, rest, -, rfl⟩ | ⟨e, rest, hin, he⟩⟩ | ⟨hb, -⟩ := step_next hs
  · exact hl
  · have hr' : NoResetServed { s with inbox := rest } t := by simpa [NoResetServed, hin, isReset] using hr
    obtain hsame | ⟨-, hlc, -⟩ | ⟨-, hlc, -⟩ := exec_strip he hr'
    · exact hsame.lc.trans hl
    · exact absurd (hl.symm.trans hlc) (by decide)
    · exact absurd hl hlc
  · exact hl
  · have hr' : isReset (.event e) = false := by
      simpa [NoResetServed, hin, serveEvent_inbox he, List.countP_cons] using hr
    have hsame := serveEvent_idle_sameStrip (s := { s with inbox := rest }) hi hr' he
    exact hsame.lc.trans hl
  · exact absurd hi hb

/-- Settles O38: `exec_strip` names the two commands that move the lifecycle, and neither moves it from FREED. -/
theorem lifecycleMovesOnlyByInitAndFree : Obligations.LifecycleMovesOnlyByInitAndFree := by
  refine ⟨fun s t i h hr => ?_, fun s t h hl hs hr => step_freed h hl hs hr⟩
  obtain hsame | hinit | ⟨hi, hlc, ht, hresp, -⟩ := exec_strip h hr
  · exact .inl hsame.lc
  · exact .inr (.inl hinit)
  · exact .inr (.inr ⟨hi, hlc, ht, hresp⟩)

/-- Settles O39: of the two commands that `exec_strip` names only INIT writes LENGTH, ORDER and PIN. -/
theorem onlyInitWritesLengthOrderAndPin : Obligations.OnlyInitWritesLengthOrderAndPin := by
  intro s t i h hr
  obtain hsame | ⟨hi, -, ht, hresp⟩ | ⟨-, -, -, -, hfields⟩ := exec_strip h hr
  · exact .inl ⟨hsame.length, hsame.order, hsame.pin⟩
  · exact .inr ⟨hi, ht, hresp⟩
  · exact .inl hfields

/-! ### The configuration group -/

/-- Whether an input can write the group beside the commands: a reset, or a write from outside (R38, R151). -/
def reachesGroup (inp : Input) : Bool := isReset inp || isGroupWrite inp

theorem countP_reachesGroup (l : List Input) : l.countP reachesGroup = l.countP isReset + l.countP isGroupWrite := by
  induction l with
  | nil => rfl
  | cons inp l ih =>
    have hone : (if reachesGroup inp then 1 else 0) = (if isReset inp then 1 else 0) + if isGroupWrite inp then 1 else 0 := by
      cases inp with
      | command w => rfl
      | event e => cases e <;> rfl
    simp only [List.countP_cons]
    omega

/-- The command goes on or has answered; only the last answer of INIT has written the group (R98). -/
inductive GroupRun (s u : State) : Prop
  | same : u.group = s.group → StillIn s u → GroupRun s u
  | fullBrightness : commandOf s.engine = some .init → u.engine = .idle → u.group = { s.group with brightness := 255 } →
    GroupRun s u

theorem serveEvent_groupRun {rest : List Input} (h : GroupRun s u) (hb : u.engine ≠ .idle)
    (hp : reachesGroup (.event e) = false) (hs : serveEvent e { u with inbox := rest } = .next t) : GroupRun s t := by
  obtain ⟨hr, hg⟩ : isReset (.event e) = false ∧ isGroupWrite (.event e) = false := by simpa [reachesGroup] using hp
  cases h with
  | fullBrightness _ hi => exact absurd hi hb
  | same hsame hin =>
    obtain ⟨hcmd, hresp⟩ := hin.resolve_left hb
    obtain ⟨l, o, p, he, rfl⟩ | ⟨he, rfl⟩ | hl := serveEvent_cases hr hs
    · have he : u.engine = _ := he
      exact .fullBrightness (by rw [← hcmd, he]; rfl) rfl (by simp [hsame])
    · exact .same hsame (.inl rfl)
    · exact .same ((hl.group hg).trans hsame) (hl.stillIn.imp id fun ⟨hc, hrs⟩ => ⟨hc.trans hcmd, hrs.trans hresp⟩)

theorem runCommand_groupRun (h : runCommand s = .next t) (hr : NoResetServed s t) (hg : NoGroupWriteServed s t) :
    GroupRun s t := by
  refine runCommand_keeps_unserved (fun _ _ _ _ hu hb hp hs => serveEvent_groupRun hu hb hp hs)
    (.same rfl (.inr ⟨rfl, rfl⟩)) h ?_
  rw [countP_reachesGroup, countP_reachesGroup, hr, hg]

/-- A run of any other command than INIT leaves the group. -/
theorem runCommand_group (h : runCommand s = .next t) (hr : NoResetServed s t) (hg : NoGroupWriteServed s t)
    (hi : commandOf s.engine ≠ some .init) : t.group = s.group := by
  cases runCommand_groupRun h hr hg with
  | same hsame _ => exact hsame
  | fullBrightness hc => exact absurd hc hi

theorem runCommand_submit_group {p : Engine} (hp : commandOf p ≠ some .init) (h : runCommand (submit p s) = .next t)
    (hr : NoResetServed s t) (hg : NoGroupWriteServed s t) : t.group = s.group := by
  obtain rfl | ⟨-, h⟩ := runCommand_submit h
  · rfl
  · have hsame := runCommand_group h hr hg hp
    exact hsame

/-- Where no reset and no outside write is served, the group afterwards is one of five (R98, R114, R127, R128). -/
theorem exec_group (h : exec i s = .next t) (hr : NoResetServed s t) (hg : NoGroupWriteServed s t) :
    t.group = s.group ∨ (i.opcode = .init ∧ t.group = { s.group with brightness := 255 }) ∨
    (i.opcode ∈ [Opcode.setpix, .setpixw, .fill, .fillw, .clear] ∧ t.group = groupAfterUse s.group) ∨
    (∃ bri, i = .setbrt bri ∧ t.group = { s.group with brightness := bri }) ∨
    ∃ en, i = .setgamma en ∧ t.group = { s.group with gammaEn := en } := by
  cases exec_case h with
  | inits _ _ _ hrun =>
    cases runCommand_groupRun hrun hr hg with
    | same hsame _ => exact .inl hsame
    | fullBrightness _ _ hfull => exact .inr (.inl ⟨rfl, hfull⟩)
  | frees _ hp hrun =>
    have hsame := runCommand_group hrun hr hg (by simp [commandOf_free hp])
    exact .inl hsame
  | refreshes _ hrun => exact .inl (runCommand_submit_group (by decide) hrun hr hg)
  | refreshesAsync _ hrun => exact .inl (runCommand_submit_group (by decide) hrun hr hg)
  | stores c hop => exact .inr (.inr (.inl ⟨by obtain hop | hop := hop <;> simp [hop], rfl⟩))
  | fills c hop _ _ hrun =>
    refine .inr (.inr (.inl ⟨by obtain hop | hop | hop := hop <;> simp [hop], ?_⟩))
    exact runCommand_submit_group (by decide) hrun hr hg
  | setsBrightness bri => exact .inr (.inr (.inr (.inl ⟨bri, rfl, rfl⟩)))
  | setsGamma en => exact .inr (.inr (.inr (.inr ⟨en, rfl, rfl⟩)))
  | answers | freesUninit | storesRaw => exact .inl rfl

/-- A pipeline evaluation sets GAMMA_BUILT with GAMMA_EN = 1, and writes nothing else (R114). -/
theorem groupAfterUse_cases (g : ConfigGroup) :
    groupAfterUse g = g ∨ (g.gammaEn = true ∧ groupAfterUse g = { g with gammaBuilt := true }) := by
  unfold groupAfterUse
  split
  · exact .inr ⟨‹_›, rfl⟩
  · exact .inl rfl

/-- Settles O40: `exec_group` lists the groups a command can leave, and each differs in the one item that its command writes. -/
theorem writersOfTheConfigurationGroup : Obligations.WritersOfTheConfigurationGroup := by
  intro s t i h hr hg
  obtain hsame | ⟨hi, hfull⟩ | ⟨hi, huse⟩ | ⟨bri, rfl, hbri⟩ | ⟨en, rfl, hen⟩ := exec_group h hr hg
  · simp [hsame]
  · simp [hi, hfull]
  · obtain heq | ⟨hen, heq⟩ := groupAfterUse_cases s.group
    · simp [huse, heq]
    · exact ⟨.inl (by simp [huse, heq]), .inl (by simp [huse, heq]), .inr ⟨by simp [huse, heq], hen, hi⟩⟩
  · exact ⟨.inr (.inl rfl), .inl (by simp [hbri]), .inl (by simp [hbri])⟩
  · exact ⟨.inl (by simp [hen]), .inr rfl, .inl (by simp [hen])⟩

end Sys2Proof.Proofs
end

