-- ==== Sys2Proof/Proofs/HiddenBuffer.lean ====
section
/-! INIT does not show the buffer it finds (R32, R98, R153): the same run goes through from any other contents, because with TXQ
empty no event of it reads a byte. -/

namespace Sys2Proof.Proofs
open Sys2Proof.Machine Sys2Proof.Laws

variable {e : Event} {s t : State} {m : Mem}

/-- In the middle of an INIT with TXQ empty no event but a reset reads or writes a byte, and TXQ stays empty. -/
theorem serveEvent_init_buf (hc : commandOf s.engine = some .init) (hq : s.txq = []) (hr : isReset (.event e) = false)
    (h : serveEvent e s = .next t) :
    serveEvent e { s with buf := m } = .next { t with buf := m } ∧ t.buf = s.buf ∧ t.txq = [] := by
  cases e with
  | answer a =>
    obtain ⟨l, o, p, he, ⟨rfl, rfl⟩ | ⟨rfl, rfl⟩⟩ | ⟨l, o, p, he, rfl, rfl⟩ | ⟨he, -⟩ | ⟨he, -⟩ | ⟨he, -⟩ | ⟨he, -⟩ | ⟨he, -⟩ |
      ⟨he, -⟩ := serveAnswer_next h
    case inl.inl | inl.inr | inr.inl => exact ⟨by simp only [serveEvent, serveAnswer, he]; rfl, rfl, hq⟩
    all_goals simp [he, commandOf] at hc
  | chDone =>
    obtain ⟨x, rest, hx, -⟩ := serveDone_next h
    simp [hq] at hx
  | symPull =>
    obtain ⟨x, hx, -⟩ := servePull_next h
    simp [hq] at hx
  | genRead n j =>
    obtain ⟨x, hx, -⟩ := serveGenRead_next h
    simp [hq] at hx
  | ticks n =>
    obtain ⟨ht, rfl⟩ | ⟨r, ht, hn, rfl⟩ | ⟨r, ht, hn, rfl⟩ := serveTicks_next h
    · exact ⟨by simp only [serveEvent, serveTicks, ht], rfl, hq⟩
    · exact ⟨by simp only [serveEvent, serveTicks, ht, if_pos hn], rfl, hq⟩
    · exact ⟨by simp only [serveEvent, serveTicks, ht, if_neg (not_lt.mpr hn)]; rfl, rfl, hq⟩
  | groupWrite w =>
    cases hs : s.cfg.sharing <;> simp only [serveEvent, serveGroupWrite, hs] at h ⊢ <;> cases h <;> exact ⟨rfl, rfl, hq⟩
  | reset contents => cases hr

/-- An event other than a reset leaves the engine in the middle of its INIT, or idle. -/
theorem serveEvent_init_engine (hc : commandOf s.engine = some .init) (hr : isReset (.event e) = false)
    (h : serveEvent e s = .next t) : t.engine = .idle ∨ commandOf t.engine = some .init := by
  obtain ⟨l, o, p, -, rfl⟩ | ⟨-, rfl⟩ | hl := serveEvent_cases hr h
  · exact .inl rfl
  · exact .inl rfl
  · exact hl.stillIn.imp id fun ⟨hsame, _⟩ => hsame.trans hc

/-- A run of INIT that makes the strip live goes through from any other contents of the buffer, and leaves them. -/
theorem runEngine_init_buf {n : Nat} (h : runEngine n s = .next t) (hlive : t.lc = .live)
    (hc : s.engine = .idle ∨ commandOf s.engine = some .init) (hq : s.txq = []) :
    runEngine n { s with buf := m } = .next { t with buf := m } ∧ t.buf = s.buf := by
  induction n generalizing s with
  | zero =>
    cases h
    exact ⟨rfl, rfl⟩
  | succ n ih =>
    obtain ⟨rfl, hwaits⟩ | ⟨e, rest, u, hbusy, htake, hserve, h⟩ := runEngine_succ_next h
    · obtain hi | htake := hwaits
      · exact ⟨runEngine_idle (s := { t with buf := m }) hi _, rfl⟩
      · exact ⟨runEngine_waits (s := { t with buf := m }) htake _, rfl⟩
    have hc := hc.resolve_left hbusy
    by_cases hr : isReset (.event e) = false
    · obtain ⟨hswap, hbuf, hnil⟩ := serveEvent_init_buf (s := { s with inbox := rest }) (m := m) hc hq hr hserve
      obtain ⟨hrun, hkeep⟩ := ih h (serveEvent_init_engine (s := { s with inbox := rest }) hc hr hserve) hnil
      rw [runEngine_serves (s := { s with buf := m }) hbusy htake hswap]
      exact ⟨hrun, hkeep.trans hbuf⟩
    · cases e with
      | reset contents =>
        cases hserve
        rw [runEngine_idle rfl] at h
        cases h
        cases hlive
      | _ => exact absurd rfl hr

/-- Settles O42: past its checks INIT fills the strip's bytes with 0, and its run does not depend on the others. -/
theorem initHidesTheOldBuffer : Obligations.InitHidesTheOldBuffer := by
  intro s m l o p t hs hm hlc hq h hlive
  have hzero {b : Mem} (hb : Memory.wf b = true) {a : Nat} (ha : a < 3 * l.toNat) :
      memByte (zeroFill (3 * l.toNat) b) a = 0 := by rw [memByte_zeroFill hb, if_pos ha]
  cases exec_case h with
  | answers => exact absurd (hlc.symm.trans hlive) (by decide)
  | stores c hop => simp [Instr.opcode] at hop
  | fills c hop => simp [Instr.opcode] at hop
  | inits _ hl hmax hrun =>
    obtain ⟨hrun', hbuf⟩ := runEngine_init_buf (m := zeroFill (3 * l.toNat) m) hrun hlive (.inr rfl) hq
    refine ⟨{ t with buf := zeroFill (3 * l.toNat) m }, ?_, rfl, fun a ha => ?_⟩
    · exact (exec_init_of_checks (s := { s with buf := m }) o p hlc hl hmax).trans hrun'
    · rw [hbuf]
      exact ⟨(hzero hm ha).trans (hzero hs ha).symm, hzero hs ha⟩

end Sys2Proof.Proofs
end

