-- ==== Sys2Proof/Proofs/PullAndLatch.lean ====
section
/-! The two inputs that items of state wait for: a pull, which the oldest open record serves (R34, R86), and ticks, which the latch
timer counts (R35, R100, R146). -/

namespace Sys2Proof.Proofs
open Sys2Proof.Machine Sys2Proof.Laws

/-! ### The oldest open record -/

theorem find_none_of_closed {q : List Tx} (h : ∀ x ∈ q, txOpen x = false) : q.find? txOpen = none := by
  simpa using h

theorem find_of_open {before after : List Tx} {x : Tx} (hb : ∀ y ∈ before, txOpen y = false) (hx : txOpen x = true) :
    (before ++ x :: after).find? txOpen = some x := by
  simp [List.find?_append, find_none_of_closed hb, hx]

theorem pullFirst_of_open (cfg : Config) (m : Mem) {before after : List Tx} {x : Tx} (hb : ∀ y ∈ before, txOpen y = false)
    (hx : txOpen x = true) : pullFirst cfg m (before ++ x :: after) = before ++ pullTx cfg m x :: after := by
  induction before with
  | nil => simp [pullFirst, hx]
  | cons y ys ih =>
    obtain ⟨hy, hys⟩ := List.forall_mem_cons.mp hb
    simp [pullFirst, hy, ih hys]

/-- The byte a pull uses: the one read already, or the buffer's (R52). -/
theorem txByte_eq {m : Mem} {x : Tx} {j : Nat} {v : Byte}
    (h : x.reads.lookup j = some v ∨ (x.reads.lookup j = none ∧ v = memByte m j)) : txByte m x j = v := by
  unfold txByte
  obtain hj | ⟨hj, rfl⟩ := h <;> rw [hj]

/-- A read leaves the bytes read before. -/
theorem readsWith_lookup_other (m : Mem) (x : Tx) {i j : Nat} (h : i ≠ j) :
    (readsWith m x j).lookup i = x.reads.lookup i := by
  unfold readsWith
  split
  · rfl
  · have hne : (i == j) = false := by simpa using h
    simp [List.lookup_cons, hne]

/-- A pull of a data symbol (R81, R86). -/
theorem pullTx_data (cfg : Config) (m : Mem) {x : Tx} (h : x.k < 24 * x.len.toNat) :
    pullTx cfg m x = { x with
      k := x.k + 1
      reads := readsWith m x (x.k / 8)
      sent := x.sent ++ [dataSymbol cfg ((txByte m x (x.k / 8)).getLsbD (7 - x.k % 8))] } := by
  simp [pullTx, nextSymbol, h]

/-- A pull of RESET (R80, R86). -/
theorem pullTx_reset (cfg : Config) (m : Mem) {x : Tx} (h : ¬x.k < 24 * x.len.toNat) :
    pullTx cfg m x = { x with k := x.k + 1, sent := x.sent ++ [resetSymbol cfg] } := by
  simp [pullTx, nextSymbol, h]

theorem step_idle_event {s : State} {e : Event} {rest : List Input} (hi : s.engine = .idle)
    (hin : s.inbox = .event e :: rest) : step s = serveEvent e { s with inbox := rest } := by
  simp [step, hi, hin]

/-- Where the oldest open record is within the buffer of a playable strip, the pull changes that record only. -/
theorem servePull_of_open {s : State} {before after : List Tx} {x : Tx} (hq : s.txq = before ++ x :: after)
    (hb : ∀ y ∈ before, txOpen y = false) (hx : txOpen x = true) (hp : Playable s) (hlen : x.len = s.length) :
    servePull s = .next { s with txq := before ++ pullTx s.cfg s.buf x :: after } := by
  obtain ⟨-, hchan, halloc, hmax⟩ := hp
  have hfits : 3 * x.len.toNat ≤ 3 * s.cfg.maxPixels := by rw [hlen]; omega
  rw [servePull, hq, find_of_open hb hx]
  simp only [hchan, if_true]
  rw [withBuffer_eq halloc hfits, pullFirst_of_open _ _ hb hx]

/-- Settles O44: the first open record is found and pulled, with the symbol and the read of `pullTx`; with none the pull is refused. -/
theorem pullServesTheOldestOpenRecord : Obligations.PullServesTheOldestOpenRecord := by
  intro s rest hi hin
  rw [step_idle_event hi hin]
  refine ⟨fun hclosed => ?_, ?_⟩
  · have hnone := find_none_of_closed fun x hx => txOpen_eq_false.mpr (hclosed x hx)
    simp only [serveEvent, servePull, hnone]
  · intro before after x v hq hb hk hp hlen hv
    refine ⟨pullTx s.cfg s.buf x, ?_, rfl, rfl, fun hdata => ?_, fun hreset => ?_⟩
    · exact servePull_of_open (s := { s with inbox := rest }) hq (fun y hy => txOpen_eq_false.mpr (hb y hy))
        (txOpen_eq_true.mpr hk) hp hlen
    · have hbyte := txByte_eq hv
      rw [pullTx_data s.cfg s.buf hdata, hbyte]
      exact ⟨rfl, (readsWith_lookup s.buf x _).trans (congrArg some hbyte), fun j hj => readsWith_lookup_other s.buf x hj⟩
    · rw [pullTx_reset s.cfg s.buf (by omega)]
      exact ⟨rfl, rfl⟩

/-! ### The latch timer -/

/-- Settles O47: the answer DONE in the position `blockWait`, and the three branches of `serveTicks`. -/
theorem latchWaitLastsAtLeastItsTicks : Obligations.LatchWaitLastsAtLeastItsTicks := by
  refine ⟨fun s he hq => ?_, fun s n => ⟨fun ht => ?_, fun r ht => ⟨fun hn => ?_, fun hn => ?_⟩⟩⟩
  · simp [serveEvent, serveAnswer, he, onBlockWait, hq]
  · simp only [serveEvent, serveTicks, ht]
  · simp only [serveEvent, serveTicks, ht, if_pos hn]
  · simp only [serveEvent, serveTicks, ht, if_neg (not_lt.mpr hn)]
    rfl

end Sys2Proof.Proofs
end

