-- ==== Sys2Proof/Proofs/BufferAccess.lean ====
section
/-! Who writes the buffer and who reads it (R41, R48, R52, R53, R57): of the commands only the seven writers write it, and of the events
only the generator's reads and pulls read it, each byte of a transmission once. -/

namespace Sys2Proof.Proofs
open Sys2Proof.Machine Sys2Proof.Laws

variable {e : Event} {i : Instr} {s t : State}

/-! ### The buffer under events and commands -/

/-- No event but a reset writes the buffer (R41). -/
theorem serveEvent_buf (hr : isReset (.event e) = false) (h : serveEvent e s = .next t) : t.buf = s.buf := by
  obtain ⟨l, o, p, -, rfl⟩ | ⟨-, rfl⟩ | hl := serveEvent_cases hr h
  · rfl
  · rfl
  · exact hl.buf

/-- Where no reset is served, the run of a command leaves the buffer as the command's own writes left it. -/
theorem runCommand_buf (h : runCommand s = .next t) (hr : NoResetServed s t) : t.buf = s.buf :=
  runCommand_keeps_unserved (Q := (·.buf = s.buf)) (fun _ _ _ _ hu _ hp hs => (serveEvent_buf hp hs).trans hu) rfl h hr

theorem runCommand_submit_buf {p : Engine} (h : runCommand (submit p s) = .next t) (hr : NoResetServed s t) :
    t.buf = s.buf := by
  obtain rfl | ⟨-, hrun⟩ := runCommand_submit h
  · rfl
  · have hbuf := runCommand_buf hrun hr
    exact hbuf

/-- Settles O41: the cases of `exec_case` that write the buffer are those of the seven writers, and no run writes it. -/
theorem otherCommandsLeaveTheBuffer : Obligations.OtherCommandsLeaveTheBuffer := by
  intro s t i h hr hi
  cases exec_case h with
  | inits | storesRaw => simp [Instr.opcode] at hi
  | stores c hop => obtain hop | hop := hop <;> simp [hop] at hi
  | fills c hop => obtain hop | hop | hop := hop <;> simp [hop] at hi
  | frees _ _ hrun =>
    have hbuf := runCommand_buf hrun hr
    exact hbuf
  | refreshes _ hrun | refreshesAsync _ hrun => exact runCommand_submit_buf hrun hr
  | answers | freesUninit | setsBrightness | setsGamma => rfl

/-! ### The reads of a record -/

/-- The record `y` has become `x`, and what the generator has read for it meanwhile it has read from the buffer `m` (R52, R53). -/
structure ReadsOn (m : Mem) (y x : Tx) : Prop where
  len : x.len = y.len
  k : y.k ≤ x.k
  kept : ∀ j v, y.reads.lookup j = some v → x.reads.lookup j = some v
  fresh : ∀ j v, x.reads.lookup j = some v → y.reads.lookup j = some v ∨ (j < 3 * x.len.toNat ∧ v = memByte m j)

variable {m : Mem} {x y : Tx}

theorem readsOn_of_reads_eq (hlen : x.len = y.len) (hk : y.k ≤ x.k) (hr : x.reads = y.reads) : ReadsOn m y x :=
  ⟨hlen, hk, fun _ _ h => hr ▸ h, fun _ _ h => .inl (hr ▸ h)⟩

/-- The byte that is read once is a whole byte of the buffer (R53). -/
theorem readsOn_of_readsWith {j : Nat} (hlen : x.len = y.len) (hk : y.k ≤ x.k) (hj : j < 3 * x.len.toNat)
    (hr : x.reads = readsWith m y j) : ReadsOn m y x := by
  refine ⟨hlen, hk, fun i v hi => ?_, fun i v hi => ?_⟩
  · rw [hr]
    by_cases hij : i = j
    · subst hij
      rw [readsWith_lookup, txByte_eq (.inl hi)]
    · rw [readsWith_lookup_other m y hij, hi]
  · rw [hr] at hi
    by_cases hij : i = j
    · subst hij
      rw [readsWith_lookup, Option.some.injEq] at hi
      cases hl : y.reads.lookup i with
      | some w => exact .inl (congrArg some ((txByte_eq (.inl hl)).symm.trans hi))
      | none => exact .inr ⟨hj, hi.symm.trans (txByte_eq (.inr ⟨hl, rfl⟩))⟩
    · exact .inl ((readsWith_lookup_other m y hij).symm.trans hi)

/-- An early read (R52). -/
theorem read_readsOn {j : Nat} (m : Mem) (hj : j < 3 * y.len.toNat) (hn : y.reads.lookup j = none) :
    ReadsOn m y { y with reads := (j, memByte m j) :: y.reads } :=
  readsOn_of_readsWith (j := j) rfl le_rfl hj (by simp [readsWith, hn])

/-- A pull reads the byte of its symbol, and for RESET none (R86). -/
theorem pullTx_readsOn (cfg : Config) (m : Mem) (y : Tx) : ReadsOn m y (pullTx cfg m y) := by
  by_cases hk : y.k < 24 * y.len.toNat
  · exact readsOn_of_readsWith (j := y.k / 8) rfl (Nat.le_succ _) (show y.k / 8 < 3 * y.len.toNat by omega)
      (by rw [pullTx_data cfg m hk])
  · exact readsOn_of_reads_eq rfl (Nat.le_succ _) (by rw [pullTx_reset cfg m hk])

/-- Where one record of TXQ changes by reads, each record is one that stood at its place before. -/
theorem readsOn_of_set {q : List Tx} {x' y' : Tx} {n j : Nat} (hy : q[j]? = some y') (hr : ReadsOn m y' x')
    (h : (q.set j x')[n]? = some x) : ∃ y, q[n]? = some y ∧ ReadsOn m y x := by
  by_cases hjn : j = n
  · subst hjn
    obtain ⟨-, rfl⟩ : j < q.length ∧ x' = x := by simpa [List.getElem?_set] using h
    exact ⟨y', hy, hr⟩
  · rw [List.getElem?_set_ne hjn] at h
    exact ⟨x, h, readsOn_of_reads_eq rfl le_rfl rfl⟩

/-- A pull changes one record of TXQ (R86). -/
theorem pullFirst_eq_set (cfg : Config) (m : Mem) {q : List Tx} (h : q.find? txOpen = some y) :
    ∃ j, q[j]? = some y ∧ pullFirst cfg m q = q.set j (pullTx cfg m y) := by
  obtain ⟨before, after, rfl, -, -, hpull⟩ := find_open h
  exact ⟨before.length, by simp, by simp [hpull]⟩

/-- An answer leaves TXQ, empties it at the end of FREE, or appends the record of an accepted transmission (R94, R99). -/
theorem serveAnswer_txq {a : ChannelAnswer} (h : serveAnswer a s = .next t) :
    t.txq = s.txq ∨ t.txq = [] ∨ (a = .ok ∧ t.txq = s.txq ++ [newTx s.length]) := by
  obtain ⟨l, o, p, -, ⟨-, rfl⟩ | ⟨-, rfl⟩⟩ | ⟨l, o, p, -, -, rfl⟩ | ⟨-, -, rfl⟩ | ⟨-, -, rfl⟩ | ⟨-, -, rfl⟩ |
    ⟨-, ⟨rfl, rfl⟩ | ⟨-, rfl⟩⟩ | ⟨-, ⟨rfl, rfl⟩ | ⟨-, rfl⟩⟩ | ⟨-, ⟨-, -, rfl⟩ | ⟨-, -, rfl⟩ | ⟨-, rfl⟩⟩ := serveAnswer_next h
  case inr.inr.inr.inr.inl => exact .inr (.inl rfl)
  case inr.inr.inr.inr.inr.inl.inl | inr.inr.inr.inr.inr.inr.inl.inl => exact .inr (.inr ⟨rfl, rfl⟩)
  all_goals exact .inl rfl

/-- Where an event leaves TXQ, each record stands at its place. -/
theorem readsOn_of_txq_eq {n : Nat} (hq : t.txq = s.txq) (h : t.txq[n]? = some x) :
    ∃ y, s.txq[n]? = some y ∧ ReadsOn m y x :=
  ⟨x, hq ▸ h, readsOn_of_reads_eq rfl le_rfl rfl⟩

/-- A served event appends the record of an accepted transmission, or it has only read bytes for the records it leaves. -/
theorem serveEvent_readsOn {n : Nat} (h : serveEvent e s = .next t) (hx : t.txq[n]? = some x) :
    (n = s.txq.length ∧ e = .answer .ok ∧ x = newTx s.length) ∨
      ∃ y, s.txq[if e = .chDone then n + 1 else n]? = some y ∧ ReadsOn s.buf y x := by
  cases e with
  | answer a =>
    obtain hq | hq | ⟨rfl, hq⟩ := serveAnswer_txq h
    · exact .inr (readsOn_of_txq_eq hq hx)
    · simp [hq] at hx
    · rw [hq] at hx
      by_cases hn : n < s.txq.length
      · rw [List.getElem?_append_left hn] at hx
        exact .inr ⟨x, hx, readsOn_of_reads_eq rfl le_rfl rfl⟩
      · have hlast : n = s.txq.length := by
          have hbound := (List.getElem?_eq_some_iff.mp hx).1
          simp only [List.length_append, List.length_singleton] at hbound
          omega
        subst hlast
        exact .inl ⟨rfl, rfl, by simpa using hx.symm⟩
  | chDone =>
    obtain ⟨y, rest, hq, -, -, rfl⟩ := serveDone_next h
    exact .inr ⟨x, by simpa [hq] using hx, readsOn_of_reads_eq rfl le_rfl rfl⟩
  | symPull =>
    obtain ⟨y, hy, -, -, -, rfl⟩ := servePull_next h
    obtain ⟨j, hj, hpull⟩ := pullFirst_eq_set s.cfg s.buf hy
    rw [hpull] at hx
    exact .inr (readsOn_of_set hj (pullTx_readsOn s.cfg s.buf y) hx)
  | genRead r j =>
    obtain ⟨y, hy, hj, -, hnone, rfl⟩ := serveGenRead_next h
    exact .inr (readsOn_of_set hy (read_readsOn s.buf hj hnone) hx)
  | ticks k =>
    obtain ⟨-, rfl⟩ | ⟨r, -, -, rfl⟩ | ⟨r, -, -, rfl⟩ := serveTicks_next h <;> exact .inr (readsOn_of_txq_eq rfl hx)
  | groupWrite w =>
    obtain ⟨g, rfl, -⟩ := serveGroupWrite_next h
    exact .inr (readsOn_of_txq_eq rfl hx)
  | reset contents =>
    cases h
    simp at hx

/-- Settles O45: `serveEvent_readsOn`, item by item. -/
theorem generatorReadsEachByteOnce : Obligations.GeneratorReadsEachByteOnce := by
  intro e s t n x h hx
  refine (serveEvent_readsOn h hx).imp_right ?_
  rintro ⟨y, hy, hlen, hk, hkept, hfresh⟩
  exact ⟨y, hy, hlen, hk, hkept, hfresh⟩

end Sys2Proof.Proofs
end

