-- ==== Sys2Proof/Proofs/RacingReads.lean ====
section
/-! A transmission that races with a change of the buffer (R52, R54): the generator reads the bytes that are to carry the old contents
early, the buffer changes, and the pulls read the others from the new contents. -/

namespace Sys2Proof.Proofs
open Sys2Proof.Machine Sys2Proof.Laws

variable {m : Mem} {s t : State} {x x' : Tx}

theorem serveAll_of_next {e : Event} (es : List Event) (h : serveEvent e s = .next t) :
    serveAll (e :: es) s = serveAll es t := by
  simp [serveAll, h]

/-! ### The early reads -/

/-- Where the byte is in reach and not read yet, the generator may read it early (R52). -/
theorem serveGenRead_of_unread {j : Nat} (hq : s.txq = [x]) (ha : s.bufAlloc = true)
    (hmax : 3 * x.len.toNat ≤ 3 * s.cfg.maxPixels) (hk : x.k = 0) (hj : j < 3 * x.len.toNat) (hn : x.reads.lookup j = none) :
    serveGenRead 0 j s = .next { s with txq := [{ x with reads := (j, memByte s.buf j) :: x.reads }] } := by
  simp [serveGenRead, hq, hj, hk, hn, withBuffer_eq ha hmax]

/-- Before its first symbol is pulled the generator may read any bytes of a transmission, in any order (R52, R86). -/
theorem serveAll_genReads {js : List Nat} (hjs : js.Nodup) (hq : s.txq = [x]) (ha : s.bufAlloc = true)
    (hmax : 3 * x.len.toNat ≤ 3 * s.cfg.maxPixels) (hk : x.k = 0)
    (hunread : ∀ j ∈ js, j < 3 * x.len.toNat ∧ x.reads.lookup j = none) :
    ∃ r, serveAll (js.map (.genRead 0)) s = .next { s with txq := [{ x with reads := r }] } ∧
      ∀ i, r.lookup i = if i ∈ js then some (memByte s.buf i) else x.reads.lookup i := by
  induction js generalizing s x with
  | nil => exact ⟨x.reads, by rw [← hq]; rfl, fun i => by simp⟩
  | cons j js ih =>
    obtain ⟨hnew, hjs⟩ := List.nodup_cons.mp hjs
    obtain ⟨⟨hj, hn⟩, hrest⟩ := List.forall_mem_cons.mp hunread
    have hserve : serveEvent (.genRead 0 j) s = _ := serveGenRead_of_unread hq ha hmax hk hj hn
    have hunread' : ∀ i ∈ js, i < 3 * x.len.toNat ∧ ((j, memByte s.buf j) :: x.reads).lookup i = none := by
      intro i hi
      have hij : (i == j) = false := by simpa using ne_of_mem_of_not_mem hi hnew
      simpa [List.lookup_cons, hij] using hrest i hi
    obtain ⟨r, hrun, hr⟩ :=
      ih (s := { s with txq := [{ x with reads := (j, memByte s.buf j) :: x.reads }] }) hjs rfl ha hmax hk hunread'
    refine ⟨r, (serveAll_of_next _ hserve).trans hrun, fun i => ?_⟩
    rw [hr]
    by_cases hij : i = j
    · subst hij
      simp [hnew]
    · have hne : (i == j) = false := by simpa using hij
      simp [List.lookup_cons, hne, hij]

/-! ### The pulls -/

/-- The bytes that a record carries while the buffer stays `m`: those read already, and the buffer's (R52). -/
def carriedBytes (m : Mem) (x : Tx) : List Byte := (List.range (3 * x.len.toNat)).map (txByte m x)

theorem carriedBytes_length : (carriedBytes m x).length = 3 * x.len.toNat := by simp [carriedBytes]

/-- A read takes the byte that the record carries anyway. -/
theorem txByte_of_readsWith {i j : Nat} (hr : x'.reads = readsWith m x j) : txByte m x' i = txByte m x i := by
  by_cases hij : i = j
  · subst hij
    exact txByte_eq (.inl (hr ▸ readsWith_lookup m x i))
  · unfold txByte
    rw [hr, readsWith_lookup_other m x hij]

/-- A pull does not change what the record carries. -/
theorem carriedBytes_pullTx (cfg : Config) (m : Mem) (x : Tx) : carriedBytes m (pullTx cfg m x) = carriedBytes m x := by
  refine List.map_congr_left fun i _ => ?_
  by_cases hk : x.k < 24 * x.len.toNat
  · exact txByte_of_readsWith (by rw [pullTx_data cfg m hk])
  · rw [pullTx_reset cfg m hk]
    rfl

/-- The symbol that a pull hands over is the next one of the encoding of the carried bytes (R83, R86). -/
theorem encode_carriedBytes_getElem? (cfg : Config) (h : txOpen x = true) :
    (Machine.encode cfg (carriedBytes m x))[x.k]? = some (nextSymbol cfg m x) := by
  have hopen := txOpen_eq_true.mp h
  unfold nextSymbol
  split
  · refine encode_getElem?_data ?_
    simp [carriedBytes, show x.k / 8 < 3 * x.len.toNat by omega]
  · rw [← encode_getElem?_reset cfg (carriedBytes m x), carriedBytes_length]
    congr 1
    omega

/-- While the buffer stays as it is, the pulls of all symbols left send the encoding of the carried bytes (R82, R86). -/
theorem serveAll_symPulls {n : Nat} (hp : Playable s) (hq : s.txq = [x]) (hlen : x.len = s.length)
    (hn : x.k + n = 24 * x.len.toNat + 1) (hsent : x.sent = (Machine.encode s.cfg (carriedBytes s.buf x)).take x.k) :
    ∃ x', serveAll (List.replicate n .symPull) s = .next { s with txq := [x'] } ∧
      x'.sent = Machine.encode s.cfg (carriedBytes s.buf x) := by
  induction n generalizing s x with
  | zero =>
    refine ⟨x, by rw [← hq]; rfl, hsent.trans (List.take_of_length_le ?_)⟩
    rw [encode_length, carriedBytes_length]
    omega
  | succ n ih =>
    have hopen : txOpen x = true := txOpen_eq_true.mpr (by omega)
    have hserve : serveEvent .symPull s = _ := servePull_of_open (before := []) hq (by simp) hopen hp hlen
    have hsent' : (pullTx s.cfg s.buf x).sent = (Machine.encode s.cfg (carriedBytes s.buf x)).take (x.k + 1) := by
      rw [List.take_add_one, encode_carriedBytes_getElem? s.cfg hopen, ← hsent]
      rfl
    obtain ⟨x', hrun, hx'⟩ := ih (s := { s with txq := [pullTx s.cfg s.buf x] }) hp rfl hlen
      (show x.k + 1 + n = 24 * x.len.toNat + 1 by omega) (by rw [carriedBytes_pullTx]; exact hsent')
    refine ⟨x', (serveAll_of_next _ hserve).trans hrun, hx'.trans ?_⟩
    rw [carriedBytes_pullTx]

/-! ### The race -/

/-- The bytes of a transmission of `n` bytes that are to carry the old contents. -/
def oldBytes (pick : Nat → Bool) (n : Nat) : List Nat := (List.range n).filter (fun j => !pick j)

theorem mem_oldBytes {pick : Nat → Bool} {n j : Nat} : j ∈ oldBytes pick n ↔ j < n ∧ pick j = false := by simp [oldBytes]

/-- A record that has read the old contents at `oldBytes`, and nothing else, carries the picked mixture. -/
theorem txByte_of_oldBytes {old : Mem} {pick : Nat → Bool} {n j : Nat} (hj : j < n)
    (hr : x.reads.lookup j = if j ∈ oldBytes pick n then some (memByte old j) else none) :
    txByte m x j = if pick j then memByte m j else memByte old j := by
  refine txByte_eq ?_
  cases hpick : pick j with
  | true => exact .inr ⟨by simp [hr, mem_oldBytes, hpick], rfl⟩
  | false => exact .inl (by simp [hr, mem_oldBytes, hpick, hj])

/-- Settles O46: the generator reads `oldBytes` before the buffer changes, and the pulls read every other byte after. -/
theorem racingTransmissionAdmitsEveryCombination : Obligations.RacingTransmissionAdmitsEveryCombination := by
  intro s m pick hp hq
  have ⟨_, _, halloc, hmax⟩ := hp
  obtain ⟨r, hreads, hr⟩ := serveAll_genReads (js := oldBytes pick (3 * s.length.toNat)) (List.nodup_range.filter _) hq halloc
    (Nat.mul_le_mul_left 3 hmax) rfl fun j hj => ⟨(mem_oldBytes.mp hj).1, rfl⟩
  obtain ⟨x, hpulls, hsent⟩ := serveAll_symPulls (n := 24 * s.length.toNat + 1)
    (s := { s with buf := m, txq := [{ newTx s.length with reads := r }] }) hp rfl rfl (Nat.zero_add _) rfl
  refine ⟨_, _, _, x, hreads, hpulls, rfl, hsent.trans (congrArg _ ?_), rfl⟩
  exact List.map_congr_left fun j hj => txByte_of_oldBytes (List.mem_range.mp hj) (hr j)

end Sys2Proof.Proofs
end

