-- ==== Sys2Proof/Proofs/Instances.lean ====
section
/-! Instances of a system share the configuration group and nothing else (R38, R60, R148, R159). -/

namespace Sys2Proof.Proofs
open Sys2Proof.Machine Sys2Proof.Laws

variable {s a : State} {sys sys' : List State} {n k : Nat}

/-- A step of the system is a step of one block, whose group all blocks have afterwards with `SHARED` (R38, R148). -/
theorem systemStep_next (h : systemStep n sys = .next sys') (ha : sys[n]? = some a) :
    ∃ a', step a = .next a' ∧
      ((a.cfg.sharing = .shared ∧ sys' = (sys.map (shareGroup a'.group)).set n a') ∨
        (a.cfg.sharing = .perInstance ∧ sys' = sys.set n a')) := by
  simp only [systemStep, ha] at h
  split at h
  · rename_i a' hstep
    rw [stepKeepsTheParameters a a' hstep] at h
    split at h
    · cases h
      exact ⟨a', hstep, .inl ⟨‹_›, rfl⟩⟩
    · cases h
      exact ⟨a', hstep, .inr ⟨‹_›, rfl⟩⟩
  · cases h
  · cases h

theorem shareGroup_of_shared (g : ConfigGroup) (h : s.cfg.sharing = .shared) : shareGroup g s = { s with group := g } := by
  simp only [shareGroup, h]

theorem shareGroup_of_perInstance (g : ConfigGroup) (h : s.cfg.sharing = .perInstance) : shareGroup g s = s := by
  simp only [shareGroup, h]

/-- Sharing a group changes the group at most (R60). -/
theorem shareGroup_eq (g : ConfigGroup) (s : State) : shareGroup g s = { s with group := (shareGroup g s).group } := by
  cases h : s.cfg.sharing with
  | shared => rw [shareGroup_of_shared g h]
  | perInstance => rw [shareGroup_of_perInstance g h]

/-- A pipeline evaluation sets GAMMA_BUILT where GAMMA_EN is 1 (R114). -/
theorem groupAfterUse_eq (g : ConfigGroup) : groupAfterUse g = { g with gammaBuilt := g.gammaBuilt || g.gammaEn } := by
  obtain ⟨bri, en, built⟩ := g
  cases en <;> simp [groupAfterUse]

theorem serveEvent_groupWrite_of_perInstance (w : GroupWrite) (h : s.cfg.sharing = .perInstance) :
    serveEvent (.groupWrite w) s = .next s := by
  simp only [serveEvent, serveGroupWrite, h]

theorem serveEvent_groupWrite_of_shared (w : GroupWrite) (h : s.cfg.sharing = .shared) :
    serveEvent (.groupWrite w) s = .next { s with group := applyGroupWrite s.group w } := by
  simp only [serveEvent, serveGroupWrite, h]

/-- Settles O49: another block is as it was or has been given the shared group, and a write from outside is `applyGroupWrite`. -/
theorem instancesShareOnlyTheGroup : Obligations.InstancesShareOnlyTheGroup := by
  refine ⟨?_, fun s => ⟨fun w hs => serveEvent_groupWrite_of_perInstance w hs, fun hs => ?_⟩⟩
  · intro sys sys' n k s s' a a' h hk hs hs' ha ha'
    have hn : n < sys.length := (List.getElem?_eq_some_iff.mp ha).1
    obtain ⟨b, hstep, ⟨hsh, rfl⟩ | ⟨hsh, rfl⟩⟩ := systemStep_next h ha
    · obtain rfl : b = a' := by simpa [hn] using ha'
      obtain rfl : shareGroup b.group s = s' := by simpa [List.getElem?_set_ne (Ne.symm hk), hs] using hs'
      exact ⟨hstep, shareGroup_eq _ s, shareGroup_of_perInstance _, fun hs _ => by rw [shareGroup_of_shared _ hs]⟩
    · obtain rfl : b = a' := by simpa [hn] using ha'
      obtain rfl : s = s' := by simpa [List.getElem?_set_ne (Ne.symm hk), hs] using hs'
      exact ⟨hstep, rfl, fun _ => rfl, fun _ ha => absurd (hsh.symm.trans ha) (by decide)⟩
  · have hwrite := fun w => serveEvent_groupWrite_of_shared w hs
    refine ⟨fun bri => hwrite (.brightness bri), fun en => hwrite (.gammaEnable en), ?_, hwrite .systemReset⟩
    rw [hwrite, applyGroupWrite, groupAfterUse_eq]

end Sys2Proof.Proofs
end

