-- ==== Sys2Proof/Proofs/Decoder.lean ====
section
/-! The decoder and the encoder of CMD64 (R63 to R70). A word is its three fields, so a test of a whole word is a test of each field;
a mask of high bits is clear exactly when those bits are 0; and the operands read back from the fields they were put in. -/

namespace Sys2Proof.Proofs
open Sys2Proof.Laws

variable {w v : CmdWord} {op : Opcode} {i : Instr} {a : Word24} {b : Word32} {c : Byte}

/-! ### A word and its fields (R63) -/

/-- A word is its three fields, one after the other. -/
theorem fields_append (w : CmdWord) : fieldOpc w ++ fieldA w ++ fieldB w = w := by
  have upper : fieldOpc w ++ fieldA w = w.extractLsb' 32 32 := BitVec.extractLsb'_append_extractLsb'_eq_extractLsb' rfl
  rw [upper]
  exact BitVec.extractLsb'_append_extractLsb'

theorem word_ext_iff : w = v ↔ fieldOpc w = fieldOpc v ∧ fieldA w = fieldA v ∧ fieldB w = fieldB v := by
  constructor
  · rintro rfl
    exact ⟨rfl, rfl, rfl⟩
  · rintro ⟨ho, ha, hb⟩
    rw [← fields_append w, ho, ha, hb, fields_append]

theorem fieldOpc_and (w v : CmdWord) : fieldOpc (w &&& v) = fieldOpc w &&& fieldOpc v := BitVec.extractLsb'_and
theorem fieldA_and (w v : CmdWord) : fieldA (w &&& v) = fieldA w &&& fieldA v := BitVec.extractLsb'_and
theorem fieldB_and (w v : CmdWord) : fieldB (w &&& v) = fieldB w &&& fieldB v := BitVec.extractLsb'_and

/-- The must-be-0 bits lie in A and B alone (R67). -/
theorem and_mustBeZero_eq_zero :
    w &&& mustBeZero op = 0 ↔ fieldA w &&& fieldA (mustBeZero op) = 0 ∧ fieldB w &&& fieldB (mustBeZero op) = 0 := by
  have hopc : fieldOpc (mustBeZero op) = 0 := by cases op <;> decide
  rw [word_ext_iff, fieldOpc_and, fieldA_and, fieldB_and, hopc]
  exact and_iff_right BitVec.and_zero

theorem rowMatch_fields (op : Opcode) :
    fieldOpc (rowMatch op) = opcodeValue op ∧ fieldA (rowMatch op) = 0 ∧ fieldB (rowMatch op) = 0 := by
  cases op <;> decide

theorem rowMask_fields (op : Opcode) :
    fieldOpc (rowMask op) = BitVec.allOnes 8 ∧ fieldA (rowMask op) = fieldA (mustBeZero op) ∧
      fieldB (rowMask op) = fieldB (mustBeZero op) := by
  cases op <;> decide

/-- The row test reads OPC and the must-be-0 bits and nothing else (R68). -/
theorem rowTest_iff : w &&& rowMask op = rowMatch op ↔ opcodeValue op = fieldOpc w ∧ w &&& mustBeZero op = 0 := by
  obtain ⟨ko, ka, kb⟩ := rowMask_fields op
  obtain ⟨mo, ma, mb⟩ := rowMatch_fields op
  rw [word_ext_iff, and_mustBeZero_eq_zero, fieldOpc_and, fieldA_and, fieldB_and, ko, ka, kb, mo, ma, mb, BitVec.and_allOnes,
    eq_comm (a := fieldOpc w)]

/-! ### The masks of the column "must be 0" (R67) -/

theorem and_high_eq_zero {n m : Nat} (x : BitVec (n + m)) :
    x &&& (BitVec.allOnes n ++ 0#m) = 0#(n + m) ↔ x.extractLsb' m n = 0#n := by
  have high : x &&& (BitVec.allOnes n ++ 0#m) = x.extractLsb' m n ++ 0#m :=
    calc x &&& (BitVec.allOnes n ++ 0#m)
      _ = (x.extractLsb' m n ++ x.extractLsb' 0 m) &&& (BitVec.allOnes n ++ 0#m) := by rw [BitVec.extractLsb'_append_extractLsb']
      _ = x.extractLsb' m n ++ 0#m := by rw [BitVec.and_append, BitVec.and_allOnes, BitVec.and_zero]
  rw [high, ← BitVec.zero_append_zero, BitVec.append_left_inj]

theorem and_FF000000_eq_zero : b &&& 0xFF000000#32 = 0#32 ↔ b.extractLsb' 24 8 = 0 := and_high_eq_zero (n := 8) (m := 24) b
theorem and_FFFF0000_eq_zero : b &&& 0xFFFF0000#32 = 0#32 ↔ b.extractLsb' 16 16 = 0 := and_high_eq_zero (n := 16) (m := 16) b
theorem and_FFFFFF00_eq_zero : b &&& 0xFFFFFF00#32 = 0#32 ↔ b.extractLsb' 8 24 = 0 := and_high_eq_zero (n := 24) (m := 8) b
theorem and_FFFFFFFE_eq_zero : b &&& 0xFFFFFFFE#32 = 0#32 ↔ b.extractLsb' 1 31 = 0 := and_high_eq_zero (n := 31) (m := 1) b
theorem and_FFFF00_eq_zero : a &&& 0xFFFF00#24 = 0#24 ↔ a.extractLsb' 8 16 = 0 := and_high_eq_zero (n := 16) (m := 8) a
theorem and_FFFFFFFF : b &&& 0xFFFFFFFF#32 = b := BitVec.and_allOnes
theorem and_FFFFFF : a &&& 0xFFFFFF#24 = a := BitVec.and_allOnes

/-- A value whose high bits are 0 is its low bits below zeros. -/
theorem zeros_append_low {n m : Nat} {x : BitVec (n + m)} (h : x.extractLsb' m n = 0#n) : 0#n ++ x.extractLsb' 0 m = x := by
  rw [← h, BitVec.extractLsb'_append_extractLsb']

theorem zeros_append_low24 (h : b &&& 0xFF000000#32 = 0#32) : 0#8 ++ b.extractLsb' 0 24 = b :=
  zeros_append_low (n := 8) (m := 24) (and_FF000000_eq_zero.mp h)

/-! ### The operands and the fields (R64, R67) -/

theorem operandsOf_opcode (op : Opcode) (a : Word24) (b : Word32) : (operandsOf op a b).opcode = op := by cases op <;> rfl

/-- Operand field A holds nothing but operands and must-be-0 bits. -/
theorem operandA_operandsOf (h : a &&& fieldA (mustBeZero op) = 0) : operandA (operandsOf op a b) = a := by
  cases op
  case init | setraw | readpix | readreg | setpix | setpixw => rfl
  case lutrd => exact zeros_append_low (n := 16) (m := 8) (and_FFFF00_eq_zero.mp h)
  -- without an operand in A the whole of A must be 0
  all_goals exact (and_FFFFFF.symm.trans h).symm

/-- Operand field B holds nothing but operands and must-be-0 bits. -/
theorem operandB_operandsOf (h : b &&& fieldB (mustBeZero op) = 0) : operandB (operandsOf op a b) = b := by
  cases op
  case init =>
    have high : b.extractLsb' 16 16 = 0#16 := and_FFFF0000_eq_zero.mp h
    have upper : b.extractLsb' 16 16 ++ b.extractLsb' 8 8 = b.extractLsb' 8 24 :=
      BitVec.extractLsb'_append_extractLsb'_eq_extractLsb' rfl
    change 0#16 ++ b.extractLsb' 8 8 ++ b.extractLsb' 0 8 = b
    rw [← high, upper]
    exact BitVec.extractLsb'_append_extractLsb'
  case setraw => exact zeros_append_low24 h
  case setpix | fill | cvtw => exact (congrArg (0#8 ++ ·) (packRgb24_unpack _)).trans (zeros_append_low24 h)
  case setpixw | fillw | cvtrgb => exact packWrgb32_unpack b
  case setbrt => exact zeros_append_low (n := 24) (m := 8) (and_FFFFFF00_eq_zero.mp h)
  case setgamma =>
    have low : BitVec.ofBool (b.getLsbD 0) = b.extractLsb' 0 1 := by
      ext j hj
      simp [show j = 0 by omega]
    exact (congrArg (0#31 ++ ·) low).trans (zeros_append_low (n := 31) (m := 1) (and_FFFFFFFE_eq_zero.mp h))
  -- without an operand in B the whole of B must be 0
  all_goals exact (and_FFFFFFFF.symm.trans h).symm

theorem unpackRgb24_low (c : Color) : unpackRgb24 ((0#8 ++ packRgb24 c).extractLsb' 0 24) = c := by
  rw [low_of_append, unpackRgb24_pack]

/-- Every operand reads back from the field it was put in. -/
theorem operandsOf_operands (i : Instr) : operandsOf i.opcode (operandA i) (operandB i) = i := by
  cases i
  case init length order pin =>
    have hlow : (0#16 ++ pin ++ order).extractLsb' 0 8 = order := low_of_append _ order
    have hnext : (0#16 ++ pin ++ order).extractLsb' 8 8 = pin := by
      rw [BitVec.extractLsb'_append_eq_of_le (by decide)]
      exact low_of_append _ pin
    exact congrArg₂ (Instr.init length) hlow hnext
  case setraw index raw => exact congrArg (Instr.setraw index) (low_of_append _ raw)
  case setpix index c => exact congrArg (Instr.setpix index) (unpackRgb24_low c)
  case setpixw index c => exact congrArg (Instr.setpixw index) (unpackWrgb32_pack c)
  case fill c => exact congrArg Instr.fill (unpackRgb24_low c)
  case fillw c => exact congrArg Instr.fillw (unpackWrgb32_pack c)
  case setbrt bri => exact congrArg Instr.setbrt (low_of_append _ bri)
  case setgamma en => cases en <;> rfl
  case cvtw c => exact congrArg Instr.cvtw (unpackRgb24_low c)
  case cvtrgb c => exact congrArg Instr.cvtrgb (unpackWrgb32_pack c)
  case lutrd c => exact congrArg Instr.lutrd (low_of_append _ c)
  all_goals rfl

/-! ### What decodes (R68) -/

theorem opcodeOfValue_eq_some : opcodeOfValue c = some op ↔ opcodeValue op = c :=
  ⟨opcodeValue_of_found, fun h => h ▸ opcodeOfValue_opcodeValue op⟩

/-- The reserved OPC values (R70). -/
theorem opcodeOfValue_eq_none : opcodeOfValue c = none ↔ 0x13 ≤ c.toNat := by
  simp only [opcodeOfValue, opcodeValue, BitVec.ofNat_eq_ofNat, allOpcodes, List.cons_append, List.nil_append, List.find?_eq_none,
    List.mem_cons, List.not_mem_nil, or_false, beq_iff_eq, forall_eq_or_imp, forall_eq]
  bv_omega

/-- A word decodes to the command of its OPC when the must-be-0 bits of that row are clear (R67, R69, R70). -/
theorem decode_eq_ok :
    decode w = .ok i ↔ opcodeValue i.opcode = fieldOpc w ∧ w &&& mustBeZero i.opcode = 0 ∧
      operandsOf i.opcode (fieldA w) (fieldB w) = i := by
  constructor
  · intro h
    unfold decode at h
    split at h
    · cases h
    · rename_i op hop
      split at h
      · rename_i hclear
        cases h
        rw [operandsOf_opcode]
        exact ⟨opcodeValue_of_found hop, hclear, rfl⟩
      · cases h
  · rintro ⟨hop, hclear, hi⟩
    simp only [decode, opcodeOfValue_eq_some.mpr hop, hclear, if_true, hi]

theorem exists_decode_eq_ok_opcode :
    (∃ i, decode w = .ok i ∧ i.opcode = op) ↔ opcodeValue op = fieldOpc w ∧ w &&& mustBeZero op = 0 := by
  constructor
  · rintro ⟨i, hd, rfl⟩
    obtain ⟨hop, hclear, -⟩ := decode_eq_ok.mp hd
    exact ⟨hop, hclear⟩
  · rintro ⟨hop, hclear⟩
    have ho := operandsOf_opcode op (fieldA w) (fieldB w)
    exact ⟨_, decode_eq_ok.mpr (by rw [ho]; exact ⟨hop, hclear, rfl⟩), ho⟩

theorem exists_decode_eq_ok : (∃ i, decode w = .ok i) ↔ ∃ op, opcodeValue op = fieldOpc w ∧ w &&& mustBeZero op = 0 := by
  simp only [← exists_decode_eq_ok_opcode]
  exact ⟨fun ⟨i, h⟩ => ⟨i.opcode, i, h, rfl⟩, fun ⟨_, i, h, _⟩ => ⟨i, h⟩⟩

theorem exists_decode_eq_error :
    (∃ e, decode w = .error e) ↔ ¬∃ op, opcodeValue op = fieldOpc w ∧ w &&& mustBeZero op = 0 := by
  rw [← exists_decode_eq_ok]
  cases decode w <;> simp

/-- A must-be-0 bit that is 1 rejects the word (R69). -/
theorem decode_rejects_setBit (ho : fieldOpc w = opcodeValue op) (hb : w &&& mustBeZero op ≠ 0) : ∃ e, decode w = .error e := by
  refine exists_decode_eq_error.mpr fun ⟨op', hop, hclear⟩ => hb ?_
  have same : some op' = some op := by rw [← opcodeOfValue_eq_some.mpr hop, opcodeOfValue_eq_some.mpr ho.symm]
  rwa [← Option.some.inj same]

/-- A reserved OPC rejects the word (R70). -/
theorem decode_rejects_reserved (ho : 0x13 ≤ (fieldOpc w).toNat) : ∃ e, decode w = .error e := by
  refine exists_decode_eq_error.mpr fun ⟨op, hop, _⟩ => ?_
  cases (opcodeOfValue_eq_some.mpr hop).symm.trans (opcodeOfValue_eq_none.mpr ho)

/-- With OPC 0x00 every other bit must be 0, so only the word 0 passes (R70, R97). -/
theorem and_mustBeZero_nop (ho : fieldOpc w = 0) (hw : w ≠ 0) : w &&& mustBeZero .nop ≠ 0 := by
  intro h
  obtain ⟨ha, hb⟩ := and_mustBeZero_eq_zero.mp h
  exact hw (word_ext_iff.mpr ⟨ho, and_FFFFFF.symm.trans ha, and_FFFFFFFF.symm.trans hb⟩)

/-! ### The field-by-field reading -/

/-- Row by row, the fields that the reading wants to be 0 are those that the mask covers (R67). -/
theorem wellFormed_of_opcode (h : opcodeValue op = fieldOpc w) : CmdWord.wellFormed w = true ↔ w &&& mustBeZero op = 0 := by
  rw [and_mustBeZero_eq_zero]
  unfold CmdWord.wellFormed
  rw [show w.extractLsb' 56 8 = opcodeValue op from h.symm]
  change _ ↔ w.extractLsb' 32 24 &&& _ = 0 ∧ w.extractLsb' 0 32 &&& _ = 0
  generalize w.extractLsb' 32 24 = a, w.extractLsb' 0 32 = b
  cases op <;> simp [opcodeValue, mustBeZero, fieldA, fieldB, and_FF000000_eq_zero, and_FFFF0000_eq_zero, and_FFFFFF00_eq_zero,
    and_FFFFFFFE_eq_zero, and_FFFF00_eq_zero, and_FFFFFFFF, and_FFFFFF]

theorem wellFormed_of_reserved (h : 0x13 ≤ (fieldOpc w).toNat) : CmdWord.wellFormed w = false := by
  change 0x13 ≤ (w.extractLsb' 56 8).toNat at h
  unfold CmdWord.wellFormed
  split
  any_goals omega
  rfl

/-! ### The statements -/

/-- The encoded command passes its row's test (R68). -/
theorem rowTest_encode (i : Instr) : encode i &&& rowMask i.opcode = rowMatch i.opcode :=
  match i with
  | .nop => RowTest.nop
  | .init length order pin => RowTest.init length order pin
  | .free => RowTest.free
  | .refresh => RowTest.refresh
  | .refresha => RowTest.refresha
  | .isbusy => RowTest.isbusy
  | .setraw index raw => RowTest.setraw index raw
  | .readpix index => RowTest.readpix index
  | .readreg regnum => RowTest.readreg regnum
  | .setpix index c => RowTest.setpix index c
  | .setpixw index c => RowTest.setpixw index c
  | .fill c => RowTest.fill c
  | .fillw c => RowTest.fillw c
  | .clear => RowTest.clear
  | .setbrt bri => RowTest.setbrt bri
  | .setgamma en => RowTest.setgamma en
  | .cvtw c => RowTest.cvtw c
  | .cvtrgb c => RowTest.cvtrgb c
  | .lutrd c => RowTest.lutrd c

/-- Settles O7: the command's word passes its row's test, and its operands read back from its fields. -/
theorem decodeOfEncodeIsTheCommand : Obligations.DecodeOfEncodeIsTheCommand := by
  intro i
  obtain ⟨hop, hclear⟩ := rowTest_iff.mp (rowTest_encode i)
  refine decode_eq_ok.mpr ⟨hop, hclear, ?_⟩
  rw [fieldA_encode, fieldB_encode, operandsOf_operands]

/-- Settles O8: each of the three fields of the command's word is that of the word it was decoded from. -/
theorem encodeOfDecodeIsTheWord : Obligations.EncodeOfDecodeIsTheWord := by
  intro w i h
  obtain ⟨hop, hclear, hi⟩ := decode_eq_ok.mp h
  obtain ⟨ha, hb⟩ := and_mustBeZero_eq_zero.mp hclear
  refine word_ext_iff.mpr ⟨?_, ?_, ?_⟩
  · rw [fieldOpc_encode, hop]
  · rw [fieldA_encode, ← operandA_operandsOf ha, hi]
  · rw [fieldB_encode, ← operandB_operandsOf hb, hi]

/-- Settles O9: the two readings agree for each known opcode, and both reject the reserved ones. -/
theorem decoderAcceptsExactlyTheWellFormedWords : Obligations.DecoderAcceptsExactlyTheWellFormedWords := by
  intro w
  rw [exists_decode_eq_ok]
  cases h : opcodeOfValue (fieldOpc w) with
  | none =>
    rw [wellFormed_of_reserved (opcodeOfValue_eq_none.mp h)]
    simp [← opcodeOfValue_eq_some, h]
  | some op =>
    rw [wellFormed_of_opcode (opcodeOfValue_eq_some.mp h)]
    simp [← opcodeOfValue_eq_some, h]

/-- Settles O10: the row test and the decoder both ask for the row's OPC and for clear must-be-0 bits. -/
theorem rowTestDecidesEveryWord : Obligations.RowTestDecidesEveryWord := by
  refine ⟨fun w op => rowTest_iff.trans exists_decode_eq_ok_opcode.symm, fun w => ?_, fun op => ⟨rfl, rowMatch_fields op⟩⟩
  rw [exists_decode_eq_error, not_exists]
  simp only [ne_eq, rowTest_iff]

/-- Settles O11: the twelve words, decoded. -/
theorem wordsOfTheSpecDecode : Obligations.WordsOfTheSpecDecode := by
  unfold Obligations.WordsOfTheSpecDecode
  decide

end Sys2Proof.Proofs
end

