-- ==== Sys2Proof/Proofs/HostPort.lean ====
section
/-! The host's command port (R61, R62): an idle block takes the next word and runs it or rejects it (R69, R70), and a busy one takes no
word. -/

namespace Sys2Proof.Proofs
open Sys2Proof.Machine Sys2Proof.Laws

variable {s : State} {w : CmdWord} {rest : List Input} {i : Instr} {e : Event}

/-! ### An idle block -/

theorem step_command (hi : s.engine = .idle) (hin : s.inbox = .command w :: rest) (hd : decode w = .ok i) :
    step s = exec i { s with inbox := rest } := by
  simp only [step, hi, hin, hd, if_true]

/-- Whatever the reason for which the word does not decode, the answer is the same (R69, R70). -/
theorem step_rejected (hi : s.engine = .idle) (hin : s.inbox = .command w :: rest) (hd : ∃ e, decode w = .error e) :
    step s = .next (answering .illegalCommand 0 { s with inbox := rest }) := by
  obtain ⟨e, hd⟩ := hd
  simp only [step, hi, hin, hd, if_true, raise, respond, answering]

/-- Settles O12: the step of an idle block on a word that decodes. -/
theorem idleBlockExecutesTheDecodedCommand : Obligations.IdleBlockExecutesTheDecodedCommand :=
  fun _ _ _ _ => step_command

/-- Settles O13: such a word does not decode. -/
theorem setReservedBitAnswersIllegalCommand : Obligations.SetReservedBitAnswersIllegalCommand :=
  fun _ _ _ _ hi hin ho hb => step_rejected hi hin (decode_rejects_setBit ho hb)

/-- Settles O14: a reserved opcode names no row, and the row of OPC 0x00 has no bit that may be 1. -/
theorem reservedOpcodeAnswersIllegalCommand : Obligations.ReservedOpcodeAnswersIllegalCommand := by
  intro s w rest hi hin h
  refine step_rejected hi hin ?_
  obtain hres | ⟨hnop, hw⟩ := h
  · exact decode_rejects_reserved hres
  · exact decode_rejects_setBit (op := .nop) hnop (and_mustBeZero_nop hnop hw)

/-! ### A busy block -/

theorem step_busy (hb : s.engine ≠ .idle) : step s = runCommand s := by simp only [step, hb, if_false]

theorem waitingCommands_takeEvent {inputs : List Input} (h : takeEvent inputs = some (e, rest)) :
    waitingCommands rest = waitingCommands inputs := by
  obtain ⟨before, after, rfl, rfl, -⟩ := takeEvent_some h
  simp [waitingCommands]

theorem takeEvent_eq_none {inputs : List Input} (h : ∀ e, .event e ∉ inputs) : takeEvent inputs = none := by
  refine Option.eq_none_iff_forall_ne_some.mpr fun ⟨e, rest⟩ htake => h e ?_
  obtain ⟨before, after, rfl, -, -⟩ := takeEvent_some htake
  simp

/-- Settles O15: a busy block's step is the run of its command, which takes events alone from the inbox. -/
theorem busyBlockAcceptsNoCommandAndMayBeStuck : Obligations.BusyBlockAcceptsNoCommandAndMayBeStuck := by
  refine ⟨fun s t hb h => ?_, fun s hb hnone => ?_⟩
  · rw [step_busy hb] at h
    refine runEngine_keeps (P := fun u => waitingCommands u.inbox = waitingCommands s.inbox) ?_ _ s t rfl h
    intro e rest u v hu _ htake hserve
    rw [serveEvent_inbox hserve, waitingCommands_takeEvent htake, hu]
  · rw [step_busy hb]
    exact runEngine_waits (takeEvent_eq_none hnone) _

end Sys2Proof.Proofs
end

