-- ==== Sys2Proof/Proofs/SymbolWords.lean ====
section
/-! The three symbol words of the symbol port (R74, R75). -/

namespace Sys2Proof.Proofs
open Sys2Proof.Machine

theorem encode_mem {cfg : Config} {bytes : List Byte} {x : SymbolWord} (h : x ∈ Machine.encode cfg bytes) :
    x = data0 cfg ∨ x = data1 cfg ∨ x = resetSymbol cfg := by
  obtain h | h := List.mem_append.mp h
  · obtain ⟨v, -, hv⟩ := List.mem_flatMap.mp h
    obtain ⟨t, -, rfl⟩ := List.mem_map.mp hv
    rw [dataSymbol]
    split
    · exact .inr (.inl rfl)
    · exact .inl rfl
  · exact .inr (.inr (List.mem_singleton.mp h))

/-- Settles O50: the formulas are the words' own definitions, and `encode` hands over data symbols and RESET. -/
theorem symbolWordsAreThoseOfTheTable : Obligations.SymbolWordsAreThoseOfTheTable :=
  ⟨by decide, by decide, by decide, fun _ => ⟨rfl, rfl, rfl, fun _ _ => encode_mem⟩⟩

end Sys2Proof.Proofs
end

