-- ==== Sys2Proof/Proofs/Assembler.lean ====
section
/-! The assembler (R72, R73): a number is an operand exactly when it is the whole value of its field, so each arm of the assembler is
one of the forms; and a number is read digit by digit. -/

namespace Sys2Proof.Proofs
open Sys2Proof.Machine Sys2Proof.Laws

variable {i : Instr} {mnemonic : String} {operands : List Nat}

/-! ### Operands that fit their field -/

theorem fitField_eq_some {w n : Nat} {v : BitVec w} : fitField w n = some v ↔ v.toNat = n := by
  unfold fitField
  split
  · rename_i h
    rw [Option.some.injEq, ← BitVec.toNat_inj, BitVec.toNat_ofNat, Nat.mod_eq_of_lt h, eq_comm]
  · rename_i h
    exact ⟨nofun, fun hn => absurd (hn ▸ v.isLt) h⟩

theorem fitColor_eq_some {r g b : Nat} {c : Color} :
    fitColor r g b = some c ↔ c.r.toNat = r ∧ c.g.toNat = g ∧ c.b.toNat = b := by
  obtain ⟨cr, cg, cb⟩ := c
  simp [fitColor, fitField_eq_some, Option.bind_eq_some_iff]

@[simp] theorem fitField_toNat {w : Nat} (v : BitVec w) : fitField w v.toNat = some v := fitField_eq_some.mpr rfl

@[simp] theorem fitColor_toNat (c : Color) : fitColor c.r.toNat c.g.toNat c.b.toNat = some c :=
  fitColor_eq_some.mpr ⟨rfl, rfl, rfl⟩

/-! ### The packed operands, with their channels written out as the forms do -/

@[simp] theorem unpackRgb24_append (c : Color) : unpackRgb24 (c.r ++ c.g ++ c.b) = c := unpackRgb24_pack c

@[simp] theorem unpackWrgb32_append (c : ColorW) : unpackWrgb32 (c.w ++ c.r ++ c.g ++ c.b) = c := unpackWrgb32_pack c

theorem toNat_rgb24 (v : Word24) : ((unpackRgb24 v).r ++ (unpackRgb24 v).g ++ (unpackRgb24 v).b).toNat = v.toNat :=
  congrArg BitVec.toNat (packRgb24_unpack v)

theorem toNat_wrgb32 (v : Word32) :
    ((unpackWrgb32 v).w ++ (unpackWrgb32 v).r ++ (unpackWrgb32 v).g ++ (unpackWrgb32 v).b).toNat = v.toNat :=
  congrArg BitVec.toNat (packWrgb32_unpack v)

theorem toNat_bit (v : BitVec 1) : (v.getLsbD 0).toNat = v.toNat := by
  revert v
  decide

/-! ### The forms -/

theorem assembleNumeric_of_asmForm (h : AsmForm mnemonic operands i) : assembleNumeric mnemonic operands = some i := by
  cases h
  case setgamma en => cases en <;> rfl
  all_goals simp [assembleNumeric]

/-- Each arm of the assembler is a form, with the fields' values that its operands fit. -/
theorem asmForm_of_assembleNumeric (h : assembleNumeric mnemonic operands = some i) : AsmForm mnemonic operands i := by
  unfold assembleNumeric at h
  split at h <;> simp only [Option.bind_eq_bind, Option.bind_eq_some_iff, Option.pure_def, Option.some.injEq, fitField_eq_some,
    fitColor_eq_some, reduceCtorEq] at h
  · exact h ▸ .nop
  · obtain ⟨length, rfl, order, rfl, pin, rfl, rfl⟩ := h
    exact .init length order pin
  · exact h ▸ .free
  · exact h ▸ .refresh
  · exact h ▸ .refresha
  · exact h ▸ .isbusy
  · obtain ⟨index, rfl, raw, rfl, rfl⟩ := h
    exact .setraw index raw
  · obtain ⟨index, rfl, rfl⟩ := h
    exact .readpix index
  · obtain ⟨regnum, rfl, rfl⟩ := h
    exact .readreg regnum
  · obtain ⟨index, rfl, rgb, rfl, rfl⟩ := h
    exact toNat_rgb24 rgb ▸ .setpix index (unpackRgb24 rgb)
  · obtain ⟨index, rfl, wrgb, rfl, rfl⟩ := h
    exact toNat_wrgb32 wrgb ▸ .setpixw index (unpackWrgb32 wrgb)
  · obtain ⟨rgb, rfl, rfl⟩ := h
    exact toNat_rgb24 rgb ▸ .fill (unpackRgb24 rgb)
  · obtain ⟨wrgb, rfl, rfl⟩ := h
    exact toNat_wrgb32 wrgb ▸ .fillw (unpackWrgb32 wrgb)
  · exact h ▸ .clear
  · obtain ⟨bri, rfl, rfl⟩ := h
    exact .setbrt bri
  · obtain ⟨en, rfl, rfl⟩ := h
    exact toNat_bit en ▸ .setgamma (en.getLsbD 0)
  · obtain ⟨rgb, rfl, rfl⟩ := h
    exact toNat_rgb24 rgb ▸ .cvtw (unpackRgb24 rgb)
  · obtain ⟨wrgb, rfl, rfl⟩ := h
    exact toNat_wrgb32 wrgb ▸ .cvtrgb (unpackWrgb32 wrgb)
  · obtain ⟨c, rfl, rfl⟩ := h
    exact .lutrd c
  · exact h ▸ .shows
  · exact h ▸ .showsAsync
  · exact h ▸ .gammaon
  · exact h ▸ .gammaoff
  · exact h ▸ .fullbrt
  · obtain ⟨index, rfl, c, ⟨rfl, rfl, rfl⟩, rfl⟩ := h
    exact .setpixc index c
  · obtain ⟨c, ⟨rfl, rfl, rfl⟩, rfl⟩ := h
    exact .fillc c

theorem assembleNumeric_eq_some : assembleNumeric mnemonic operands = some i ↔ AsmForm mnemonic operands i :=
  ⟨asmForm_of_assembleNumeric, assembleNumeric_of_asmForm⟩

theorem assemble_eq_some {line : List Char} :
    assemble line = some i ↔
      ∃ mnemonic operands, parseLine line = some (mnemonic, operands) ∧ AsmForm mnemonic operands i := by
  simp only [← assembleNumeric_eq_some, assemble]
  rcases parseLine line with _ | ⟨mnemonic, operands⟩ <;> simp

/-! ### Numbers -/

/-- One more digit at the end, whatever was read before the number (R72). -/
theorem readDigits_append_digit {base acc v d : Nat} {cs : List Char} {c : Char} (h : readDigits base acc cs = some v)
    (hc : digitValue c = some d) (hd : d < base) : readDigits base acc (cs ++ [c]) = some (base * v + d) := by
  induction cs generalizing acc with
  | nil =>
    cases h
    simp [readDigits, hc, hd]
  | cons c' cs ih =>
    simp only [readDigits, List.cons_append] at h ⊢
    split at h
    · cases h
    · split at h
      · rename_i hlt
        rw [if_pos hlt]
        exact ih h
      · cases h

/-- Settles O60: the assembler's arms are the forms, a digit goes onto the number before it, and the eight lines are evaluated. -/
theorem assemblerRefusesWhatDoesNotFit : Obligations.AssemblerRefusesWhatDoesNotFit :=
  ⟨fun _ _ _ => assembleNumeric_eq_some, fun _ _ => assemble_eq_some, fun _ => ⟨rfl, fun _ _ _ _ => readDigits_append_digit⟩,
    by decide⟩

end Sys2Proof.Proofs
end

