-- ==== Sys2Proof/Proofs/BlockingRefresh.lean ====
section
/-! A blocking refresh, answer by answer (R94, R100), and the one that the channel plays to its end (R82, R84, R86). -/

namespace Sys2Proof.Proofs
open Sys2Proof.Machine Sys2Proof.Laws

variable {s t u : State} {e : Event} {es : List Event} {x : Tx}

/-! ### Events within a command -/

theorem serveAll_append_of_next (fs : List Event) (h : serveAll es s = .next t) : serveAll (es ++ fs) s = serveAll fs t := by
  induction es generalizing s with
  | nil =>
    cases h
    rfl
  | cons e es ih =>
    obtain ⟨u, he, hes⟩ := serveAll_cons h
    exact (serveAll_of_next _ he).trans (ih hes)

/-- The channel's two inputs do not depend on what is still to come (R142). -/
theorem serveEvent_channelInput_inbox (r : List Input) (he : channelInput e = true) (h : serveEvent e s = .next t) :
    serveEvent e { s with inbox := r } = .next { t with inbox := r } := by
  cases e with
  | chDone => exact serveDone_inbox r h
  | symPull => exact servePull_inbox r h
  | answer | genRead | ticks | groupWrite | reset => cases he

/-- The channel's two inputs leave the command where it is (R95). -/
theorem serveEvent_channelInput_engine (he : channelInput e = true) (h : serveEvent e s = .next t) : t.engine = s.engine := by
  cases e with
  | chDone =>
    obtain ⟨x, rest, -, -, -, rfl⟩ := serveDone_next h
    rfl
  | symPull =>
    obtain ⟨x, -, -, -, -, rfl⟩ := servePull_next h
    rfl
  | answer | genRead | ticks | groupWrite | reset => cases he

/-- The run of a command serves the channel's inputs that come next, as `serveAll` does, and goes on with the inbox behind them. -/
theorem runEngine_channelInputs {after inbox : List Input} {n : Nat} (hes : es.all channelInput = true) (hb : s.engine ≠ .idle)
    (hin : s.inbox = asInputs es ++ after) (h : serveAll es { s with inbox := inbox } = .next u) :
    runEngine (es.length + n) s = runEngine n { u with inbox := after } := by
  induction es generalizing s with
  | nil =>
    cases h
    have hs : { s with inbox := after } = s := by rw [show after = s.inbox from hin.symm]
    rw [List.length_nil, Nat.zero_add, hs]
  | cons e es ih =>
    obtain ⟨he, hes⟩ : channelInput e = true ∧ es.all channelInput = true := by simpa using hes
    obtain ⟨t, hserve, hall⟩ := serveAll_cons h
    have ht : { t with inbox := inbox } = t := by rw [← show t.inbox = inbox from serveEvent_inbox hserve]
    have hnext := serveEvent_channelInput_inbox (asInputs es ++ after) he hserve
    have hbusy : t.engine ≠ .idle := serveEvent_channelInput_engine he hserve ▸ hb
    rw [List.length_cons, Nat.succ_add, runEngine_event hb hin hnext]
    exact ih hes hbusy rfl (ht.symm ▸ hall)

/-! ### The blocking refresh -/

/-- The block once the channel has accepted the transmission of a blocking refresh: the wait for its end is requested (R94, R100). -/
def refreshAccepted (s : State) : State :=
  { s with
    engine := .blockWait
    txq := s.txq ++ [newTx s.length]
    inflight := s.inflight + 1
    chanTrace := [.request (.waitAllDone s.cfg.refreshTimeout), .answer .ok, .request (.transmit 0)] ++ s.chanTrace }

/-- An accepted blocking refresh serves the channel's inputs that come next, and goes on with what comes behind them. -/
theorem blockingRefresh_accepted {after : List Input} (hfull : s.inflight ≠ 65535) (hes : es.all channelInput = true)
    (hin : s.inbox = .event (.answer .ok) :: (asInputs es ++ after)) (h : serveAll es (refreshAccepted s) = .next u) :
    blockingRefresh s = runEngine after.length { u with inbox := after } := by
  have hserve : serveEvent (.answer .ok)
      { sendRequest (.transmit Config.loopCount) .blockTransmit s with inbox := asInputs es ++ after } =
        .next { refreshAccepted s with inbox := asInputs es ++ after } := rfl
  rw [blockingRefresh, submit, if_neg hfull, runCommand_event (s := sendRequest _ _ s) Engine.noConfusion hin hserve,
    List.length_append, asInputs, List.length_map]
  exact runEngine_channelInputs (s := { refreshAccepted s with inbox := asInputs es ++ after }) (inbox := s.inbox) hes
    Engine.noConfusion rfl h

/-- DONE starts the latch wait, and the ticks that complete it end the command (R35, R100; log 7). -/
theorem runEngine_done_ticks {rest : List Input} {wait n : Nat} (he : s.engine = .blockWait) (hq : s.txq = [])
    (hw : s.cfg.trst ≤ wait) (hin : s.inbox = asInputs [.answer .done, .ticks wait] ++ rest) :
    runEngine (n + 2) s = .next (answering .ok 0 { s with
      latchTimer := none, chanTrace := .answer .done :: s.chanTrace, inbox := rest }) := by
  have hdone : serveEvent (.answer .done) { s with inbox := asInputs [.ticks wait] ++ rest } =
      .next { s with
        engine := .blockLatch, latchTimer := some s.cfg.trst, chanTrace := .answer .done :: s.chanTrace
        inbox := asInputs [.ticks wait] ++ rest } := by
    simp [serveEvent, serveAnswer, he, onBlockWait, hq]
  have hticks : serveEvent (.ticks wait) { s with
      engine := .blockLatch, latchTimer := some s.cfg.trst, chanTrace := .answer .done :: s.chanTrace, inbox := rest } =
      .next (answering .ok 0 { s with
        latchTimer := none, chanTrace := .answer .done :: s.chanTrace, inbox := rest }) := by
    simp [serveEvent, serveTicks, hw, respond, answering]
  rw [runEngine_event (by simp [he]) hin hdone, runEngine_event Engine.noConfusion rfl hticks, runEngine_idle rfl]

/-! ### A transmission that nothing disturbs -/

/-- A submitted record carries the buffer's bytes (R52). -/
theorem carriedBytes_newTx (m : Mem) (l : Word24) : carriedBytes m (newTx l) = memGet m 0 (3 * l.toNat) :=
  List.map_congr_left fun j _ => by rw [Nat.zero_add, txByte_eq (.inr ⟨rfl, rfl⟩)]

/-- Each pull moves the pointer of the only record on by one symbol (R34, R86). -/
theorem txq_of_serveAll_symPulls {n : Nat} (hq : s.txq = [x]) (h : serveAll (List.replicate n .symPull) s = .next t) :
    ∃ x', t.txq = [x'] ∧ x'.len = x.len ∧ x'.k = x.k + n := by
  induction n generalizing s x with
  | zero =>
    cases h
    exact ⟨x, hq, rfl, rfl⟩
  | succ n ih =>
    obtain ⟨u, hpull, hrest⟩ := serveAll_cons h
    obtain ⟨y, hy, -, -, -, rfl⟩ := servePull_next hpull
    have hopen : txOpen x = true := by
      rw [hq] at hy
      simpa using List.find?_isSome.mp (Option.isSome_of_eq_some hy)
    obtain ⟨x', hx', hlen, hk⟩ := ih (x := pullTx s.cfg s.buf x) (by simp [hq, pullFirst, hopen]) hrest
    exact ⟨x', hx', hlen, hk.trans (Nat.succ_add_eq_add_succ x.k n)⟩

/-- A record that is alone in TXQ and has handed over nothing is pulled to its end and completed: its stream is the encoding of
what it carries (R82, R84, R86, R95). -/
theorem serveAll_play (hp : Playable s) (hq : s.txq = [newTx s.length]) :
    serveAll (List.replicate (frameSymbols s.length) .symPull ++ [.chDone]) s = .next { s with
      txq := []
      inflight := s.inflight - 1
      streams := ⟨s.length, Machine.encode s.cfg (memGet s.buf 0 (3 * s.length.toNat)), true⟩ :: s.streams } := by
  have ⟨_, hchan, _⟩ := hp
  obtain ⟨x, hpulls, hsent⟩ := serveAll_symPulls (n := frameSymbols s.length) hp hq rfl (Nat.zero_add _) rfl
  rw [carriedBytes_newTx] at hsent
  obtain ⟨x', hx', hlen, hk⟩ := txq_of_serveAll_symPulls hq hpulls
  obtain rfl : x = x' := by simpa using hx'
  have hclosed : txOpen x = false := by
    rw [txOpen_eq_false, hlen, hk]
    exact Nat.le_add_left _ _
  have hdone : serveEvent .chDone { s with txq := [x] } = .next { s with
      txq := [], inflight := s.inflight - 1, streams := endStream true x :: s.streams } := by
    simp [serveEvent, serveDone, hchan, hclosed]
  rw [serveAll_append_of_next _ hpulls, serveAll_of_next _ hdone, endStream, hsent, hlen]
  rfl

/-- A blocking refresh of an idle strip that the channel accepts, plays to its end and reports, and that then waits out the latch. -/
theorem blockingRefresh_undisturbed {rest : List Input} {wait : Nat} (hp : Playable s) (hidle : s.inflight = 0)
    (hq : s.txq = []) (hw : s.cfg.trst ≤ wait) (hin : s.inbox = asInputs (refreshEvents s.length wait) ++ rest) :
    blockingRefresh s = .next (refreshed rest s) := by
  have hplay := serveAll_play (s := refreshAccepted s) hp (by simp [refreshAccepted, hq])
  have hfull : s.inflight ≠ 65535 := by simp [hidle]
  rw [blockingRefresh_accepted (after := asInputs [.answer .done, .ticks wait] ++ rest) hfull ?_ ?_ hplay]
  · refine Eq.trans (runEngine_done_ticks (n := rest.length) (rest := rest) rfl rfl ?_ rfl) ?_
    · exact hw
    · simp [answering, refreshAccepted, refreshed, hidle, hq]
  · simp [channelInput]
  · simp [hin, refreshEvents, asInputs, refreshAccepted]

/-- Settles O21: REFRESH of a live strip is the blocking refresh. -/
theorem undisturbedRefreshSendsTheWholeBuffer : Obligations.UndisturbedRefreshSendsTheWholeBuffer := by
  intro s rest wait hp hidle hq hw hin
  have ⟨hlive, _⟩ := hp
  exact (if_neg (not_not.mpr hlive)).trans (blockingRefresh_undisturbed hp hidle hq hw hin)

end Sys2Proof.Proofs
end

