-- ==== Sys2Proof/Proofs/Waveform.lean ====
section
/-! The symbols of a byte sequence, one by one (R83), the waveform that plays them (R74, R87), and how long it lasts (R88). -/

namespace Sys2Proof.Proofs
open Sys2Proof.Machine Sys2Proof.Laws

variable {cfg : Config}

/-! ### The symbols of a byte sequence (R83) -/

/-- Settles O51: the length of the encoding, its data symbols and its RESET. -/
theorem encodeIndexesEveryBitOnce : Obligations.EncodeIndexesEveryBitOnce := by
  intro cfg bytes
  refine ⟨encode_length cfg bytes, fun k v => encode_getElem?_data, encode_getElem?_reset cfg bytes, fun l hl => ?_⟩
  rw [encode_length]
  omega

/-! ### The level of the line (R87) -/

theorem waveform_append (xs ys : List SymbolWord) : waveform (xs ++ ys) = waveform xs ++ waveform ys := List.flatMap_append

theorem waveform_singleton (w : SymbolWord) : waveform [w] = symbolPhases w := List.append_nil _

theorem waveformTicks_append (v w : List (Bool × Nat)) : waveformTicks (v ++ w) = waveformTicks v + waveformTicks w := by
  simp [waveformTicks]

/-- One waveform after another: the second begins on the tick on which the first ends. -/
theorem levelAfter_append (v w : List (Bool × Nat)) (t : Nat) :
    levelAfter (v ++ w) t = if t < waveformTicks v then levelAfter v t else levelAfter w (t - waveformTicks v) := by
  induction v generalizing t with
  | nil => simp [waveformTicks]
  | cons p v ih =>
    obtain ⟨level, d⟩ := p
    have hticks : waveformTicks ((level, d) :: v) = d + waveformTicks v := by simp [waveformTicks]
    simp only [List.cons_append, levelAfter, ih, hticks]
    by_cases hd : t < d
    · simp [hd, Nat.lt_add_right _ hd]
    · have hrest : t - d < waveformTicks v ↔ t < d + waveformTicks v := by omega
      simp [hd, hrest, Nat.sub_sub]

theorem lineLevel_append (v w : List (Bool × Nat)) (t : Int) :
    lineLevel (v ++ w) t = if t < waveformTicks v then lineLevel v t else lineLevel w (t - waveformTicks v) := by
  unfold lineLevel
  by_cases ht : t < 0
  · simp [ht, show t < (waveformTicks v : Int) by omega]
  · lift t to Nat using not_lt.mp ht
    simp only [ht, if_false, Int.toNat_natCast, levelAfter_append, Nat.cast_lt]
    split
    · rfl
    · rw [if_neg (by omega), show ((t : Int) - waveformTicks v).toNat = t - waveformTicks v by omega]

/-- Before its start and after its end a waveform is low. -/
theorem lineLevel_outside {w : List (Bool × Nat)} {t : Int} (h : t < 0 ∨ (waveformTicks w : Int) ≤ t) : lineLevel w t = false := by
  obtain hstart | hend := h
  · exact if_pos hstart
  · have hafter := lineLevel_append w [] t
    rw [List.append_nil, if_neg (not_lt.mpr hend)] at hafter
    simpa [lineLevel, levelAfter] using hafter

/-! ### The phases of a symbol (R74) -/

theorem lineLevel_two_phases (l0 l1 : Bool) (d0 d1 : Nat) {t : Int} (ht : 0 ≤ t) :
    lineLevel [(l0, d0), (l1, d1)] t = if t < d0 then l0 else if t < d0 + d1 then l1 else false := by
  lift t to Nat using ht
  have hjoint : ¬t < d0 → (t - d0 < d1 ↔ t < d0 + d1) := by omega
  rw [lineLevel, if_neg (by omega), Int.toNat_natCast, levelAfter, levelAfter, levelAfter]
  norm_cast
  split
  · rfl
  · rename_i h0
    simp only [hjoint h0]

/-- A symbol word holds its two phases where each duration fits its fifteen bits. -/
theorem symbolPhases_symbolWord (l0 l1 : Bool) {d0 d1 : Nat} (h0 : d0 < 2 ^ 15) (h1 : d1 < 2 ^ 15) :
    symbolPhases (symbolWord l0 d0 l1 d1) = [(l0, d0), (l1, d1)] := by
  have hlow : (symbolWord l0 d0 l1 d1).extractLsb' 0 15 = BitVec.ofNat 15 d0 := low_of_append _ _
  have hhigh : (symbolWord l0 d0 l1 d1).extractLsb' 16 15 = BitVec.ofNat 15 d1 := by
    rw [symbolWord, BitVec.extractLsb'_append_eq_of_le (by decide), BitVec.extractLsb'_append_eq_of_le (by decide)]
    exact low_of_append _ _
  have hlevel0 : (symbolWord l0 d0 l1 d1).getLsbD 15 = l0 := by
    rw [symbolWord, BitVec.getLsbD_append, BitVec.getLsbD_append]
    simp
  have hlevel1 : (symbolWord l0 d0 l1 d1).getLsbD 31 = l1 := by
    rw [symbolWord, BitVec.getLsbD_append, BitVec.getLsbD_append, BitVec.getLsbD_append]
    simp
  rw [symbolPhases, hlow, hhigh, hlevel0, hlevel1, BitVec.toNat_ofNat, BitVec.toNat_ofNat, Nat.mod_eq_of_lt h0,
    Nat.mod_eq_of_lt h1]

theorem waveform_data0 (h : cfg.wf) : waveform [data0 cfg] = [(true, 4), (false, cfg.t0l)] := by
  obtain ⟨hlow, -⟩ := h
  exact (waveform_singleton _).trans (symbolPhases_symbolWord _ _ (by decide) (by omega))

theorem waveform_data1 (h : cfg.wf) : waveform [data1 cfg] = [(true, 8), (false, cfg.t1l)] := by
  obtain ⟨-, hlow, -⟩ := h
  exact (waveform_singleton _).trans (symbolPhases_symbolWord _ _ (by decide) (by omega))

theorem waveform_reset (h : cfg.wf) : waveform [resetSymbol cfg] = [(false, 0), (false, cfg.trst)] := by
  obtain ⟨-, -, ⟨-, hmax⟩, -⟩ := h
  exact (waveform_singleton _).trans (symbolPhases_symbolWord _ _ (by decide) (by omega))

/-- Settles O52: the joint of two waveforms, the line outside one, and the two phases of a symbol. -/
theorem waveformPlaysTheSymbolsWithoutGap : Obligations.WaveformPlaysTheSymbolsWithoutGap := by
  refine ⟨fun xs ys t => ?_, fun xs t => lineLevel_outside, fun w t ht => ?_, fun cfg h =>
    ⟨waveform_data0 h, waveform_data1 h, waveform_reset h, ?_⟩⟩
  · rw [waveform_append, lineLevel_append]
  · rw [waveform_singleton, symbolPhases, lineLevel_two_phases _ _ _ _ ht]
  · obtain ⟨-, -, ⟨hmin, -⟩, -⟩ := h
    exact hmin

/-! ### How long it lasts (R88) -/

theorem waveformTicks_data0 (h : cfg.wf) : waveformTicks (waveform [data0 cfg]) = 4 + cfg.t0l := by
  simp [waveform_data0 h, waveformTicks]

theorem waveformTicks_data1 (h : cfg.wf) : waveformTicks (waveform [data1 cfg]) = 8 + cfg.t1l := by
  simp [waveform_data1 h, waveformTicks]

theorem waveformTicks_reset (h : cfg.wf) : waveformTicks (waveform [resetSymbol cfg]) = cfg.trst := by
  simp [waveform_reset h, waveformTicks]

/-- The bits of a byte in the order in which they are sent, bit 7 first (R81). -/
def byteBits (v : Byte) : List Bool := (List.range 8).map (fun t => v.getLsbD (7 - t))

theorem encodeByte_eq_map (cfg : Config) (v : Byte) : encodeByte cfg v = (byteBits v).map (dataSymbol cfg) := by
  rw [byteBits, List.map_map]
  rfl

theorem byteBits_length (v : Byte) : (byteBits v).length = 8 := by simp [byteBits]

theorem count_true_byteBits (v : Byte) : (byteBits v).count true = oneBits v := by
  have hrev : (List.range 8).map (7 - ·) = (List.range 8).reverse := by decide
  have hbits : byteBits v = ((List.range 8).map v.getLsbD).reverse := by
    rw [← List.map_reverse, ← hrev, List.map_map]
    rfl
  rw [hbits, List.count_reverse, oneBits, List.count, List.countP_map]
  congr 1
  ext
  simp

theorem encode_eq_map (cfg : Config) (bytes : List Byte) :
    Machine.encode cfg bytes = (bytes.flatMap byteBits).map (dataSymbol cfg) ++ [resetSymbol cfg] := by
  rw [Machine.encode, List.map_flatMap, funext (encodeByte_eq_map cfg)]

theorem count_true_flatMap_byteBits (bytes : List Byte) : (bytes.flatMap byteBits).count true = (bytes.map oneBits).sum := by
  rw [List.count_flatMap]
  congr 2
  funext v
  exact count_true_byteBits v

/-- Data symbols last as long as their one-bits and their zero-bits together. -/
theorem waveformTicks_dataSymbols (h : cfg.wf) (bits : List Bool) :
    waveformTicks (waveform (bits.map (dataSymbol cfg))) =
      bits.count true * (8 + cfg.t1l) + (bits.length - bits.count true) * (4 + cfg.t0l) := by
  rw [← List.count_true_add_count_false bits, Nat.add_sub_cancel_left]
  induction bits with
  | nil => simp [waveform, waveformTicks]
  | cons bit bits ih =>
    rw [List.map_cons, ← List.singleton_append, waveform_append, waveformTicks_append, ih]
    cases bit with
    | true =>
      rw [dataSymbol, if_pos rfl, waveformTicks_data1 h, List.count_cons_self, List.count_cons_of_ne Bool.noConfusion]
      ring
    | false =>
      rw [dataSymbol, if_neg Bool.noConfusion, waveformTicks_data0 h, List.count_cons_self,
        List.count_cons_of_ne Bool.noConfusion]
      ring

theorem waveformTicks_encodeByte (h : cfg.wf) (v : Byte) :
    waveformTicks (waveform (encodeByte cfg v)) = oneBits v * (8 + cfg.t1l) + (8 - oneBits v) * (4 + cfg.t0l) := by
  rw [encodeByte_eq_map, waveformTicks_dataSymbols h, count_true_byteBits, byteBits_length]

theorem flatMap_byteBits_length (bytes : List Byte) : (bytes.flatMap byteBits).length = 8 * bytes.length := by
  rw [List.length_flatMap, funext byteBits_length, List.map_const', List.sum_replicate, smul_eq_mul, Nat.mul_comm]

/-- Of the bits of a byte sequence at most all are ones. -/
theorem sum_oneBits_le (bytes : List Byte) : (bytes.map oneBits).sum ≤ 8 * bytes.length := by
  rw [← count_true_flatMap_byteBits, ← flatMap_byteBits_length]
  exact List.count_le_length

/-- A frame lasts as long as its bits, and then the reset symbol. -/
theorem waveformTicks_encode (h : cfg.wf) (bytes : List Byte) :
    waveformTicks (waveform (Machine.encode cfg bytes)) = (bytes.map oneBits).sum * (8 + cfg.t1l) +
      (8 * bytes.length - (bytes.map oneBits).sum) * (4 + cfg.t0l) + cfg.trst := by
  rw [encode_eq_map, waveform_append, waveformTicks_append, waveformTicks_dataSymbols h, count_true_flatMap_byteBits,
    flatMap_byteBits_length, waveformTicks_reset h]

/-- Settles O53: a byte is its eight bits, and a frame its bytes' bits and RESET; with the default parameters every bit lasts 12
ticks. -/
theorem frameTimeFollowsFromItsBits : Obligations.FrameTimeFollowsFromItsBits := by
  intro cfg h
  refine ⟨waveformTicks_data0 h, waveformTicks_data1 h, waveformTicks_encodeByte h, fun bytes l hl => ?_⟩
  have hbits : 8 * bytes.length = 24 * l := by omega
  have hones := sum_oneBits_le bytes
  have htime := waveformTicks_encode h bytes
  rw [hbits] at hones htime
  refine ⟨htime, fun hdefault => htime.trans ?_⟩
  subst hdefault
  simp only [Config.default]
  omega

end Sys2Proof.Proofs
end

