-- ==== Sys2Proof/Proofs/CommandAnswers.lean ====
section
/-! The lifecycle commands that answer at once (R97, R102 to R105), the guard of the buffer-mutating ones (R56, R96), and a completion
event between two commands (R95). -/

namespace Sys2Proof.Proofs
open Sys2Proof.Machine Sys2Proof.Laws

variable {s : State} {index : Word24} {r : StepResult}

/-! ### The checks of a command -/

theorem busyFlag_eq_true : busyFlag s = true ↔ s.inflight ≠ 0 := by simp [busyFlag]

/-- BUSY as R102 and R19 read it. -/
theorem busyFlag_eq_true_iff_pos : busyFlag s = true ↔ 0 < s.inflight.toNat := by
  rw [busyFlag_eq_true]
  bv_omega

theorem guardRefuses_eq_true : guardRefuses s = true ↔ s.cfg.inflightGuard = true ∧ s.inflight ≠ 0 := by
  rw [guardRefuses, Bool.and_eq_true, busyFlag_eq_true]

/-- Outside LIVE a command that needs a strip is refused (R135). -/
theorem liveCheck_refused (h : s.lc ≠ .live) :
    (if s.lc ≠ .live then raise .invalidArgument s else r) = .next (answering .invalidArgument 0 s) := if_pos h

theorem liveCheck_passed (h : s.lc = .live) : (if s.lc ≠ .live then raise .invalidArgument s else r) = r :=
  if_neg (not_not.mpr h)

/-- Outside LIVE or outside the strip a command of one pixel is refused (R103, R104, R137). -/
theorem pixelCheck_refused (h : s.lc ≠ .live ∨ s.length.toNat ≤ index.toNat) :
    (if s.lc ≠ .live then raise .invalidArgument s
      else if s.length.toNat ≤ index.toNat then raise .invalidArgument s else r) =
      .next (answering .invalidArgument 0 s) := by
  by_cases hl : s.lc = .live
  · exact (liveCheck_passed hl).trans (if_pos (h.resolve_left (not_not.mpr hl)))
  · exact liveCheck_refused hl

theorem pixelCheck_passed (hl : s.lc = .live) (hi : index.toNat < s.length.toNat) :
    (if s.lc ≠ .live then raise .invalidArgument s
      else if s.length.toNat ≤ index.toNat then raise .invalidArgument s else r) = r :=
  (liveCheck_passed hl).trans (if_neg (not_le.mpr hi))

/-- `guard()` refuses with the guard ON and a transmission in flight (R96). -/
theorem guard_refused (hg : s.cfg.inflightGuard = true) (hn : s.inflight ≠ 0) :
    (if guardRefuses s then raise .busy s else r) = .next (answering .busy 0 s) := if_pos (guardRefuses_eq_true.mpr ⟨hg, hn⟩)

theorem guard_passed (h : s.cfg.inflightGuard = false ∨ s.inflight = 0) :
    (if guardRefuses s then raise .busy s else r) = r := by
  refine if_neg fun hrefuses => ?_
  obtain ⟨hg, hn⟩ := guardRefuses_eq_true.mp hrefuses
  obtain hoff | hnone := h
  · simp [hoff] at hg
  · exact hn hnone

/-- A pixel of a playable strip has its three bytes in the buffer (R41, R42). -/
theorem withBuffer_pixel (hp : Playable s) (hi : index.toNat < s.length.toNat) :
    withBuffer (3 * index.toNat + 3) s r = r := by
  obtain ⟨-, -, halloc, hmax⟩ := hp
  exact withBuffer_eq halloc (by omega)

/-- Settles O35: the state and index checks pass, and `guard()`, the next check of each of the six commands, refuses. -/
theorem guardAnswersBusyToEveryMutation : Obligations.GuardAnswersBusyToEveryMutation := by
  intro s i hl hg hn h
  obtain ⟨n, raw, rfl, hi⟩ | ⟨n, c, rfl, hi⟩ | ⟨n, c, rfl, hi⟩ | ⟨c, rfl⟩ | ⟨c, rfl⟩ | rfl := h
  case inl | inr.inl | inr.inr.inl => exact (pixelCheck_passed hl hi).trans (guard_refused hg hn)
  all_goals exact (liveCheck_passed hl).trans (guard_refused hg hn)

/-! ### NOP, ISBUSY and READREG -/

theorem decode_nop_setBit {w : CmdWord} (ho : fieldOpc w = 0) (hw : w ≠ 0) : decode w = .error (.mustBeZeroBitSet .nop) := by
  have hop : opcodeOfValue (fieldOpc w) = some .nop := opcodeOfValue_eq_some.mpr ho.symm
  simp only [decode, hop, and_mustBeZero_nop ho hw, if_false]

/-- Settles O17: of the words with OPC 0x00 only the word 0 has every must-be-0 bit clear. -/
theorem nopAnswersOkAndChangesNothing : Obligations.NopAnswersOkAndChangesNothing :=
  ⟨decodeOfEncodeIsTheCommand .nop, fun _ => decode_nop_setBit, fun _ => rfl⟩

theorem ofBool_setWidth (b : Bool) : (BitVec.ofBool b).setWidth 32 = if b then 1 else 0 := by cases b <;> rfl

theorem busyFlag_setWidth (s : State) :
    (BitVec.ofBool (busyFlag s)).setWidth 32 = if 0 < s.inflight.toNat then 1 else 0 :=
  (ofBool_setWidth _).trans (if_congr busyFlag_eq_true_iff_pos rfl rfl)

/-- Settles O23: past its state check ISBUSY answers BUSY, zero-extended. -/
theorem isbusyAnswersWhetherAnythingIsInFlight : Obligations.IsbusyAnswersWhetherAnythingIsInFlight := by
  refine ⟨decodeOfEncodeIsTheCommand .isbusy, fun s => ⟨fun hl => liveCheck_refused hl, fun hl => ?_⟩⟩
  rw [← busyFlag_setWidth]
  exact liveCheck_passed hl

/-- No register has a number above 0x0B (R31). -/
theorem readRegister_reserved {n : Word24} (h : 0x0B < n.toNat) : readRegister n s = none := by
  unfold readRegister
  split
  any_goals omega
  rfl

theorem stateCode_setWidth (s : State) : (stateCode s).setWidth 32 = match s.lc with
    | .uninit => 0 | .live => if 0 < s.inflight.toNat then 2 else 1 | .freed => 3 := by
  unfold stateCode
  cases s.lc with
  | uninit => rfl
  | freed => rfl
  | live =>
    simp only [busyFlag_eq_true_iff_pos]
    split <;> rfl

theorem orderCode_setWidth (o : ChannelOrder) :
    (orderCode o).setWidth 32 = match o with | .rgb => 0 | .grb => 1 | .brg => 2 := by
  cases o <;> rfl

theorem chanCode_setWidth (c : ChannelHold) :
    (chanCode c).setWidth 32 = match c with | .none => 0 | .configured => 1 | .enabled => 2 := by
  cases c <;> rfl

/-- READREG answers what the register map holds under the number (R105). -/
theorem exec_readreg {n : Word24} {v v' : Word32} (h : readRegister n s = some v) (hv : v = v') :
    exec (.readreg n) s = .next (answering .ok v' s) := by
  rw [exec, execReadreg, h, hv]
  rfl

theorem exec_readreg_reserved {n : Word24} (h : 0x0B < n.toNat) :
    exec (.readreg n) s = .next (answering .invalidArgument 0 s) := by
  rw [exec, execReadreg, readRegister_reserved h]
  rfl

/-- Settles O26: the register map, number by number. -/
theorem readregAnswersTheRegisterMap : Obligations.ReadregAnswersTheRegisterMap := by
  intro s n
  exact ⟨decodeOfEncodeIsTheCommand (.readreg n), exec_readreg_reserved, exec_readreg rfl (stateCode_setWidth s),
    exec_readreg rfl rfl, exec_readreg rfl (orderCode_setWidth s.order), exec_readreg rfl rfl,
    exec_readreg rfl (ofBool_setWidth _), exec_readreg rfl (ofBool_setWidth _), exec_readreg rfl rfl, exec_readreg rfl rfl,
    exec_readreg rfl (chanCode_setWidth s.chan), exec_readreg rfl rfl, exec_readreg rfl rfl, exec_readreg rfl rfl⟩

/-! ### SETRAW and READPIX -/

/-- Settles O24: past its checks SETRAW writes the pixel, and a read of any byte afterwards is the law of the pixel write. -/
theorem setrawWritesThePixelsThreeBytes : Obligations.SetrawWritesThePixelsThreeBytes := by
  intro s i raw
  refine ⟨decodeOfEncodeIsTheCommand (.setraw i raw), fun h => pixelCheck_refused h,
    fun hl hi hg hn => (pixelCheck_passed hl hi).trans (guard_refused hg hn), fun hp hi hguard hwf => ?_⟩
  have ⟨hl, _⟩ := hp
  refine ⟨setPixel s.buf i.toNat (unpackRaw24 raw), ?_, ?_, ?_, ?_, fun a ha => ?_⟩
  · exact (pixelCheck_passed hl hi).trans ((guard_passed hguard).trans (withBuffer_pixel hp hi))
  · simp [memByte_setPixel hwf, unpackRaw24]
  · simp [memByte_setPixel hwf, unpackRaw24]
  · simp [memByte_setPixel hwf, unpackRaw24]
  · rw [memByte_setPixel hwf, if_neg (by omega), if_neg (by omega), if_neg (by omega)]

theorem packRaw24_setWidth (p : WirePixel) : (packRaw24 p).setWidth 32 = 0#8 ++ p.b0 ++ p.b1 ++ p.b2 := by
  rw [packRaw24, BitVec.setWidth_eq_append (by decide), BitVec.append_assoc, BitVec.append_assoc, BitVec.append_assoc]
  rfl

/-- Settles O25: past its checks, of which none is the guard, READPIX answers the pixel packed as RAW24. -/
theorem readpixAnswersThePixelsThreeBytes : Obligations.ReadpixAnswersThePixelsThreeBytes := by
  intro s i
  refine ⟨decodeOfEncodeIsTheCommand (.readpix i), fun h => pixelCheck_refused h, fun hp hi => ?_⟩
  have ⟨hl, _⟩ := hp
  rw [exec, execReadpix, pixelCheck_passed hl hi, withBuffer_pixel hp hi, packRaw24_setWidth]
  rfl

/-! ### A completion event between two commands -/

/-- Settles O43: with all its symbols handed over the head record is closed, so the event removes it. -/
theorem completionEventEndsTheOldestTransmission : Obligations.CompletionEventEndsTheOldestTransmission := by
  intro s rest hi hin
  rw [step_idle_event hi hin]
  refine ⟨fun hq => ?_, fun x q hq hchan hk => ?_⟩
  · simp only [serveEvent, serveDone, hq]
  · have hclosed : txOpen x = false := txOpen_eq_false.mpr hk.ge
    simp [serveEvent, serveDone, hq, hchan, hclosed, endStream]

end Sys2Proof.Proofs
end

