-- ==== Sys2Proof/Proofs/StripLifetime.lean ====
section
/-! INIT and FREE, answer by answer of the channel (R98, R99), with what is said once for every command that waits for it: its last
event, and the channel's two inputs that are served meanwhile. -/

namespace Sys2Proof.Proofs
open Sys2Proof.Machine Sys2Proof.Laws

variable {s t u : State} {e : Event} {es : List Event} {rest : List Input}

/-! ### The last event of a command -/

/-- The event that ends the command ends the run, whatever is still to come. -/
theorem runEngine_ends {n : Nat} (hb : s.engine ≠ .idle) (hin : s.inbox = .event e :: rest)
    (hs : serveEvent e { s with inbox := rest } = .next t) (ht : t.engine = .idle) : runEngine (n + 1) s = .next t :=
  (runEngine_event hb hin hs).trans (runEngine_idle ht n)

theorem runCommand_ends (hb : s.engine ≠ .idle) (hin : s.inbox = .event e :: rest)
    (hs : serveEvent e { s with inbox := rest } = .next t) (ht : t.engine = .idle) : runCommand s = .next t :=
  (runCommand_event hb hin hs).trans (runEngine_idle ht _)

/-! ### The channel's inputs within a command -/

/-- The channel's two inputs leave the command's position, the parameters and what is still to come. -/
theorem serveAll_channelInputs_frame (hes : es.all channelInput = true) (h : serveAll es s = .next u) :
    u.engine = s.engine ∧ u.cfg = s.cfg ∧ u.inbox = s.inbox := by
  induction es generalizing s with
  | nil =>
    cases h
    exact ⟨rfl, rfl, rfl⟩
  | cons e es ih =>
    obtain ⟨he, hes⟩ : channelInput e = true ∧ es.all channelInput = true := by simpa using hes
    obtain ⟨t, hserve, hall⟩ := serveAll_cons h
    obtain ⟨hengine, hcfg, hinbox⟩ := ih hes hall
    exact ⟨hengine.trans (serveEvent_channelInput_engine he hserve), hcfg.trans (serveEvent_cfg hserve),
      hinbox.trans (serveEvent_inbox hserve)⟩

theorem serveAll_channelInputs_inbox (r : List Input) (hes : es.all channelInput = true) (h : serveAll es s = .next u) :
    serveAll es { s with inbox := r } = .next { u with inbox := r } := by
  induction es generalizing s with
  | nil =>
    cases h
    rfl
  | cons e es ih =>
    obtain ⟨he, hes⟩ : channelInput e = true ∧ es.all channelInput = true := by simpa using hes
    obtain ⟨t, hserve, hall⟩ := serveAll_cons h
    exact (serveAll_of_next es (serveEvent_channelInput_inbox r he hserve)).trans (ih hes hall)

/-! ### INIT (R98) -/

theorem exec_init_invalid {l : Word24} (o p : Byte) (h : s.lc ≠ .uninit ∨ l = 0) :
    exec (.init l o p) s = .next (answering .invalidArgument 0 s) := by
  rw [exec, execInit]
  by_cases hlc : s.lc = .uninit
  · rw [if_neg (not_not.mpr hlc), if_pos (h.resolve_left (not_not.mpr hlc))]
    rfl
  · rw [if_pos hlc]
    rfl

theorem exec_init_tooLong {l : Word24} (o p : Byte) (hlc : s.lc = .uninit) (hl : s.cfg.maxPixels < l.toNat) :
    exec (.init l o p) s = .next (answering .resourceExhausted 0 s) := by
  have hpos : l ≠ 0 := by
    rintro rfl
    exact Nat.not_lt_zero _ hl
  rw [exec, execInit, if_neg (not_not.mpr hlc), if_neg hpos, if_pos hl]
  rfl

/-- The channel refuses to be configured: INIT unwinds the allocation. -/
theorem runCommand_initConfigure_error {l : Word24} {o p : Byte} (he : s.engine = .initConfigure l o p)
    (hin : s.inbox = asInputs [.answer .error] ++ rest) :
    runCommand s = .next (answering .resourceExhausted 0 { s with
      bufAlloc := false, chanTrace := .answer .error :: s.chanTrace, inbox := rest }) := by
  refine runCommand_ends (by simp [he]) hin ?_ rfl
  simp only [serveEvent, serveAnswer, he]
  rfl

/-- The channel is configured and enabled: the strip is live. -/
theorem runCommand_initConfigure_ok {l : Word24} {o p : Byte} (he : s.engine = .initConfigure l o p)
    (hin : s.inbox = asInputs [.answer .ok, .answer .ack] ++ rest) :
    runCommand s = .next (finishInit l o p { s with
      chanTrace := [.answer .ack, .request .enable, .answer .ok] ++ s.chanTrace, inbox := rest }) := by
  have hconfigured : serveEvent (.answer .ok) { s with inbox := asInputs [.answer .ack] ++ rest } =
      .next { s with
        engine := .initEnable l o p, chan := .configured
        chanTrace := [.request .enable, .answer .ok] ++ s.chanTrace
        inbox := asInputs [.answer .ack] ++ rest } := by
    simp only [serveEvent, serveAnswer, he]
    rfl
  exact (runCommand_event (by simp [he]) hin hconfigured).trans (runEngine_ends Engine.noConfusion rfl rfl rfl)

/-- Settles O18: the three checks, and past them the zero-filled buffer and the channel's answers. -/
theorem initChecksConfiguresAndGoesLive : Obligations.InitChecksConfiguresAndGoesLive := by
  intro s l o p rest
  refine ⟨decodeOfEncodeIsTheCommand (.init l o p), exec_init_invalid o p, exec_init_tooLong o p,
    fun hlc hl hmax hwf => ⟨zeroFill (3 * l.toNat) s.buf, memByte_zeroFill hwf _, fun hin => ?_, fun hin => ?_⟩⟩
  · exact (exec_init_of_checks o p hlc hl hmax).trans (runCommand_initConfigure_error rfl hin)
  · exact (exec_init_of_checks o p hlc hl hmax).trans (runCommand_initConfigure_ok rfl hin)

/-! ### FREE (R99) -/

/-- The channel is disabled and released: the strip is freed. -/
theorem runEngine_freeDisable {n : Nat} (he : s.engine = .freeDisable)
    (hin : s.inbox = asInputs [.answer .ack, .answer .ack] ++ rest) :
    runEngine (n + 2) s = .next (finishFree { s with
      chanTrace := [.answer .ack, .request .release, .answer .ack] ++ s.chanTrace, inbox := rest }) := by
  have hdisabled : serveEvent (.answer .ack) { s with inbox := asInputs [.answer .ack] ++ rest } =
      .next { s with
        engine := .freeRelease, chan := .configured
        chanTrace := [.request .release, .answer .ack] ++ s.chanTrace
        inbox := asInputs [.answer .ack] ++ rest } := by
    simp only [serveEvent, serveAnswer, he]
    rfl
  exact (runEngine_event (by simp [he]) hin hdisabled).trans (runEngine_ends Engine.noConfusion rfl rfl rfl)

/-- After the wait FREE goes on, whether the channel reports DONE or ERROR. -/
theorem runEngine_freeWait {a : ChannelAnswer} {n : Nat} (he : s.engine = .freeWait)
    (ha : a = .error ∨ (a = .done ∧ s.txq = [])) (hin : s.inbox = asInputs [.answer a, .answer .ack, .answer .ack] ++ rest) :
    runEngine (n + 3) s = .next (finishFree { s with
      chanTrace := [.answer .ack, .request .release, .answer .ack, .request .disable, .answer a] ++ s.chanTrace
      inbox := rest }) := by
  have hwaited : serveEvent (.answer a) { s with inbox := asInputs [.answer .ack, .answer .ack] ++ rest } =
      .next { s with
        engine := .freeDisable
        chanTrace := [.request .disable, .answer a] ++ s.chanTrace
        inbox := asInputs [.answer .ack, .answer .ack] ++ rest } := by
    simp only [serveEvent, serveAnswer, he]
    obtain rfl | ⟨rfl, hq⟩ := ha
    · rfl
    · exact if_pos hq
  exact (runEngine_event (by simp [he]) hin hwaited).trans (runEngine_freeDisable rfl rfl)

theorem exec_free_idle (hlc : s.lc = .live) (hn : s.inflight = 0) :
    exec .free s = runCommand (sendRequest .disable .freeDisable s) := by
  have hfree : busyFlag s = false := Bool.eq_false_iff.mpr (busyFlag_eq_true.not.mpr (not_not.mpr hn))
  simp only [exec, execFree, hlc, hfree, Bool.false_eq_true, if_false]

theorem exec_free_busy (hlc : s.lc = .live) (hn : s.inflight ≠ 0) :
    exec .free s = runCommand (sendRequest (.waitAllDone none) .freeWait s) := by
  simp only [exec, execFree, hlc, busyFlag_eq_true.mpr hn, if_true]

/-- Settles O19: FREE by lifecycle state and by what is in flight; the events of the wait are served as `serveAll` serves them. -/
theorem freeEndsTheStrip : Obligations.FreeEndsTheStrip := by
  refine ⟨decodeOfEncodeIsTheCommand .free, fun s rest =>
    ⟨fun hlc => ?_, fun hlc => ?_, fun hlc hn hin => ?_, fun events a u hlc hn hes ha hin h => ?_⟩⟩
  · rw [exec, execFree, hlc]
    rfl
  · rw [exec, execFree, hlc]
    rfl
  · rw [exec_free_idle hlc hn, runCommand, sendRequest_inbox, hin]
    refine (runEngine_freeDisable (s := sendRequest _ _ s) (n := rest.length) rfl hin).trans ?_
    simp [finishFree, respond, answering, sendRequest, hn]
  · obtain ⟨hengine, -, hinbox⟩ := serveAll_channelInputs_frame hes h
    obtain rfl : u.inbox = rest := hinbox
    have hin' : s.inbox = asInputs events ++ (asInputs [.answer a, .answer .ack, .answer .ack] ++ u.inbox) := by
      simpa [asInputs] using hin
    have hlen : s.inbox.length = events.length + (u.inbox.length + 3) := by
      simp only [hin', asInputs, List.length_append, List.length_map, List.length_cons, List.length_nil]
      omega
    rw [exec_free_busy hlc hn, runCommand, sendRequest_inbox, hlen,
      runEngine_channelInputs (s := sendRequest _ _ s) hes Engine.noConfusion hin' h]
    exact runEngine_freeWait (s := { u with inbox := _ }) hengine ha rfl

end Sys2Proof.Proofs
end

