-- ==== Sys2Proof/Proofs/RefreshAnswers.lean ====
section
/-! REFRESHA and a blocking refresh, answer by answer of the channel (R94, R100, R101), and what the answer OK of a blocking refresh says
of TXQ (R55 item 1). -/

namespace Sys2Proof.Proofs
open Sys2Proof.Machine Sys2Proof.Laws

variable {s t u : State} {e : Event} {es : List Event} {rest : List Input}

/-! ### Submission (R94) -/

theorem runCommand_submit_full {p : Engine} (h : s.inflight = 65535) :
    runCommand (submit p s) = .next (answering .transmitRejected 0 s) := by
  rw [submit, if_pos h]
  exact runCommand_idle rfl

/-- The channel rejects the submission of either kind of refresh. -/
theorem runCommand_submit_rejected {p : Engine} (hp : p = .asyncTransmit ∨ p = .blockTransmit) (h : s.inflight ≠ 65535)
    (hin : s.inbox = asInputs [.answer .error] ++ rest) :
    runCommand (submit p s) = .next (answering .transmitRejected 0 { s with
      chanTrace := [.answer .error, .request (.transmit 0)] ++ s.chanTrace, inbox := rest }) := by
  rw [submit, if_neg h]
  obtain rfl | rfl := hp <;> exact runCommand_ends (s := sendRequest _ _ s) Engine.noConfusion hin rfl rfl

/-- Settles O22: past its state check REFRESHA submits, and the channel's answer ends it. -/
theorem refreshaSubmitsAndReturns : Obligations.RefreshaSubmitsAndReturns := by
  refine ⟨decodeOfEncodeIsTheCommand .refresha, fun s rest => ⟨fun hl => liveCheck_refused hl, fun hl hn => ?_, fun hl hn =>
    ⟨fun hin => ?_, fun hin => ?_⟩⟩⟩
  · exact (liveCheck_passed hl).trans (runCommand_submit_full hn)
  · exact (liveCheck_passed hl).trans (runCommand_submit_rejected (.inl rfl) hn hin)
  · rw [exec, execRefresha, liveCheck_passed hl, submit, if_neg hn]
    exact runCommand_ends (s := sendRequest _ _ s) Engine.noConfusion hin rfl rfl

/-! ### The wait of a blocking refresh (R100) -/

theorem runEngine_blockWait_timeout {n : Nat} (he : s.engine = .blockWait) (ht : s.cfg.refreshTimeout ≠ none)
    (hin : s.inbox = asInputs [.answer .timeout] ++ rest) :
    runEngine (n + 1) s = .next (answering .timeout 0 { s with
      chanTrace := .answer .timeout :: s.chanTrace, inbox := rest }) := by
  obtain ⟨ticks, hticks⟩ := Option.ne_none_iff_exists'.mp ht
  refine runEngine_ends (by simp [he]) hin ?_ rfl
  simp only [serveEvent, serveAnswer, he, onBlockWait, hticks]
  rfl

theorem runEngine_blockWait_error {n : Nat} (he : s.engine = .blockWait) (hin : s.inbox = asInputs [.answer .error] ++ rest) :
    runEngine (n + 1) s = .next (answering .transmitRejected 0 { s with
      chanTrace := .answer .error :: s.chanTrace, inbox := rest }) := by
  refine runEngine_ends (by simp [he]) hin ?_ rfl
  simp only [serveEvent, serveAnswer, he, onBlockWait]
  rfl

/-- DONE starts the latch wait, and with no event behind it the command waits on. -/
theorem runEngine_done_waits {n : Nat} (he : s.engine = .blockWait) (hq : s.txq = []) (hrest : ∀ e, .event e ∉ rest)
    (hin : s.inbox = asInputs [.answer .done] ++ rest) :
    runEngine (n + 1) s = .next { s with
      engine := .blockLatch, latchTimer := some s.cfg.trst, chanTrace := .answer .done :: s.chanTrace, inbox := rest } := by
  obtain ⟨hdone, -⟩ := latchWaitLastsAtLeastItsTicks
  exact (runEngine_event (by simp [he]) hin (hdone { s with inbox := rest } he hq)).trans
    (runEngine_waits (takeEvent_eq_none hrest) n)

/-- Fewer ticks than TRST after DONE do not end the latch wait. -/
theorem runEngine_done_shortTicks {n ticks : Nat} (he : s.engine = .blockWait) (hq : s.txq = []) (hshort : ticks < s.cfg.trst)
    (hrest : ∀ e, .event e ∉ rest) (hin : s.inbox = asInputs [.answer .done, .ticks ticks] ++ rest) :
    runEngine (n + 2) s = .next { s with
      engine := .blockLatch, latchTimer := some (s.cfg.trst - ticks), chanTrace := .answer .done :: s.chanTrace
      inbox := rest } := by
  obtain ⟨hdone, hticks⟩ := latchWaitLastsAtLeastItsTicks
  obtain ⟨-, hwait⟩ := hticks { s with
    engine := .blockLatch, latchTimer := some s.cfg.trst, chanTrace := .answer .done :: s.chanTrace, inbox := rest } ticks
  obtain ⟨hcount, -⟩ := hwait s.cfg.trst rfl
  rw [runEngine_event (by simp [he]) hin (hdone { s with inbox := asInputs [.ticks ticks] ++ rest } he hq),
    runEngine_event Engine.noConfusion rfl (hcount hshort)]
  exact runEngine_waits (takeEvent_eq_none hrest) n

/-! ### REFRESH -/

/-- REFRESH of a live strip, once the channel has accepted its transmission and its inputs that come next have been served. -/
theorem exec_refresh_accepted {after : List Event} (hl : s.lc = .live) (hn : s.inflight ≠ 65535)
    (hes : es.all channelInput = true) (hin : s.inbox = asInputs ([.answer .ok] ++ es ++ after) ++ rest)
    (h : serveAll es { refreshAccepted s with inbox := rest } = .next u) :
    exec .refresh s = runEngine (after.length + rest.length) { u with inbox := asInputs after ++ rest } := by
  have hin' : s.inbox = .event (.answer .ok) :: (asInputs es ++ (asInputs after ++ rest)) := by simpa [asInputs] using hin
  have hrun := blockingRefresh_accepted hn hes hin' (serveAll_channelInputs_inbox s.inbox hes h)
  rw [List.length_append, asInputs, List.length_map] at hrun
  exact (liveCheck_passed hl).trans hrun

/-! ### OK is answered with nothing in flight (R55 item 1, R93 item 6) -/

/-- Of a blocking refresh that began after the responses `rs`: it goes on and has answered nothing, or it has ended, and with OK only
when TXQ is empty. -/
inductive BlockRun (rs : List Response) (u : State) : Prop
  | waits : commandOf u.engine = some .refresh → u.responses = rs → BlockRun rs u
  | ended : u.engine = .idle → (u.responses = ⟨.ok, 0⟩ :: rs → u.txq = []) → BlockRun rs u

variable {rs : List Response}

/-- No answer of the channel makes a blocking refresh answer OK. -/
theorem serveAnswer_blockRun {a : ChannelAnswer} (hc : commandOf s.engine = some .refresh) (hr : s.responses = rs)
    (h : serveAnswer a s = .next t) : BlockRun rs t := by
  obtain ⟨l, o, p, he, -⟩ | ⟨l, o, p, he, -⟩ | ⟨he, -⟩ | ⟨he, -⟩ | ⟨he, -⟩ | ⟨he, -⟩ | ⟨-, ⟨-, rfl⟩ | ⟨-, rfl⟩⟩ |
    ⟨-, ⟨-, -, rfl⟩ | ⟨-, -, rfl⟩ | ⟨-, rfl⟩⟩ := serveAnswer_next h
  -- accepted, and the channel is done
  case inr.inr.inr.inr.inr.inr.inl.inl | inr.inr.inr.inr.inr.inr.inr.inl => exact .waits rfl hr
  -- rejected, and the wait ended by TIMEOUT or ERROR
  case inr.inr.inr.inr.inr.inr.inl.inr | inr.inr.inr.inr.inr.inr.inr.inr.inl | inr.inr.inr.inr.inr.inr.inr.inr.inr =>
    exact .ended rfl (by simp)
  all_goals simp [he, commandOf] at hc

/-- The ticks that end the latch wait find TXQ empty. -/
theorem serveTicks_blockRun {n : Nat} (hinv : EngineInv s) (hc : commandOf s.engine = some .refresh) (hr : s.responses = rs)
    (h : serveTicks n s = .next t) : BlockRun rs t := by
  obtain ⟨-, rfl⟩ | ⟨r, -, -, rfl⟩ | ⟨r, ht, -, rfl⟩ := serveTicks_next h
  · exact .waits hc hr
  · exact .waits hc hr
  · obtain ⟨-, -, -, hq, -⟩ := engineInv_latch hinv ht
    exact .ended rfl fun _ => hq

theorem serveEvent_blockRun (hinv : EngineInv s) (hc : commandOf s.engine = some .refresh) (hr : s.responses = rs)
    (h : serveEvent e s = .next t) : BlockRun rs t := by
  cases e with
  | answer a => exact serveAnswer_blockRun hc hr h
  | ticks n => exact serveTicks_blockRun hinv hc hr h
  | reset contents =>
    cases h
    exact .ended rfl fun _ => rfl
  | chDone =>
    obtain ⟨x, rest, -, -, -, rfl⟩ := serveDone_next h
    exact .waits hc hr
  | symPull =>
    obtain ⟨x, -, -, -, -, rfl⟩ := servePull_next h
    exact .waits hc hr
  | genRead n j =>
    obtain ⟨x, -, -, -, -, rfl⟩ := serveGenRead_next h
    exact .waits hc hr
  | groupWrite w =>
    obtain ⟨g, rfl, -⟩ := serveGroupWrite_next h
    exact .waits hc hr

theorem runCommand_blockRun (hinv : s.Inv) (hc : commandOf s.engine = some .refresh) (h : runCommand s = .next t) :
    BlockRun s.responses t := by
  have keeps : t.Inv ∧ BlockRun s.responses t := by
    refine runEngine_keeps (P := fun u => u.Inv ∧ BlockRun s.responses u) ?_ _ s t ⟨hinv, .waits hc rfl⟩ h
    intro e rest u v ⟨hu, hrun⟩ hbusy _ hserve
    have hu' := inv_inbox (inbox := rest) hu
    obtain ⟨-, -, hengine, -⟩ := inv_iff.mp hu'
    cases hrun with
    | ended hi => exact absurd hi hbusy
    | waits hc hr => exact ⟨serveEvent_inv hu' hserve, serveEvent_blockRun hengine hc hr hserve⟩
  exact keeps.2

/-- A blocking refresh that answers OK leaves nothing in flight. -/
theorem runCommand_ok_nothingInFlight (hinv : s.Inv) (hc : commandOf s.engine = some .refresh) (h : runCommand s = .next t)
    (hok : t.responses = ⟨.ok, 0⟩ :: s.responses) : t.txq = [] ∧ t.inflight = 0 := by
  cases runCommand_blockRun hinv hc h with
  | waits _ hr => simp [hr] at hok
  | ended _ hq =>
    obtain ⟨-, -, -, hn, -⟩ := inv_iff.mp (runCommand_inv hinv h)
    exact ⟨hq hok, BitVec.eq_of_toNat_eq (by simp [hn, hq hok])⟩

/-- The request of a submission keeps the invariant (R94). -/
theorem transmitRequested_inv (hinv : s.Inv) (hi : s.engine = .idle) (hl : s.lc = .live) (hn : s.inflight ≠ 65535) :
    (sendRequest (.transmit Config.loopCount) .blockTransmit s).Inv := by
  obtain ⟨hc, hb, -, hq⟩ := inv_iff.mp hinv
  obtain ⟨ht, hstrip, hchan⟩ := strip_of_inv hinv hi hl
  have room : s.txq.length < 65535 := by
    have := hq.1
    bv_omega
  exact inv_iff.mpr ⟨hc, hb, ⟨ht, hstrip, hchan, room⟩, hq⟩

theorem blockingRefresh_ok_nothingInFlight (hinv : s.Inv) (hi : s.engine = .idle) (hl : s.lc = .live)
    (h : blockingRefresh s = .next t) (hok : t.responses = ⟨.ok, 0⟩ :: s.responses) : t.txq = [] ∧ t.inflight = 0 := by
  obtain rfl | ⟨hn, hrun⟩ := runCommand_submit h
  · simp at hok
  · exact runCommand_ok_nothingInFlight (transmitRequested_inv hinv hi hl hn) rfl hrun hok

theorem fillColor_ok_nothingInFlight {c : Color} (hinv : s.Inv) (hi : s.engine = .idle) (h : fillColor c s = .next t)
    (hok : t.responses = ⟨.ok, 0⟩ :: s.responses) : t.txq = [] ∧ t.inflight = 0 := by
  obtain rfl | ⟨hl, h⟩ := check_next h
  · simp at hok
  obtain rfl | ⟨-, h⟩ := check_next h
  · simp at hok
  obtain ⟨-, hmax, h⟩ := withBuffer_next h
  obtain ⟨-, ⟨hwf, hbelow⟩, -⟩ := inv_iff.mp hinv
  have hfilled : (storeAll c s).Inv := write_inv hinv (fillPixels_wf hwf _ _) (fillPixels_below hbelow _ _ hmax)
  exact blockingRefresh_ok_nothingInFlight hfilled hi (not_not.mp hl) h hok

theorem exec_ok_nothingInFlight {i : Instr} (hinv : s.Inv) (hi : s.engine = .idle) (h : exec i s = .next t)
    (hop : i.opcode ∈ [Opcode.refresh, .fill, .fillw, .clear]) (hok : t.responses = ⟨.ok, 0⟩ :: s.responses) :
    t.txq = [] ∧ t.inflight = 0 := by
  cases i with
  | refresh =>
    obtain rfl | ⟨hl, h⟩ := check_next h
    · simp at hok
    · exact blockingRefresh_ok_nothingInFlight hinv hi (not_not.mp hl) h hok
  | fill c => exact fillColor_ok_nothingInFlight hinv hi h hok
  | fillw c => exact fillColor_ok_nothingInFlight hinv hi h hok
  | clear => exact fillColor_ok_nothingInFlight hinv hi h hok
  | _ => simp [Instr.opcode] at hop

theorem step_ok_nothingInFlight (hinv : s.Inv) (he : s.engine ∈ [Engine.blockTransmit, .blockWait, .blockLatch])
    (h : step s = .next t) (hok : t.responses = ⟨.ok, 0⟩ :: s.responses) : t.txq = [] ∧ t.inflight = 0 := by
  have hc : commandOf s.engine = some .refresh := by
    simp only [List.mem_cons, List.not_mem_nil, or_false] at he
    obtain he | he | he := he <;> rw [he] <;> rfl
  have hbusy : s.engine ≠ .idle := fun hi => by simp [hi, commandOf] at hc
  rw [step_busy hbusy] at h
  exact runCommand_ok_nothingInFlight hinv hc h hok

/-- Settles O20: the refused submissions; the wait, whose engine position, parameters and inbox the channel's inputs leave; and the
empty TXQ that each OK finds. -/
theorem refreshWaitsForTheChannel : Obligations.RefreshWaitsForTheChannel := by
  refine ⟨decodeOfEncodeIsTheCommand .refresh, fun s rest => ⟨fun hl => liveCheck_refused hl, fun hl hn => ?_, fun hl hn =>
    ⟨fun hin => ?_, fun events after u hes hin h => ?_⟩⟩, fun s t i hinv hport h hop hok => ?_,
    fun s t hinv he h hok => step_ok_nothingInFlight hinv he h hok⟩
  · exact (liveCheck_passed hl).trans (runCommand_submit_full hn)
  · exact (liveCheck_passed hl).trans (runCommand_submit_rejected (.inr rfl) hn hin)
  · obtain ⟨hengine, hcfg, hinbox⟩ := serveAll_channelInputs_frame hes h
    obtain rfl : u.inbox = rest := hinbox
    have hcfg : u.cfg = s.cfg := hcfg
    rw [exec_refresh_accepted hl hn hes hin h, Nat.add_comm, ← hcfg]
    refine ⟨?_, ?_, ?_, ?_, ?_⟩
    · rintro rfl ht
      exact runEngine_blockWait_timeout (s := { u with inbox := _ }) hengine ht rfl
    · rintro rfl
      exact runEngine_blockWait_error (s := { u with inbox := _ }) hengine rfl
    · rintro hrest rfl hq
      exact runEngine_done_waits (s := { u with inbox := _ }) hengine hq hrest rfl
    · rintro n hrest rfl hq hshort
      exact runEngine_done_shortTicks (s := { u with inbox := _ }) hengine hq hshort hrest rfl
    · rintro wait rfl hq hwait
      exact runEngine_done_ticks (s := { u with inbox := _ }) hengine hq hwait rfl
  · exact exec_ok_nothingInFlight hinv (portBusy_eq_false.mp hport) h hop hok

end Sys2Proof.Proofs
end

