-- ==== Sys2Proof/Proofs/ColourFunctions.lean ====
section
/-! The pure colour functions (R108, R109, R115 to R119, R132). -/

namespace Sys2Proof.Proofs
open Sys2Proof.Machine Sys2Proof.Laws

/-! ### RGBW composition (R108, R109) -/

theorem minByte_toNat (a b : Byte) : (minByte a b).toNat = min a.toNat b.toNat := by
  unfold minByte
  split <;> omega

theorem satAdd_toNat (a b : Byte) : (satAdd a b).toNat = min 255 (a.toNat + b.toNat) := by
  rw [satAdd, BitVec.toNat_ofNat, Nat.mod_eq_of_lt (by omega)]

/-- A lane from which no more than itself is taken does not underflow. -/
theorem sub_toNat_add {a w : Byte} (h : w.toNat ≤ a.toNat) : (a - w).toNat + w.toNat = a.toNat := by
  bv_omega

theorem rgbToRgbw_w_toNat (c : Color) : (rgbToRgbw c).w.toNat = min c.r.toNat (min c.g.toNat c.b.toNat) := by
  simp only [rgbToRgbw, minByte_toNat]

/-- Settles O54: no lane is below the minimum, and the lane that is the minimum is reduced to 0. -/
theorem rgbToRgbwExtractsTheMinimum : Obligations.RgbToRgbwExtractsTheMinimum := by
  intro c
  have hw := rgbToRgbw_w_toNat c
  have hr : (rgbToRgbw c).r.toNat + (rgbToRgbw c).w.toNat = c.r.toNat :=
    sub_toNat_add (w := (rgbToRgbw c).w) (by omega)
  have hg : (rgbToRgbw c).g.toNat + (rgbToRgbw c).w.toNat = c.g.toNat :=
    sub_toNat_add (w := (rgbToRgbw c).w) (by omega)
  have hb : (rgbToRgbw c).b.toNat + (rgbToRgbw c).w.toNat = c.b.toNat :=
    sub_toNat_add (w := (rgbToRgbw c).w) (by omega)
  refine ⟨hw, hr, hg, hb, ?_⟩
  bv_omega

/-- Settles O55: each channel is a saturating sum. -/
theorem rgbwToRgbSaturatesEachSum : Obligations.RgbwToRgbSaturatesEachSum :=
  fun c => ⟨satAdd_toNat c.r c.w, satAdd_toNat c.g c.w, satAdd_toNat c.b c.w⟩

/-! ### The brightness step (R115, R116) -/

theorem brightStep_full (c : Byte) : brightStep 255 c = c := if_pos rfl

/-- The bypass at 255 changes no value of the exact division (R116). -/
theorem brightStep_toNat (bri c : Byte) : (brightStep bri c).toNat = c.toNat * bri.toNat / 255 := by
  by_cases h : bri = 255
  · rw [h, brightStep_full]
    exact (Nat.mul_div_cancel c.toNat (by decide : 0 < 255)).symm
  · have hle : c.toNat * bri.toNat ≤ 255 * 255 := Nat.mul_le_mul (by omega) (by omega)
    rw [brightStep, if_neg h, BitVec.toNat_ofNat, Nat.mod_eq_of_lt (by omega)]

theorem brightStep_dark (c : Byte) : brightStep 0 c = 0 :=
  BitVec.eq_of_toNat_eq (by rw [brightStep_toNat]; simp)

theorem brightStep_zero (bri : Byte) : brightStep bri 0 = 0 :=
  BitVec.eq_of_toNat_eq (by rw [brightStep_toNat]; simp)

theorem brightStep_le (bri c : Byte) : (brightStep bri c).toNat ≤ c.toNat := by
  rw [brightStep_toNat]
  exact Nat.div_le_of_le_mul (by rw [Nat.mul_comm]; exact Nat.mul_le_mul_right _ (by omega))

/-- Settles O57: the floor division; the bypass at 255 and the product with 0 agree with it. -/
theorem brightnessStepIsExactFloorDivision : Obligations.BrightnessStepIsExactFloorDivision := by
  intro bri c
  refine ⟨brightStep_toNat bri c, brightStep_le bri c, brightStep_full c, brightStep_dark c, fun hbri => ?_⟩
  have hbound : bri.toNat ≤ 254 := by bv_omega
  exact Nat.mul_le_mul (by omega : c.toNat ≤ 255) hbound

/-! ### The pipeline (R117 to R119) -/

theorem laneStep_full (e built : Bool) (c : Byte) : laneStep ⟨255, e, built⟩ c = gammaStep e c := brightStep_full _

theorem laneStep_dark (e built : Bool) (c : Byte) : laneStep ⟨0, e, built⟩ c = 0 := brightStep_dark _

theorem gammaStep_zero (e : Bool) : gammaStep e 0 = 0 := by cases e <;> rfl

theorem laneStep_zero (g : ConfigGroup) : laneStep g 0 = 0 := by rw [laneStep, gammaStep_zero, brightStep_zero]

theorem permute_zero (o : ChannelOrder) : permute o ⟨0, 0, 0⟩ = ⟨0, 0, 0⟩ := by cases o <;> rfl

/-- At full brightness only gamma and the order are left of the pipeline (R116). -/
theorem pipeline_full (e built : Bool) (o : ChannelOrder) (c : Color) :
    pipeline ⟨255, e, built⟩ o c = permute o ⟨gammaStep e c.r, gammaStep e c.g, gammaStep e c.b⟩ := by
  simp only [pipeline, laneStep_full]

theorem pipeline_dark (e built : Bool) (o : ChannelOrder) (c : Color) : pipeline ⟨0, e, built⟩ o c = ⟨0, 0, 0⟩ := by
  simp only [pipeline, laneStep_dark, permute_zero]

/-- The zero colour stays zero (R126). -/
theorem pipeline_zero (g : ConfigGroup) (o : ChannelOrder) : pipeline g o ⟨0, 0, 0⟩ = ⟨0, 0, 0⟩ := by
  simp only [pipeline, laneStep_zero, permute_zero]

/-- Settles O58: the lane function is `laneStep`. -/
theorem pipelineIsGammaThenBrightnessThenOrder : Obligations.PipelineIsGammaThenBrightnessThenOrder := by
  refine ⟨fun g c => ⟨laneStep g, fun v => ?_, rfl, rfl, rfl⟩, by decide, by decide⟩
  exact apply_ite (brightStep g.brightness) (g.gammaEn = true) (gammaLut v) v

/-! ### The source's laws (R132) -/

/-- What the split takes out, the merge puts back without saturation. -/
theorem rgbwToRgb_rgbToRgbw (c : Color) : rgbwToRgb (rgbToRgbw c) = c := by
  obtain ⟨-, hr, hg, hb, -⟩ := rgbToRgbwExtractsTheMinimum c
  obtain ⟨hr', hg', hb'⟩ := rgbwToRgbSaturatesEachSum (rgbToRgbw c)
  rw [Color.mk.injEq, ← BitVec.toNat_inj, ← BitVec.toNat_inj, ← BitVec.toNat_inj]
  omega

/-- What the split gives has a zero channel and no sum above 255, so a color without these is not what it gives. -/
theorem rgbToRgbw_ne {c : Color} {d : ColorW} (h : 255 < d.r.toNat + d.w.toNat ∨ 255 < d.g.toNat + d.w.toNat ∨
    255 < d.b.toNat + d.w.toNat ∨ (0 < d.w.toNat ∧ d.r ≠ 0 ∧ d.g ≠ 0 ∧ d.b ≠ 0)) : rgbToRgbw c ≠ d := by
  rintro rfl
  obtain ⟨-, hr, hg, hb, hzero⟩ := rgbToRgbwExtractsTheMinimum c
  obtain h | h | h | ⟨-, hr', hg', hb'⟩ := h
  · omega
  · omega
  · omega
  · exact hzero.elim hr' (·.elim hg' hb')

/-- Settles O59: the merge undoes the split; the split's results are not every ColorW; and the pipeline at full and at no
brightness. -/
theorem colourLawsOfTheSourceHold : Obligations.ColourLawsOfTheSourceHold := by
  refine ⟨fun c => ⟨rgbwToRgb_rgbToRgbw c, congrArg rgbToRgbw (rgbwToRgb_rgbToRgbw c)⟩, fun d h => rgbToRgbw_ne h,
    pipeline_full, pipeline_dark, fun built => ?_, fun built => ?_⟩
  · rw [pipeline_full]
    rfl
  · rw [pipeline_full]
    decide

end Sys2Proof.Proofs
end

