-- ==== Sys2Proof/Proofs/GammaTable.lean ====
section
/-! The gamma table against its formula (R111, R112). The exponent 2.2 is 11/5, so the power is compared with a half by their
fifth powers, in whole numbers. -/

namespace Sys2Proof.Proofs
open Sys2Proof.Machine Sys2Proof.Laws

/-- The real number that entry `c` of the table rounds (R111). -/
noncomputable def gammaPower (c : Byte) : ℝ := 255 * ((c.toNat : ℝ) / 255) ^ (2.2 : ℝ)

variable {c d : Byte} {n : ℕ}

theorem gammaPower_nonneg (c : Byte) : 0 ≤ gammaPower c := by
  unfold gammaPower
  positivity

theorem gammaPower_mono (h : c.toNat ≤ d.toNat) : gammaPower c ≤ gammaPower d := by
  unfold gammaPower
  gcongr

theorem gammaPower_pow_five (c : Byte) : gammaPower c ^ 5 * 255 ^ 6 = (c.toNat : ℝ) ^ 11 := by
  have hroot : (((c.toNat : ℝ) / 255) ^ (2.2 : ℝ)) ^ 5 = ((c.toNat : ℝ) / 255) ^ 11 := by
    rw [← Real.rpow_mul_natCast (by positivity), ← Real.rpow_natCast]
    norm_num
  rw [gammaPower, mul_pow, hroot, div_pow]
  ring

/-- Whether `n` is the power of `v` rounded: the power is between `n - 1/2` and `n + 1/2`, both compared by their fifth powers. -/
abbrev RoundsPower (v n : ℤ) : Prop := (2 * n - 1) ^ 5 * 255 ^ 6 < 32 * v ^ 11 ∧ 32 * v ^ 11 < (2 * n + 1) ^ 5 * 255 ^ 6

theorem gammaPower_near_of_roundsPower (h : RoundsPower c.toNat n) : n - 1 / 2 < gammaPower c ∧ gammaPower c < n + 1 / 2 := by
  obtain ⟨habove, hbelow⟩ := And.imp (Int.cast_lt (R := ℝ)).mpr (Int.cast_lt (R := ℝ)).mpr h
  push_cast [← gammaPower_pow_five] at habove hbelow
  constructor
  · refine lt_of_pow_lt_pow_left₀ 5 (gammaPower_nonneg c) ?_
    linear_combination habove / (32 * 255 ^ 6)
  · refine lt_of_pow_lt_pow_left₀ 5 (by positivity) ?_
    linear_combination hbelow / (32 * 255 ^ 6)

/-- The 256 entries of R112, each compared. -/
theorem gammaLut_roundsPower : ∀ c : Byte, RoundsPower c.toNat (gammaLut c).toNat := by decide

/-- Every entry is nearer to its power than a half. -/
theorem gammaPower_near (c : Byte) :
    ((gammaLut c).toNat : ℝ) - 1 / 2 < gammaPower c ∧ gammaPower c < (gammaLut c).toNat + 1 / 2 :=
  gammaPower_near_of_roundsPower (gammaLut_roundsPower c)

theorem floor_gammaPower (c : Byte) : ⌊gammaPower c + 1 / 2⌋ = ((gammaLut c).toNat : ℤ) := by
  obtain ⟨habove, hbelow⟩ := gammaPower_near c
  rw [Int.floor_eq_iff, Int.cast_natCast]
  constructor <;> linarith

/-- Between the halves on both sides of an integer there is no other half. -/
theorem gammaPower_ne_half (c : Byte) (n : ℤ) : gammaPower c ≠ n + 1 / 2 := by
  intro h
  obtain ⟨habove, hbelow⟩ := gammaPower_near c
  rw [h] at habove hbelow
  have hlt : n < (gammaLut c).toNat := by exact_mod_cast (by linarith : (n : ℝ) < (gammaLut c).toNat)
  have hgt : ((gammaLut c).toNat : ℤ) < n + 1 := by exact_mod_cast (by linarith : ((gammaLut c).toNat : ℝ) < n + 1)
  omega

theorem gammaLut_mono (h : c.toNat ≤ d.toNat) : (gammaLut c).toNat ≤ (gammaLut d).toNat := by
  have hfloor := Int.floor_mono (add_le_add_left (gammaPower_mono h) (1 / 2))
  rw [floor_gammaPower, floor_gammaPower] at hfloor
  exact_mod_cast hfloor

/-- Settles O56: the table is the floor, and the floor of a growing function does not decrease. -/
theorem gammaTableIsTheRoundedPower : Obligations.GammaTableIsTheRoundedPower :=
  ⟨fun c => (floor_gammaPower c).symm, gammaPower_ne_half, by decide, by decide, fun _ _ => gammaLut_mono⟩

end Sys2Proof.Proofs
end

