-- ==== Sys2Proof/Proofs/ColourCommands.lean ====
section
/-! The commands of the colour pipeline (R122 to R131). -/

namespace Sys2Proof.Proofs
open Sys2Proof.Machine Sys2Proof.Laws

variable {s v : State} {index : Word24} {c : Color} {n : ℕ}

/-! ### The commands that touch no pixel (R127 to R131) -/

/-- Settles O33: each of the two commands is one write of the group. -/
theorem setbrtAndSetgammaWriteOneRegister : Obligations.SetbrtAndSetgammaWriteOneRegister :=
  ⟨fun bri => decodeOfEncodeIsTheCommand (.setbrt bri), fun en => decodeOfEncodeIsTheCommand (.setgamma en),
    fun _ _ => rfl, fun _ _ => rfl⟩

theorem packRgb24_setWidth (c : Color) : (packRgb24 c).setWidth 32 = 0#8 ++ c.r ++ c.g ++ c.b :=
  packRaw24_setWidth ⟨c.r, c.g, c.b⟩

theorem byte_setWidth (b : Byte) : b.setWidth 32 = 0#24 ++ b := BitVec.setWidth_eq_append (by decide)

/-- Settles O34: the answers are the packings of R45, zero-extended. -/
theorem conversionsAnswerOkAndChangeNothing : Obligations.ConversionsAnswerOkAndChangeNothing := by
  refine ⟨fun c => decodeOfEncodeIsTheCommand (.cvtw c), fun c => decodeOfEncodeIsTheCommand (.cvtrgb c),
    fun c => decodeOfEncodeIsTheCommand (.lutrd c), fun s c => rfl, fun s c => ?_, fun s c => ?_⟩
  · rw [← packRgb24_setWidth]
    rfl
  · rw [← byte_setWidth]
    rfl

/-! ### One pixel (R122, R123) -/

/-- Of the block SETPIX's store changes the buffer and GAMMA_BUILT. -/
theorem storePixel_eq (index : Word24) (c : Color) (s : State) : storePixel index c s = { s with
    buf := (storePixel index c s).buf, group := { s.group with gammaBuilt := s.group.gammaBuilt || s.group.gammaEn } } := by
  rw [← groupAfterUse_eq]
  rfl

/-- Past its checks SETPIX stores the pixel. -/
theorem exec_setpix_of_checks (hp : Playable s) (hi : index.toNat < s.length.toNat)
    (hguard : s.cfg.inflightGuard = false ∨ s.inflight = 0) :
    exec (.setpix index c) s = .next (respond .ok 0 (storePixel index c s)) := by
  have ⟨hl, _⟩ := hp
  exact (pixelCheck_passed hl hi).trans ((guard_passed hguard).trans (withBuffer_pixel hp hi))

/-- Settles O27: the checks, and past them a read of any byte after the pixel's write. -/
theorem setpixStoresThePipelinesBytes : Obligations.SetpixStoresThePipelinesBytes := by
  intro s i c
  refine ⟨decodeOfEncodeIsTheCommand (.setpix i c), fun h => pixelCheck_refused h,
    fun hl hi hg hn => (pixelCheck_passed hl hi).trans (guard_refused hg hn), fun hp hi hguard hwf => ?_⟩
  refine ⟨(storePixel i c s).buf, ?_, ?_, ?_, ?_, fun a ha => ?_⟩
  · rw [exec_setpix_of_checks hp hi hguard, ← storePixel_eq]
    rfl
  · simp [memByte_setPixel hwf]
  · simp [memByte_setPixel hwf]
  · simp [memByte_setPixel hwf]
  · rw [storePixel_buf, memByte_setPixel hwf, if_neg (by omega), if_neg (by omega), if_neg (by omega)]

/-- Settles O28: SETPIXW is SETPIX of the merged colour, of which O27 speaks. -/
theorem setpixwStoresTheMergedColour : Obligations.SetpixwStoresTheMergedColour := by
  intro s i c
  obtain ⟨-, -, -, hstores⟩ := setpixStoresThePipelinesBytes s i (rgbwToRgb c)
  exact ⟨decodeOfEncodeIsTheCommand (.setpixw i c), rfl, hstores⟩

/-! ### Every pixel (R124 to R126) -/

/-- Of the block FILL's stores change the buffer and GAMMA_BUILT. -/
theorem storeAll_eq (c : Color) (s : State) : storeAll c s = { s with
    buf := (storeAll c s).buf, group := { s.group with gammaBuilt := s.group.gammaBuilt || s.group.gammaEn } } := by
  rw [← groupAfterUse_eq]
  rfl

theorem pixelAt_storeAll (hwf : Memory.wf s.buf = true) (hn : n < s.length.toNat) :
    pixelAt (storeAll c s).buf n = pipeline s.group s.order c := by
  rw [storeAll_buf, pixelAt_fillPixels hwf, if_pos hn]

/-- Past its checks FILL stores every pixel and refreshes. -/
theorem exec_fill_of_checks (hp : Playable s) (hguard : s.cfg.inflightGuard = false ∨ s.inflight = 0) :
    exec (.fill c) s = blockingRefresh (storeAll c s) := by
  obtain ⟨hl, -, halloc, hmax⟩ := hp
  exact (liveCheck_passed hl).trans ((guard_passed hguard).trans (withBuffer_eq halloc (by omega)))

/-- Settles O29: the checks, and past them the refresh, which REFRESH of the filled strip is too. -/
theorem fillStoresEveryPixelThenRefreshes : Obligations.FillStoresEveryPixelThenRefreshes := by
  intro s c
  refine ⟨decodeOfEncodeIsTheCommand (.fill c), fun hl => liveCheck_refused hl,
    fun hl hg hn => (liveCheck_passed hl).trans (guard_refused hg hn), fun hp hguard hwf => ?_⟩
  have ⟨hl, _⟩ := hp
  refine ⟨(storeAll c s).buf, ?_, fun j => pixelAt_storeAll hwf, memByte_fillPixels_above hwf _ _⟩
  rw [exec_fill_of_checks hp hguard, ← storeAll_eq]
  exact (liveCheck_passed (s := storeAll c s) hl).symm

/-- Settles O31: FILLW and CLEAR run FILL's own meaning. -/
theorem fillwAndClearAreFills : Obligations.FillwAndClearAreFills :=
  ⟨fun c => decodeOfEncodeIsTheCommand (.fillw c), decodeOfEncodeIsTheCommand .clear, fun _ _ => rfl, fun _ => rfl,
    pipeline_zero⟩

/-- Each byte of a zero pixel is 0. -/
theorem memByte_of_pixelAt_zero {m : Mem} {a : ℕ} (h : pixelAt m (a / 3) = ⟨0, 0, 0⟩) : memByte m a = 0 := by
  obtain ⟨h0, h1, h2⟩ := WirePixel.mk.inj h
  obtain ha | ha | ha : a = 3 * (a / 3) ∨ a = 3 * (a / 3) + 1 ∨ a = 3 * (a / 3) + 2 := by omega
  · rw [ha, h0]
  · rw [ha, h1]
  · rw [ha, h2]

/-- Settles O30: each of the three commands is FILL, and the refresh of the filled strip is the undisturbed one. -/
theorem undisturbedFillsComplete : Obligations.UndisturbedFillsComplete := by
  intro s i c rest wait hp hidle hq hw hwf hin hi
  have hfill : exec i s = exec (.fill c) s := by
    obtain rfl | ⟨d, rfl, rfl⟩ | ⟨rfl, rfl⟩ := hi <;> rfl
  refine ⟨(storeAll c s).buf, ?_, fun j => pixelAt_storeAll hwf, ?_, memByte_fillPixels_above hwf _ _⟩
  · rw [hfill, exec_fill_of_checks hp (.inr hidle), ← storeAll_eq]
    exact blockingRefresh_undisturbed (s := storeAll c s) hp hidle hq hw hin
  · rintro rfl a ha
    obtain rfl : c = ⟨0, 0, 0⟩ := by simpa using hi
    exact memByte_of_pixelAt_zero ((pixelAt_storeAll hwf (by omega)).trans (pipeline_zero ..))

/-! ### FILL and SETPIX on every pixel (R122, R124) -/

/-- The pipeline does not read GAMMA_BUILT (R114). -/
theorem pipeline_groupAfterUse (g : ConfigGroup) (o : ChannelOrder) (c : Color) :
    pipeline (groupAfterUse g) o c = pipeline g o c := by
  rw [groupAfterUse_eq]
  rfl

/-- After SETPIX of one colour on the first `n` pixels of `s`: SETPIX is still not refused and stores the same bytes, and the buffer
is as after a fill of these pixels. -/
structure FirstPixelsSet (c : Color) (s : State) (n : ℕ) (v : State) : Prop where
  playable : Playable v
  guard : v.cfg.inflightGuard = false ∨ v.inflight = 0
  length : v.length = s.length
  pipeline : pipeline v.group v.order c = Machine.pipeline s.group s.order c
  buf : v.buf = fillPixels (Machine.pipeline s.group s.order c) n s.buf

theorem exec_setpix_next_pixel (h : FirstPixelsSet c s n v) (hn : n < s.length.toNat) :
    ∃ w, exec (.setpix (BitVec.ofNat 24 n) c) v = .next w ∧ FirstPixelsSet c s (n + 1) w := by
  obtain ⟨hp, hguard, hlen, hpipe, hbuf⟩ := h
  have hnat : (BitVec.ofNat 24 n).toNat = n := Nat.mod_eq_of_lt (by omega)
  refine ⟨_, exec_setpix_of_checks hp (by rwa [hnat, hlen]) hguard, hp, hguard, hlen, ?_, ?_⟩
  · exact (pipeline_groupAfterUse ..).trans hpipe
  · simp [hnat, hpipe, hbuf, fillPixels]

/-- SETPIX of pixel `i` after what the SETPIX before it has answered. -/
def setpixNext (c : Color) (o : StepResult) (i : ℕ) : StepResult :=
  match o with
  | .next v => exec (.setpix (BitVec.ofNat 24 i) c) v
  | r => r

theorem foldl_setpixNext (hp : Playable s) (hguard : s.cfg.inflightGuard = false ∨ s.inflight = 0) (hn : n ≤ s.length.toNat) :
    ∃ v, (List.range n).foldl (setpixNext c) (.next s) = .next v ∧ FirstPixelsSet c s n v := by
  induction n with
  | zero => exact ⟨s, rfl, hp, hguard, rfl, rfl, rfl⟩
  | succ n ih =>
    obtain ⟨v, hfold, hv⟩ := ih (by omega)
    obtain ⟨w, hw, hset⟩ := exec_setpix_next_pixel hv hn
    refine ⟨w, ?_, hset⟩
    rw [List.range_succ, List.foldl_append, hfold]
    exact hw

/-- Settles O32: both leave the buffer of `fillPixels`, FILL because its refresh writes no byte. -/
theorem fillEqualsSetpixOnEveryPixel : Obligations.FillEqualsSetpixOnEveryPixel := by
  intro s t u c hp hguard _ hfill hreset hfold a
  have ht : t.buf = fillPixels (pipeline s.group s.order c) s.length.toNat s.buf :=
    runCommand_submit_buf (s := storeAll c s) (exec_fill_of_checks hp hguard ▸ hfill) hreset
  obtain ⟨v, hv, hset⟩ := foldl_setpixNext hp hguard le_rfl
  obtain rfl : v = u := Host.Outcome.next.inj (hv.symm.trans hfold)
  rw [ht, hset.buf]

end Sys2Proof.Proofs
end

