-- ==== Sys2Proof/Proofs/NoFault.lean ====
section
/-! No step faults from a state that meets the invariant (R41, R133). The one fault is an access to a byte that the buffer does not
have, and every access is to bytes of a strip that is live: by a command past its checks, or by the symbol generator for a record of
TXQ, which is empty without a live strip. -/

namespace Sys2Proof.Proofs
open Sys2Proof.Machine Sys2Proof.Laws

variable {s : State} {r r' : StepResult}

/-! ### Safe outcomes -/

@[simp] theorem safe_next (s : State) : SafeOutcome (.next s) := nofun

@[simp] theorem safe_raise (status : Status) (s : State) : SafeOutcome (raise status s) := nofun

@[simp] theorem safe_refused (why : Refusal) : SafeOutcome (.refused why) := nofun

@[simp] theorem safe_ite {c : Prop} [Decidable c] :
    SafeOutcome (if c then r else r') ↔ (c → SafeOutcome r) ∧ (¬c → SafeOutcome r') := by
  split <;> simp [*]

/-- A check refuses the command with a response, so it is safe where what follows it is (R137). -/
theorem safe_check {c : Prop} [Decidable c] {status : Status} (h : ¬c → SafeOutcome r) :
    SafeOutcome (if c then raise status s else r) := safe_ite.mpr ⟨fun _ => safe_raise status s, h⟩

/-- The buffer has every byte of a live strip (R40, R41). -/
theorem safe_stripAccess {n : Nat} (hstrip : StripInv s) (hn : n ≤ 3 * s.length.toNat) (hr : SafeOutcome r) :
    SafeOutcome (withBuffer n s r) := by
  obtain ⟨-, halloc, -, hmax⟩ := hstrip
  rwa [withBuffer_eq halloc (by omega)]

/-! ### Serving an event -/

/-- Without a live strip nothing is in flight (R40). -/
theorem stripInv_of_inFlight (h : EngineInv s) (hq : s.txq ≠ []) : StripInv s := by
  cases he : s.engine <;> rw [EngineInv, he] at h
  case idle =>
    obtain ⟨-, ⟨hstrip, -⟩ | ⟨-, -, -, hnil⟩⟩ := h
    · exact hstrip
    · exact absurd hnil hq
  case initConfigure | initEnable =>
    obtain ⟨-, -, -, -, hnil, -⟩ := h
    exact absurd hnil hq
  case blockLatch => exact h.1
  all_goals exact h.2.1

/-- The bytes of a record of TXQ are those of the strip (R34). -/
theorem safe_recordAccess {x : Tx} (hinv : s.Inv) (hx : x ∈ s.txq) (hr : SafeOutcome r) :
    SafeOutcome (withBuffer (3 * x.len.toNat) s r) := by
  obtain ⟨-, -, hengine, -, hrecords, -⟩ := inv_iff.mp hinv
  obtain ⟨hlen, -⟩ := hrecords x hx
  exact safe_stripAccess (stripInv_of_inFlight hengine (List.ne_nil_of_mem hx)) (by rw [hlen]) hr

theorem servePull_safe (hinv : s.Inv) : SafeOutcome (servePull s) := by
  unfold servePull
  split
  · exact safe_refused _
  · rename_i x hx
    exact safe_ite.mpr
      ⟨fun _ => safe_recordAccess hinv (List.mem_of_find?_eq_some hx) (safe_next _), fun _ => safe_refused _⟩

theorem serveGenRead_safe (n j : Nat) (hinv : s.Inv) : SafeOutcome (serveGenRead n j s) := by
  unfold serveGenRead
  split
  · exact safe_refused _
  · rename_i x hx
    exact safe_ite.mpr ⟨fun _ => safe_recordAccess hinv (List.mem_of_getElem? hx) (safe_next _), fun _ => safe_refused _⟩

/-- A completion event reads no byte. -/
theorem serveDone_safe (s : State) : SafeOutcome (serveDone s) := by
  unfold serveDone
  split <;> simp

/-- The ways in which a blocking refresh's wait ends read no byte. -/
theorem onBlockWait_safe (a : ChannelAnswer) (s : State) : SafeOutcome (onBlockWait a s) := by
  cases a <;> simp only [onBlockWait, safe_ite, safe_next, safe_raise, safe_refused, implies_true, and_self]
  split <;> simp

/-- No answer of the channel makes the block read a byte (R92). -/
theorem serveAnswer_safe (a : ChannelAnswer) (s : State) : SafeOutcome (serveAnswer a s) := by
  simp only [serveAnswer]
  split
  · cases a <;> simp [onConfigure]
  · cases a <;> simp [onEnable]
  · cases a <;> simp [onFreeWait]
  · cases a <;> simp [onDisable]
  · cases a <;> simp [onRelease]
  · cases a <;> simp [onAsyncTransmit]
  · cases a <;> simp [onBlockTransmit]
  · exact onBlockWait_safe a _
  · exact safe_refused _
  · exact safe_refused _

/-- Of the events the generator's read and the pull alone read the buffer, for a record of TXQ. -/
theorem serveEvent_safe (e : Event) (hinv : s.Inv) : SafeOutcome (serveEvent e s) := by
  cases e with
  | answer a => exact serveAnswer_safe a s
  | chDone => exact serveDone_safe s
  | symPull => exact servePull_safe hinv
  | genRead n j => exact serveGenRead_safe n j hinv
  | ticks n =>
    simp only [serveEvent, serveTicks]
    split <;> simp
  | groupWrite w =>
    simp only [serveEvent, serveGroupWrite]
    split <;> simp
  | reset contents => exact safe_next _

theorem runCommand_safe (hinv : s.Inv) : SafeOutcome (runCommand s) := fun f =>
  runEngine_safe (P := State.Inv) (fun _ _ _ _ hu _ _ hserve => serveEvent_inv (inv_inbox hu) hserve)
    (fun e _ _ f hu _ _ => serveEvent_safe e (inv_inbox hu) f) _ s f hinv

/-! ### The first request of a command -/

/-- INIT's first request is sent from a zero-filled buffer (R98). -/
theorem initRequested_inv {l : Word24} {o p : Byte} {req : ChannelRequest} (hinv : s.Inv) (hi : s.engine = .idle)
    (hlc : s.lc = .uninit) (hl : l ≠ 0) (hmax : l.toNat ≤ s.cfg.maxPixels) :
    (sendRequest req (.initConfigure l o p) { s with buf := zeroFill (3 * l.toNat) s.buf, bufAlloc := true }).Inv := by
  obtain ⟨hc, ⟨hwf, hbelow⟩, -, hq⟩ := inv_iff.mp hinv
  obtain ⟨ht, -, hchan, htxq⟩ := empty_of_inv hinv hi (by simp [hlc])
  have hpos : 1 ≤ l.toNat := by bv_omega
  have hfill : 3 * l.toNat ≤ 3 * s.cfg.maxPixels := by omega
  exact inv_iff.mpr ⟨hc, ⟨zeroFill_wf hwf _, zeroFill_below hbelow _ hfill⟩, ⟨ht, hlc, rfl, hchan, htxq, hpos, hmax⟩, hq⟩

/-- FREE's first request is sent from a live strip (R99). -/
theorem freeRequested_inv {p : Engine} {req : ChannelRequest} (hp : p = .freeWait ∨ p = .freeDisable) (hinv : s.Inv)
    (hi : s.engine = .idle) (hl : s.lc = .live) : (sendRequest req p s).Inv := by
  obtain ⟨hc, hb, -, hq⟩ := inv_iff.mp hinv
  have strip := strip_of_inv hinv hi hl
  refine inv_iff.mpr ⟨hc, hb, ?_, hq⟩
  obtain rfl | rfl := hp <;> exact strip

/-- A submission of either kind of refresh keeps the invariant, refused or not (R94). -/
theorem submit_inv {p : Engine} (hp : p = .asyncTransmit ∨ p = .blockTransmit) (hinv : s.Inv) (hi : s.engine = .idle)
    (hl : s.lc = .live) : (submit p s).Inv := by
  obtain ⟨-, hs⟩ | ⟨hn, hs⟩ := submit_cases p s
  · rw [hs]
    exact respond_inv hinv hi
  · rw [hs]
    have requested := transmitRequested_inv hinv hi hl hn
    obtain rfl | rfl := hp <;> exact requested

/-! ### Every command -/

theorem blockingRefresh_safe (hinv : s.Inv) (hi : s.engine = .idle) (hl : s.lc = .live) : SafeOutcome (blockingRefresh s) :=
  runCommand_safe (submit_inv (.inr rfl) hinv hi hl)

/-- A pixel of a live strip is accessed past the index check (R42, R137). -/
theorem safe_pixelAccess {index : Word24} (hinv : s.Inv) (hi : s.engine = .idle) (hl : ¬s.lc ≠ .live)
    (hindex : ¬s.length.toNat ≤ index.toNat) (hr : SafeOutcome r) : SafeOutcome (withBuffer (3 * index.toNat + 3) s r) := by
  obtain ⟨-, hstrip, -⟩ := strip_of_inv hinv hi (not_not.mp hl)
  exact safe_stripAccess hstrip (by omega) hr

theorem setPixelColor_safe (index : Word24) (c : Color) (hinv : s.Inv) (hi : s.engine = .idle) :
    SafeOutcome (setPixelColor index c s) :=
  safe_check fun hl => safe_check fun hindex => safe_check fun _ => safe_pixelAccess hinv hi hl hindex (safe_next _)

theorem fillColor_safe (c : Color) (hinv : s.Inv) (hi : s.engine = .idle) : SafeOutcome (fillColor c s) := by
  refine safe_check fun hl => safe_check fun _ => ?_
  obtain ⟨-, hstrip, -⟩ := strip_of_inv hinv hi (not_not.mp hl)
  have ⟨_, _, _, hmax⟩ := hstrip
  obtain ⟨-, ⟨hwf, hbelow⟩, -⟩ := inv_iff.mp hinv
  have hfilled : (storeAll c s).Inv :=
    write_inv hinv (fillPixels_wf hwf _ _) (fillPixels_below hbelow _ _ (by omega))
  exact safe_stripAccess hstrip le_rfl (blockingRefresh_safe hfilled hi (not_not.mp hl))

theorem execFree_safe (hinv : s.Inv) (hi : s.engine = .idle) : SafeOutcome (execFree s) := by
  unfold execFree
  split
  · exact safe_next _
  · exact safe_next _
  · rename_i hl
    exact safe_ite.mpr ⟨fun _ => runCommand_safe (freeRequested_inv (.inl rfl) hinv hi hl),
      fun _ => runCommand_safe (freeRequested_inv (.inr rfl) hinv hi hl)⟩

/-- No command faults between commands. -/
theorem exec_safe (i : Instr) (hinv : s.Inv) (hi : s.engine = .idle) : SafeOutcome (exec i s) := by
  cases i with
  | init l o p =>
    exact safe_check fun hlc => safe_check fun hl => safe_check fun hmax =>
      runCommand_safe (initRequested_inv hinv hi (not_not.mp hlc) hl (not_lt.mp hmax))
  | free => exact execFree_safe hinv hi
  | refresh => exact safe_check fun hl => blockingRefresh_safe hinv hi (not_not.mp hl)
  | refresha => exact safe_check fun hl => runCommand_safe (submit_inv (.inl rfl) hinv hi (not_not.mp hl))
  | isbusy => exact safe_check fun _ => safe_next _
  | setraw index raw =>
    exact safe_check fun hl => safe_check fun hindex => safe_check fun _ =>
      safe_pixelAccess hinv hi hl hindex (safe_next _)
  | readpix index =>
    exact safe_check fun hl => safe_check fun hindex => safe_pixelAccess hinv hi hl hindex (safe_next _)
  | readreg regnum =>
    simp only [exec, execReadreg]
    split <;> simp
  | setpix index c => exact setPixelColor_safe index c hinv hi
  | setpixw index c => exact setPixelColor_safe index (rgbwToRgb c) hinv hi
  | fill c => exact fillColor_safe c hinv hi
  | fillw c => exact fillColor_safe (rgbwToRgb c) hinv hi
  | clear => exact fillColor_safe { r := 0, g := 0, b := 0 } hinv hi
  | nop | setbrt _ | setgamma _ | cvtw _ | cvtrgb _ | lutrd _ => exact safe_next _

/-- Settles O4: no event faults, hence no run of a command, and each command accesses bytes of a live strip alone and starts its run
in a state that meets the invariant. -/
theorem noStepFaultsFromTheInvariant : Obligations.NoStepFaultsFromTheInvariant := by
  intro s hinv
  unfold step
  split
  · rename_i hi
    split
    · exact safe_next _
    · split
      · exact exec_safe _ (inv_inbox hinv) hi
      · exact safe_raise _ _
    · exact serveEvent_safe _ (inv_inbox hinv)
  · exact runCommand_safe hinv

end Sys2Proof.Proofs
end

