-- ==== Sys2Proof/Proofs/CommandErrors.lean ====
section
/-! The answer of a command (R62, R133 to R138): it comes once, with a status of the command's row of R136, and an error that no
channel answer has preceded changes nothing else. -/

namespace Sys2Proof.Proofs
open Sys2Proof.Machine Sys2Proof.Laws

variable {i : Instr} {e : Event} {s t u v : State} {op c : Opcode} {status : Status} {data : Word32} {cfg : Config}
  {r : StepResult}

/-! ### The state check (R135) -/

theorem exec_outside_live (hl : s.lc ≠ .live)
    (hop : i.opcode ∈ [Opcode.refresh, .refresha, .isbusy, .setraw, .readpix, .setpix, .setpixw, .fill, .fillw, .clear]) :
    exec i s = .next (answering .invalidArgument 0 s) := by
  cases i with
  | refresh | refresha | isbusy | setraw | readpix | setpix | setpixw | fill | fillw | clear => exact liveCheck_refused hl
  | nop | init | free | readreg | setbrt | setgamma | cvtw | cvtrgb | lutrd => simp [Instr.opcode] at hop

/-- Settles O36: the state check is the first one of each of the eleven commands. -/
theorem stripCommandsNeedTheirLifecycleState : Obligations.StripCommandsNeedTheirLifecycleState := by
  refine fun s i => ⟨exec_outside_live, fun hlc hop => ?_⟩
  cases i with
  | init l o p => exact exec_init_invalid o p (.inl hlc)
  | _ => simp [Instr.opcode] at hop

/-! ### The rows of the table (R136) -/

/-- A response that the row of `op` allows, with DATA 0 on an error; TIMEOUT needs a finite timeout and BUSY the guard. -/
structure InRow (cfg : Config) (op : Opcode) (status : Status) (data : Word32) : Prop where
  mem : status ∈ answerable op
  data : status ≠ .ok → data = 0
  timeout : status = .timeout → cfg.refreshTimeout ≠ none
  busy : status = .busy → cfg.inflightGuard = true

/-- Every command can answer OK, with any DATA. -/
theorem inRow_ok : InRow cfg op .ok data := by
  refine ⟨?_, nofun, nofun, nofun⟩
  cases op <;> simp [answerable]

/-- An error other than TIMEOUT and BUSY needs no parameter. -/
theorem inRow_error (h : status ∈ answerable op) (ht : status ≠ .timeout) (hb : status ≠ .busy) : InRow cfg op status 0 :=
  ⟨h, fun _ => rfl, fun hs => absurd hs ht, fun hs => absurd hs hb⟩

theorem inRow_timeout (h : .timeout ∈ answerable op) (ht : ∃ n, cfg.refreshTimeout = some n) : InRow cfg op .timeout 0 :=
  ⟨h, fun _ => rfl, fun _ => Option.ne_none_iff_exists'.mpr ht, nofun⟩

theorem inRow_busy (h : .busy ∈ answerable op) (hg : cfg.inflightGuard = true) : InRow cfg op .busy 0 :=
  ⟨h, fun _ => rfl, nofun, fun _ => hg⟩

/-- A row that has another's statuses allows its responses. -/
theorem InRow.mono (h : InRow cfg c status data) (hsub : answerable c ⊆ answerable op) : InRow cfg op status data :=
  ⟨hsub h.mem, h.data, h.timeout, h.busy⟩

/-! ### An event within a command -/

/-- The command `c` goes on with no response, or it answers as its row allows. -/
inductive EventAnswer (c : Opcode) (s t : State) : Prop
  | goesOn : commandOf t.engine = some c → t.responses = s.responses → EventAnswer c s t
  | answers {status : Status} : t.engine = .idle → t.responses = ⟨status, 0⟩ :: s.responses → InRow s.cfg c status 0 →
    EventAnswer c s t

theorem serveAnswer_eventAnswer {a : ChannelAnswer} (hc : commandOf s.engine = some c) (h : serveAnswer a s = .next t) :
    EventAnswer c s t := by
  obtain ⟨l, o, p, he, hcase⟩ | ⟨l, o, p, he, -, rfl⟩ | ⟨he, -, rfl⟩ | ⟨he, -, rfl⟩ | ⟨he, -, rfl⟩ | ⟨he, hcase⟩ | ⟨he, hcase⟩ |
    ⟨he, hcase⟩ := serveAnswer_next h
  all_goals
    rw [he] at hc
    cases hc
  -- INIT
  · obtain ⟨-, rfl⟩ | ⟨-, rfl⟩ := hcase
    · exact .goesOn rfl rfl
    · exact .answers rfl rfl (inRow_error (by decide) nofun nofun)
  · exact .answers rfl rfl inRow_ok
  -- FREE
  · exact .goesOn rfl rfl
  · exact .goesOn rfl rfl
  · exact .answers rfl rfl inRow_ok
  -- REFRESHA
  · obtain ⟨-, rfl⟩ | ⟨-, rfl⟩ := hcase
    · exact .answers rfl rfl inRow_ok
    · exact .answers rfl rfl (inRow_error (by decide) nofun nofun)
  -- a blocking refresh
  · obtain ⟨-, rfl⟩ | ⟨-, rfl⟩ := hcase
    · exact .goesOn rfl rfl
    · exact .answers rfl rfl (inRow_error (by decide) nofun nofun)
  · obtain ⟨-, -, rfl⟩ | ⟨-, ht, rfl⟩ | ⟨-, rfl⟩ := hcase
    · exact .goesOn rfl rfl
    · exact .answers rfl rfl (inRow_timeout (by decide) ht)
    · exact .answers rfl rfl (inRow_error (by decide) nofun nofun)

theorem serveEvent_eventAnswer (hr : isReset (.event e) = false) (hc : commandOf s.engine = some c)
    (h : serveEvent e s = .next t) : EventAnswer c s t := by
  cases e with
  | answer a => exact serveAnswer_eventAnswer hc h
  | chDone =>
    obtain ⟨x, rest, -, -, -, rfl⟩ := serveDone_next h
    exact .goesOn hc rfl
  | symPull =>
    obtain ⟨x, -, -, -, -, rfl⟩ := servePull_next h
    exact .goesOn hc rfl
  | genRead n j =>
    obtain ⟨x, -, -, -, -, rfl⟩ := serveGenRead_next h
    exact .goesOn hc rfl
  | ticks n =>
    obtain ⟨-, rfl⟩ | ⟨r, -, -, rfl⟩ | ⟨r, -, -, rfl⟩ := serveTicks_next h
    · exact .goesOn hc rfl
    · exact .goesOn hc rfl
    · exact .answers rfl rfl inRow_ok
  | groupWrite w =>
    obtain ⟨g, rfl, -⟩ := serveGroupWrite_next h
    exact .goesOn hc rfl
  | reset contents => cases hr

/-! ### The run of a command -/

/-- Since `s` the block has sent no response and served no reset, and its parameters are the same. -/
structure Silent (s u : State) : Prop where
  responses : u.responses = s.responses
  cfg : u.cfg = s.cfg
  noReset : NoResetServed s u

/-- A command whose row is that of `op`, begun in `s`: it waits, within a command whose statuses `op` has too (a fill within a
blocking refresh), it has answered once, or a reset has abandoned it. -/
inductive Course (op : Opcode) (s u : State) : Prop
  | waits {c : Opcode} : commandOf u.engine = some c → answerable c ⊆ answerable op → Silent s u → Course op s u
  | answered {status : Status} {data : Word32} : u.engine = .idle → u.responses = ⟨status, data⟩ :: s.responses →
    NoResetServed s u → InRow s.cfg op status data → Course op s u
  | abandoned : u.engine = .idle → u.responses = s.responses → ¬NoResetServed s u → Course op s u

theorem exists_reset (hr : isReset (.event e) = true) : ∃ contents, e = .reset contents := by
  cases e with
  | reset contents => exact ⟨contents, rfl⟩
  | _ => cases hr

/-- One input less is to come, the event that was taken. -/
theorem countP_takeEvent {inputs rest : List Input} (p : Input → Bool) (h : takeEvent inputs = some (e, rest)) :
    inputs.countP p = rest.countP p + if p (.event e) then 1 else 0 := by
  obtain ⟨before, after, rfl, rfl, -⟩ := takeEvent_some h
  simp only [List.countP_append, List.countP_cons]
  omega

theorem serveEvent_course {rest : List Input} (h : Course op s u) (hb : u.engine ≠ .idle)
    (htake : takeEvent u.inbox = some (e, rest)) (hs : serveEvent e { u with inbox := rest } = .next t) : Course op s t := by
  cases h with
  | answered hi => exact absurd hi hb
  | abandoned hi => exact absurd hi hb
  | waits hc hsub hsilent =>
    obtain ⟨hresp, hcfg, hnone⟩ := hsilent
    have hin : t.inbox = rest := serveEvent_inbox hs
    have hcount := countP_takeEvent isReset htake
    cases hr : isReset (.event e) with
    | false =>
      have hnone' : NoResetServed s t := by simpa [NoResetServed, hin, hcount, hr] using hnone
      cases serveEvent_eventAnswer (s := { u with inbox := rest }) hr hc hs with
      | goesOn hc' hresp' => exact .waits hc' hsub ⟨hresp'.trans hresp, (serveEvent_cfg hs).trans hcfg, hnone'⟩
      | answers hi hresp' hrow =>
        exact .answered hi (hresp'.trans (congrArg _ hresp)) hnone' ((hcfg ▸ hrow).mono hsub)
    | true =>
      obtain ⟨contents, rfl⟩ := exists_reset hr
      have hserved : ¬NoResetServed s t := by
        simp only [NoResetServed, hin, hcount, hr, if_true] at hnone ⊢
        omega
      cases hs
      exact .abandoned rfl hresp hserved

theorem runCommand_course (h : Course op s u) : Answers (Course op s) (runCommand u) :=
  fun t => runEngine_keeps (fun _ _ _ _ hu hb htake hserve => serveEvent_course hu hb htake hserve) _ u t h

/-- A submission is refused, or it waits for the channel (R94). -/
theorem submit_course {p : Engine} (hp : commandOf p = some c) (hsub : answerable c ⊆ answerable op)
    (hrej : .transmitRejected ∈ answerable op) (hv : Silent s v) : Answers (Course op s) (runCommand (submit p v)) := by
  obtain ⟨hresp, hcfg, hnone⟩ := hv
  refine runCommand_course ?_
  obtain ⟨-, hs⟩ | ⟨-, hs⟩ := submit_cases p v
  · rw [hs]
    exact .answered rfl (congrArg _ hresp) hnone (inRow_error hrej nofun nofun)
  · rw [hs]
    exact .waits hp hsub ⟨hresp, hcfg, hnone⟩

/-! ### A command -/

/-- The command answers at once. -/
theorem course_respond (hv : Silent s v) (hrow : InRow s.cfg op status data) : Course op s (respond status data v) :=
  .answered rfl (congrArg _ hv.responses) hv.noReset hrow

theorem course_ok (hv : Silent s v) : Answers (Course op s) (.next (respond .ok data v)) :=
  answers_next.mpr (course_respond hv inRow_ok)

/-- A check refuses the command as its row allows, or it passes (R137). -/
theorem check_course {b : Prop} [Decidable b] (hrow : b → InRow s.cfg op status 0) (h : Answers (Course op s) r) :
    Answers (Course op s) (if b then raise status s else r) := by
  split
  · exact answers_raise.mpr (course_respond ⟨rfl, rfl, rfl⟩ (hrow ‹_›))
  · exact h

theorem argumentCheck_course {b : Prop} [Decidable b] (harg : .invalidArgument ∈ answerable op) (h : Answers (Course op s) r) :
    Answers (Course op s) (if b then raise .invalidArgument s else r) :=
  check_course (fun _ => inRow_error harg nofun nofun) h

theorem guard_course (hbusy : .busy ∈ answerable op) (h : Answers (Course op s) r) :
    Answers (Course op s) (if guardRefuses s then raise .busy s else r) :=
  check_course (fun hg => inRow_busy hbusy (guardRefuses_eq_true.mp hg).1) h

theorem setPixelColor_course {index : Word24} {col : Color} (hop : answerable op = [.ok, .invalidArgument, .busy]) :
    Answers (Course op s) (setPixelColor index col s) :=
  argumentCheck_course (by simp [hop]) (argumentCheck_course (by simp [hop]) (guard_course (by simp [hop])
    (answers_withBuffer (course_ok ⟨rfl, rfl, rfl⟩))))

theorem fillColor_course {col : Color} (hop : answerable op = [.ok, .invalidArgument, .transmitRejected, .timeout, .busy]) :
    Answers (Course op s) (fillColor col s) :=
  argumentCheck_course (by simp [hop]) (guard_course (by simp [hop]) (answers_withBuffer
    (submit_course rfl (hop ▸ by decide) (by simp [hop]) ⟨rfl, rfl, rfl⟩)))

theorem execInit_course {l : Word24} {o p : Byte} : Answers (Course .init s) (execInit l o p s) :=
  argumentCheck_course (by decide) (argumentCheck_course (by decide)
    (check_course (fun _ => inRow_error (by decide) nofun nofun)
      (runCommand_course (.waits rfl (List.Subset.refl _) ⟨rfl, rfl, rfl⟩))))

theorem execFree_course : Answers (Course .free s) (execFree s) := by
  unfold execFree
  split
  · exact course_ok ⟨rfl, rfl, rfl⟩
  · exact course_ok ⟨rfl, rfl, rfl⟩
  · split <;> exact runCommand_course (.waits rfl (List.Subset.refl _) ⟨rfl, rfl, rfl⟩)

theorem execSetraw_course {index raw : Word24} : Answers (Course .setraw s) (execSetraw index raw s) :=
  argumentCheck_course (by decide) (argumentCheck_course (by decide) (guard_course (by decide)
    (answers_withBuffer (course_ok ⟨rfl, rfl, rfl⟩))))

theorem execReadpix_course {index : Word24} : Answers (Course .readpix s) (execReadpix index s) :=
  argumentCheck_course (by decide) (argumentCheck_course (by decide) (answers_withBuffer (course_ok ⟨rfl, rfl, rfl⟩)))

theorem execReadreg_course {n : Word24} : Answers (Course .readreg s) (execReadreg n s) := by
  unfold execReadreg
  split
  · exact answers_raise.mpr (course_respond ⟨rfl, rfl, rfl⟩ (inRow_error (by decide) nofun nofun))
  · exact course_ok ⟨rfl, rfl, rfl⟩

/-- The course of every command. -/
theorem exec_course (i : Instr) (s : State) : Answers (Course i.opcode s) (exec i s) := by
  cases i with
  | init l o p => exact execInit_course
  | free => exact execFree_course
  | refresh =>
    exact argumentCheck_course (by decide) (submit_course rfl (List.Subset.refl _) (by decide) ⟨rfl, rfl, rfl⟩)
  | refresha =>
    exact argumentCheck_course (by decide) (submit_course rfl (List.Subset.refl _) (by decide) ⟨rfl, rfl, rfl⟩)
  | isbusy => exact argumentCheck_course (by decide) (course_ok ⟨rfl, rfl, rfl⟩)
  | setraw => exact execSetraw_course
  | readpix => exact execReadpix_course
  | readreg => exact execReadreg_course
  | setpix | setpixw => exact setPixelColor_course rfl
  | fill | fillw | clear => exact fillColor_course rfl
  | nop | setbrt | setgamma | cvtw | cvtrgb | lutrd => exact course_ok ⟨rfl, rfl, rfl⟩

theorem portBusy_of_commandOf (h : commandOf u.engine = some c) : portBusy u = true := by
  have hbusy : u.engine ≠ .idle := fun hi => by simp [hi, commandOf] at h
  simpa [portBusy] using hbusy

/-- Settles O16: the three ends of a command's course. -/
theorem everyAnswerIsInTheTable : Obligations.EveryAnswerIsInTheTable := by
  intro i s t h
  cases exec_course i s t h with
  | waits hc _ hsilent => exact .inl ⟨hsilent.responses, .inl (portBusy_of_commandOf hc)⟩
  | abandoned _ hresp hreset => exact .inl ⟨hresp, .inr hreset⟩
  | answered hi hresp hnone hrow =>
    exact .inr ⟨_, _, hresp, portBusy_eq_false.mpr hi, hnone, hrow.mem, hrow.data, hrow.timeout, hrow.busy⟩

/-! ### Precise errors (R138) -/

/-- An error's DATA is 0. -/
theorem exec_error_data (h : exec i s = .next t) (hresp : t.responses = ⟨status, data⟩ :: s.responses) (herr : status ≠ .ok) :
    data = 0 := by
  cases exec_course i s t h with
  | waits _ _ hsilent => simp [hsilent.responses] at hresp
  | abandoned _ hresp' => simp [hresp'] at hresp
  | answered _ hresp' _ hrow =>
    obtain ⟨rfl, rfl⟩ : _ ∧ _ := by simpa [hresp'] using hresp
    exact hrow.data herr

/-- With no event to come the run of a command ends where it begins (R162). -/
theorem runCommand_noEvent (h : runCommand s = .next t) (hnone : ∀ e, .event e ∉ s.inbox) : t = s :=
  Host.Outcome.next.inj (h.symm.trans (runEngine_waits (takeEvent_eq_none hnone) _))

/-- With no event to come a submission that has answered is one that was refused (R94). -/
theorem runCommand_submit_noEvent {p : Engine} (h : runCommand (submit p s) = .next t) (hnone : ∀ e, .event e ∉ s.inbox)
    (hresp : t.responses ≠ s.responses) : t = respond .transmitRejected 0 s := by
  obtain ht | ⟨-, hrun⟩ := runCommand_submit h
  · exact ht
  · obtain rfl := runCommand_noEvent hrun hnone
    exact absurd rfl hresp

/-- A state that differs by a response alone differs by the one that was sent. -/
theorem eq_answering_of_respond {status' : Status} {data' : Word32} (ht : t = respond status' data' s)
    (hresp : t.responses = ⟨status, data⟩ :: s.responses) : t = answering status data s := by
  subst ht
  obtain ⟨rfl, rfl⟩ : status' = status ∧ data' = data := by simpa using hresp
  rfl

/-- Settles O37: of the cases of a command that an error can come from, one only answers, one is a refused submission, and the
others wait for the channel. -/
theorem errorsWithoutChannelAnswersArePrecise : Obligations.ErrorsWithoutChannelAnswersArePrecise := by
  intro s t i st d h hresp herr hquiet
  obtain rfl := exec_error_data h hresp herr
  have hne : t.responses ≠ s.responses := by simp [hresp]
  cases exec_case h with
  | answers => exact eq_answering_of_respond rfl hresp
  -- the commands that answer OK
  | freesUninit | storesRaw | stores | setsBrightness | setsGamma =>
    obtain rfl : .ok = st := by simpa using hresp
    exact absurd rfl herr
  -- the commands of the channel
  | inits _ _ _ hrun | frees _ _ hrun =>
    obtain ⟨hnone, -⟩ := hquiet.resolve_left (by simp [Instr.opcode])
    obtain rfl := runCommand_noEvent hrun hnone
    exact absurd rfl hne
  | refreshes _ hrun | refreshesAsync _ hrun =>
    obtain ⟨hnone, -⟩ := hquiet.resolve_left (by simp [Instr.opcode])
    exact eq_answering_of_respond (runCommand_submit_noEvent hrun hnone hne) hresp
  | fills c hop => obtain hop | hop | hop := hop <;> simp [hop] at hquiet

end Sys2Proof.Proofs
end

