-- ==== Sys2Proof/Proofs/ResetInput.lean ====
section
/-! The reset input, to one block and to a system (R151, R152, R153). -/

namespace Sys2Proof.Proofs
open Sys2Proof.Machine Sys2Proof.Laws

variable {s : State} {sys : List State} {contents : Mem} {rest : List Input} {n : Nat}

/-- A reset input is served at any time: an idle block serves it as the next event, and in the middle of a command it ends the run
of the engine, which is idle after it (R151). -/
theorem step_reset (hin : s.inbox = .event (.reset contents) :: rest) :
    step s = .next (afterReset contents { s with inbox := rest }) := by
  by_cases hidle : s.engine = .idle
  · exact step_idle_event hidle hin
  · rw [step_busy hidle, runCommand_event hidle hin rfl]
    exact runEngine_idle rfl _

/-- After a reset every item is at its reset value but for the parameters, the drawn buffer, the group (log 8), and what was observed
and is still to come (log 12). -/
theorem afterReset_eq (contents : Mem) (s : State) :
    afterReset contents s = { State.resetWith s.cfg (afterReset contents s).buf with
      group := (afterReset contents s).group, responses := s.responses, chanTrace := s.chanTrace,
      streams := (afterReset contents s).streams, inbox := s.inbox } := rfl

/-- The buffer after a reset holds bytes that exist only, in the canonical form (R32, R153). -/
theorem afterReset_bufferInv (contents : Mem) (s : State) : BufferInv (afterReset contents s) :=
  ⟨drawnBuffer_wf _ _, drawnBuffer_below _ _⟩

/-- A reset of the system is a reset of each block and of its group (R151). -/
theorem systemReset_getElem? (draw : Nat → Mem) (hs : sys[n]? = some s) :
    (systemReset draw sys)[n]? = some { afterReset (draw n) s with group := .reset } := by
  simp [systemReset, hs]

/-- Settles O48: with the reset input next, the step leads to `afterReset` whether the block is idle or not, and a reset of the
system leads every block there and its group to its reset value. -/
theorem resetInputAbandonsTheCommand : Obligations.ResetInputAbandonsTheCommand := by
  refine ⟨fun s contents rest hin => ⟨_, step_reset hin, afterReset_eq _ _, fun hown => ?_, fun hshared => ?_, rfl,
    afterReset_bufferInv _ _, fun hwf hbelow => drawnBuffer_canonical hwf hbelow⟩, fun draw sys => ⟨?_, ?_⟩⟩
  · simp [hown, ConfigGroup.reset]
  · simp [hshared]
  · exact List.length_mapIdx
  · intro n s t hs ht
    obtain rfl := Option.some.inj ((systemReset_getElem? draw hs).symm.trans ht)
    exact ⟨rfl, rfl⟩

end Sys2Proof.Proofs
end
